-- ==== Sys2Proof/Word.lean ====
section
/-! DEFINITION. The widths of the block: registers and register addresses are 8 bits (R7), device addresses 7 bits (R7),
a command word 24 bits (R90). The 13-bit result word is R97's. Every value is unsigned (R10). -/

namespace Sys2Proof

/-- A register, a register address, a field value, a mask or a latch: 8 bits (R7, R10, R140). -/
abbrev Byte := BitVec 8

/-- A device address on the two-wire bus: 7 bits (R7, R103). -/
abbrev DevAddr := BitVec 7

/-- A command word in format CMD24 (R90). -/
abbrev CmdWord := BitVec 24

/-- A result word in format RES13 (R97). -/
abbrev ResWord := BitVec 13

end Sys2Proof
end

