-- ==== Sys2Proof/Syntax.lean ====
section
/-! DEFINITION. The instructions of spec/opcode_table.json, one constructor a row: the four commands of a controller (R92),
the three bus frames (R102) and the four pseudo-instructions whose expansion the spec fixes (R105). With them the two
forms in which an instruction is stored: a 24-bit command word (R90) or the bytes of a bus transaction (R102). -/

namespace Sys2Proof

/-- The instructions. `o` is a field offset and `w` a field width in bits (R98); `d` is the device address that the
transport conveys with a frame (R102). -/
inductive Instr where
  /-- `RD_REG addr` (R125) -/
  | rdReg (addr : Byte)
  /-- `WR_REG addr, value` (R126) -/
  | wrReg (addr value : Byte)
  /-- `GET addr, o, w` (R160) -/
  | get (addr : Byte) (o w : Nat)
  /-- `SET addr, o, w, value` (R170) -/
  | set (addr : Byte) (o w : Nat) (value : Byte)
  /-- `W1(d, p)`, the pointer-select frame (R120) -/
  | w1 (d : DevAddr) (p : Byte)
  /-- `W2(d, p, v)`, the pointer-and-data write frame (R121) -/
  | w2 (d : DevAddr) (p v : Byte)
  /-- `R1(d)`, the one-byte read frame (R122) -/
  | r1 (d : DevAddr)
  /-- `get_EN_SBB0`, that is `GET 0x2A, 0, 3` (R105, R161) -/
  | getEnSbb0
  /-- `set_EN_SBB0 v`, that is `SET 0x2A, 0, 3, v` (R105, R180) -/
  | setEnSbb0 (v : Byte)
  /-- `get_TV_LDO`, that is `GET 0x38, 0, 7` (R105, R161) -/
  | getTvLdo
  /-- `set_TV_LDO v`, that is `SET 0x38, 0, 7, v` (R105, R180) -/
  | setTvLdo (v : Byte)
  deriving DecidableEq, Repr

/-- A bus transaction as the transport carries it (R60, R102): a write of some bytes to a device address, or a read of
some number of bytes from one. -/
inductive Transaction where
  | write (d : DevAddr) (bytes : List Byte)
  | read (d : DevAddr) (count : Nat)
  deriving DecidableEq, Repr

/-- What an instruction is stored as: a command word at a controller's command port (R82, R90) or a bus transaction. -/
inductive Encoding where
  | word (w : CmdWord)
  | bus (x : Transaction)
  deriving DecidableEq, Repr

/-- The core instruction a pseudo-instruction stands for (R105); every other instruction is its own expansion. -/
def Instr.expand : Instr → Instr
  | .rdReg addr => .rdReg addr
  | .wrReg addr value => .wrReg addr value
  | .get addr o w => .get addr o w
  | .set addr o w value => .set addr o w value
  | .w1 d p => .w1 d p
  | .w2 d p v => .w2 d p v
  | .r1 d => .r1 d
  | .getEnSbb0 => .get 0x2A 0 3
  | .setEnSbb0 v => .set 0x2A 0 3 v
  | .getTvLdo => .get 0x38 0 7
  | .setTvLdo v => .set 0x38 0 7 v

end Sys2Proof
end

