-- ==== Sys2Proof/WellFormed.lean ====
section
/-! DEFINITION. Which terms of `Instr` the encodings of the spec can spell. The only condition is on a field descriptor:
`1 <= w <= 8`, `o + w <= 8` (R39, R72, R91, R100). A register address needs none: every 8-bit value is a well-formed
address, mapped or not (R72). A device address needs none either: a frame may carry any (R63). -/

namespace Sys2Proof

/-- A width a field can have: at least one bit (R91). -/
def widthPositive (w : Nat) : Bool := decide (1 ≤ w)

/-- The field stays inside the byte (R72, R91); with it the width is at most eight and the offset at most seven. -/
def fieldInByte (o w : Nat) : Bool := decide (o + w ≤ 8)

/-- A legal descriptor's offset and width (R91). -/
def descriptorLegal (o w : Nat) : Bool := widthPositive w && fieldInByte o w

/-- The check on an instruction. -/
def Instr.wellFormed : Instr → Bool
  | .rdReg _ => true
  | .wrReg _ _ => true
  | .get _ o w => descriptorLegal o w
  | .set _ o w _ => descriptorLegal o w
  | .w1 _ _ => true
  | .w2 _ _ _ => true
  | .r1 _ => true
  | .getEnSbb0 => true
  | .setEnSbb0 _ => true
  | .getTvLdo => true
  | .setTvLdo _ => true

end Sys2Proof
end

