-- ==== Sys2Proof/Decode.lean ====
section
/-! DEFINITION. The decoder and the encoder. A command word is decoded by R101 (`decodeCore`), total on all 24-bit words,
an illegal word rejected under the name of the clause of R100 it breaks; a word that the opcode table also lists under the
name of a pseudo-instruction is then given that name (`Instr.named`, log 13). A bus transaction is one of the three frames
of R102 or is rejected (R61). -/

namespace Sys2Proof

/-- Why an encoding spells no instruction: the clauses of R100, and R61 for a bus transaction. -/
inductive Reject where
  /-- R100 (a): `GET` or `SET` with `o + wm1 > 7` -/
  | fieldLeavesByte
  /-- R100 (b): `RD_REG` or `WR_REG` with `o != 0` or `wm1 != 7` -/
  | notWholeByte
  /-- R100 (c): `RD_REG` or `GET` with `value != 0x00` -/
  | valueNotZero
  /-- R61: a write frame of other than one or two bytes, or a read frame of other than one byte -/
  | frameLength
  deriving DecidableEq, Repr

/-- The operation code, bits 23:22 (R90). -/
def cmdOp (w : CmdWord) : BitVec 2 := w.extractLsb' 22 2

/-- The field offset, bits 21:19 (R90). -/
def cmdO (w : CmdWord) : BitVec 3 := w.extractLsb' 19 3

/-- The field width minus one, bits 18:16 (R90, R91). -/
def cmdWm1 (w : CmdWord) : BitVec 3 := w.extractLsb' 16 3

/-- The register address, bits 15:8 (R90). -/
def cmdAddr (w : CmdWord) : Byte := w.extractLsb' 8 8

/-- The value to write, bits 7:0 (R90). -/
def cmdValue (w : CmdWord) : Byte := w.extractLsb' 0 8

/-- The field width `w = wm1 + 1`, one to eight (R91). -/
def cmdWidth (w : CmdWord) : Nat := (cmdWm1 w).toNat + 1

/-- The five fields put together, bit 23 first (R90). -/
def cmdWord (op : BitVec 2) (o wm1 : BitVec 3) (addr value : Byte) : CmdWord :=
  op ++ o ++ wm1 ++ addr ++ value

/-- The operation codes (R92). -/
inductive Opcode where
  | rdReg
  | wrReg
  | get
  | set
  deriving DecidableEq, Repr

/-- The bits of an operation code (R92). -/
def Opcode.bits : Opcode → BitVec 2
  | .rdReg => 0b00
  | .wrReg => 0b01
  | .get => 0b10
  | .set => 0b11

/-- The operation code that two bits spell (R92): all four values are used. -/
def opcodeOf (b : BitVec 2) : Opcode :=
  if b = 0b00 then .rdReg
  else if b = 0b01 then .wrReg
  else if b = 0b10 then .get
  else .set

/-- The decoder of R101. -/
def decodeCore (w : CmdWord) : Except Reject Instr :=
  match opcodeOf (cmdOp w) with
  | .rdReg =>
    if cmdO w ≠ 0 ∨ cmdWm1 w ≠ 7 then .error .notWholeByte
    else if cmdValue w ≠ 0 then .error .valueNotZero
    else .ok (.rdReg (cmdAddr w))
  | .wrReg =>
    if cmdO w ≠ 0 ∨ cmdWm1 w ≠ 7 then .error .notWholeByte
    else .ok (.wrReg (cmdAddr w) (cmdValue w))
  | .get =>
    if 7 < (cmdO w).toNat + (cmdWm1 w).toNat then .error .fieldLeavesByte
    else if cmdValue w ≠ 0 then .error .valueNotZero
    else .ok (.get (cmdAddr w) (cmdO w).toNat (cmdWidth w))
  | .set =>
    if 7 < (cmdO w).toNat + (cmdWm1 w).toNat then .error .fieldLeavesByte
    else .ok (.set (cmdAddr w) (cmdO w).toNat (cmdWidth w) (cmdValue w))

/-- The name the opcode table gives an instruction: a `GET` or `SET` of one of the two fields whose expansion the spec
fixes carries the pseudo-instruction's name (R105, log 13). -/
def Instr.named : Instr → Instr
  | .rdReg addr => .rdReg addr
  | .wrReg addr value => .wrReg addr value
  | .get addr o w =>
    if addr = 0x2A ∧ o = 0 ∧ w = 3 then .getEnSbb0
    else if addr = 0x38 ∧ o = 0 ∧ w = 7 then .getTvLdo
    else .get addr o w
  | .set addr o w value =>
    if addr = 0x2A ∧ o = 0 ∧ w = 3 then .setEnSbb0 value
    else if addr = 0x38 ∧ o = 0 ∧ w = 7 then .setTvLdo value
    else .set addr o w value
  | .w1 d p => .w1 d p
  | .w2 d p v => .w2 d p v
  | .r1 d => .r1 d
  | .getEnSbb0 => .getEnSbb0
  | .setEnSbb0 v => .setEnSbb0 v
  | .getTvLdo => .getTvLdo
  | .setTvLdo v => .setTvLdo v

/-- The instruction a command word spells, under the table's name for it. -/
def decodeCommand (w : CmdWord) : Except Reject Instr :=
  match decodeCore w with
  | .ok i => .ok i.named
  | .error r => .error r

/-- The frame a bus transaction is (R61, R102). -/
def decodeTransaction : Transaction → Except Reject Instr
  | .write d [p] => .ok (.w1 d p)
  | .write d [p, v] => .ok (.w2 d p v)
  | .write _ _ => .error .frameLength
  | .read d count => if count = 1 then .ok (.r1 d) else .error .frameLength

/-- The decoder on both stored forms. -/
def decode : Encoding → Except Reject Instr
  | .word w => decodeCommand w
  | .bus x => decodeTransaction x

/-- The words of the four commands (R93 to R96). -/
def encodeRdReg (addr : Byte) : CmdWord := cmdWord Opcode.rdReg.bits 0 7 addr 0

/-- R94 -/
def encodeWrReg (addr value : Byte) : CmdWord := cmdWord Opcode.wrReg.bits 0 7 addr value

/-- R95; the width is stored minus one (R91). -/
def encodeGet (addr : Byte) (o w : Nat) : CmdWord :=
  cmdWord Opcode.get.bits (BitVec.ofNat 3 o) (BitVec.ofNat 3 (w - 1)) addr 0

/-- R96; the width is stored minus one (R91). -/
def encodeSet (addr : Byte) (o w : Nat) (value : Byte) : CmdWord :=
  cmdWord Opcode.set.bits (BitVec.ofNat 3 o) (BitVec.ofNat 3 (w - 1)) addr value

/-- The stored form of an instruction: a command's word (R93 to R96), a pseudo-instruction's word being its expansion's
(R105), a frame's bytes (R102). -/
def encode : Instr → Encoding
  | .rdReg addr => .word (encodeRdReg addr)
  | .wrReg addr value => .word (encodeWrReg addr value)
  | .get addr o w => .word (encodeGet addr o w)
  | .set addr o w value => .word (encodeSet addr o w value)
  | .w1 d p => .bus (.write d [p])
  | .w2 d p v => .bus (.write d [p, v])
  | .r1 d => .bus (.read d 1)
  | .getEnSbb0 => .word (encodeGet 0x2A 0 3)
  | .setEnSbb0 v => .word (encodeSet 0x2A 0 3 v)
  | .getTvLdo => .word (encodeGet 0x38 0 7)
  | .setTvLdo v => .word (encodeSet 0x38 0 7 v)

/-- The device address a table row's frame is given where its bits do not say one: the primary address (R7, log 14). -/
def tableDevAddr : DevAddr := 0x48

/-- The stored form of an instruction given as the opcode table numbers its bits: three bytes are a command word; of the
frames, one byte is `W1`'s, two bytes are `W2`'s with the pointer byte first (bits 7:0), and a transaction that carries no
byte from the controller is `R1` (R102, log 14). -/
def tableEncoding (nbits w : Nat) : Encoding :=
  if nbits = 0 then .bus (.read tableDevAddr 1)
  else if nbits ≤ 8 then .bus (.write tableDevAddr [BitVec.ofNat 8 w])
  else if nbits ≤ 16 then .bus (.write tableDevAddr [BitVec.ofNat 8 w, BitVec.ofNat 8 (w / 256)])
  else .word (BitVec.ofNat 24 w)

/-- The instruction the decoder reads from a word of the opcode table. -/
def decodeTableWord (nbits w : Nat) : Option Instr :=
  match decode (tableEncoding nbits w) with
  | .ok i => some i
  | .error _ => none

end Sys2Proof
end

