-- ==== Sys2Proof/Config.lean ====
section
/-! DEFINITION. What the spec fixes or leaves to an implementation: the access classes and the kinds of parameter, the
parameters of R8 as one record with their defaults, the field table's rows that the source determines (R40), and the free
values (constants without a body: no proof can see one). -/

namespace Sys2Proof

/-- The access classes of a register (R23, R35 to R37). -/
inductive AccessClass where
  /-- read-only (R35) -/
  | ro
  /-- read/write (R36) -/
  | rw
  /-- read-clear (R37) -/
  | rc
  deriving DecidableEq, Repr

/-- What `SET` does with a value wider than the field (R8, R177). -/
inductive RangePolicy where
  | truncate
  | reject
  deriving DecidableEq, Repr

/-- A row of `FIELD_TABLE` (R39, R40, R98). A position or a kind that the source does not give is `none` (log 20). -/
structure FieldRow where
  name : String
  addr : Byte
  offset : Option Nat
  width : Option Nat
  kind : Option AccessClass
  deriving DecidableEq, Repr

/-- The parameters of R8. `targetDev` lists `TARGET_DEV[i]`, so its length is `N_CTL`. `reset`, `wmask` and `evmask` list
the registers for which `RESET`, `WMASK` and `EVMASK` are not the default. `RCMASK` is fixed (D7, log 12) and the `BUS`
oracle is in the state (log 5). -/
structure Params where
  devAddr : DevAddr
  targetDev : List DevAddr
  reset : List Host.Cell
  wmask : List Host.Cell
  evmask : List Host.Cell
  rangePolicy : RangePolicy
  fieldTable : List FieldRow
  deriving DecidableEq, Repr

/-- The primary and the alternate device address (R7, R103). -/
def primaryDevAddr : DevAddr := 0x48

/-- The alternate device address (R7, R103). -/
def alternateDevAddr : DevAddr := 0x40

/-- The rows of R40. -/
def sourceFieldTable : List FieldRow :=
  [ ⟨"EN_SBB0", 0x2A, some 0, some 3, some .rw⟩,
    ⟨"ADE_SBB0", 0x2A, none, none, none⟩,
    ⟨"TV_LDO", 0x38, some 0, some 7, some .rw⟩,
    ⟨"ICHGIN_LIM", 0x19, none, none, some .rw⟩,
    ⟨"CHG_EN", 0x19, none, none, some .rw⟩ ]

/-- The defaults of R8. -/
def defaultParams : Params where
  devAddr := primaryDevAddr
  targetDev := [primaryDevAddr]
  reset := []
  wmask := []
  evmask := []
  rangePolicy := .truncate
  fieldTable := sourceFieldTable

/-- An outcome of a frame addressed to the register file (R74), with what a failed or a never-completing frame did to the
register file: its effect applied in full, or not at all (R75). -/
inductive BusDraw where
  | ok
  | fail (applied : Bool)
  | never (applied : Bool)
  deriving DecidableEq, Repr, Inhabited

/-- The `n`-th `any(8-bit)` of a run (R12): `PTR` after a data byte (R65, R67), the byte read at an unmapped address (R70).
Nothing constrains it (log 6). -/
opaque Config.freeByte : Nat → Byte

/-- The outcome that the `BUS` oracle gives a frame when no outcome is fixed for it (R8, R45, R74), by the number of free
values drawn before it. Nothing constrains it (log 5). -/
opaque Config.busDraw : Nat → BusDraw

end Sys2Proof
end

