-- ==== Sys2Proof/Machine/State.lean ====
section
/-! DEFINITION. The state of the block (R20), as plain data: the register file (`REG`, `PTR`), the controllers (`PHASE`,
`CMD`, `CUR`, `NEW`, `RB`, `RES` each), and beside them the parameters and the model's own fields (the oracle's outcomes,
the count of free values, whose turn it is, the turns to come, the reply to a bare frame). Reset is R250. -/

namespace Sys2Proof.Machine

/-- The phases of a controller's sequencer (R27); `Phase.code` is the 4-bit code. -/
inductive Phase where
  | idle
  | check
  | rdPtr
  | rdData
  | merge
  | wrFrame
  | vfPtr
  | vfData
  | done
  deriving DecidableEq, Repr

/-- The result kinds (R220). Code 7 is never produced and has no constructor. -/
inductive ResultKind where
  | ok
  | verifyMismatch
  | transportFailure
  | invalidFieldValue
  | invalidAccess
  | invalidDescriptor
  | unmappedAddress
  deriving DecidableEq, Repr

/-- Which register access of a command failed (R31, R97): `RES.step`. -/
inductive ResultStep where
  | none
  | firstRead
  | write
  | verifyRead
  deriving DecidableEq, Repr

/-- The fields of the result latch `RES` (R31); `Result.word` is the 13-bit word (R97). -/
structure Result where
  kind : ResultKind
  step : ResultStep
  data : Byte
  deriving DecidableEq, Repr

/-- A controller's state (R26). A latch that holds no value is `none` (R32, log 3). `waiting`: a frame is outstanding that
never completes (R48, R74). -/
structure Ctl where
  phase : Phase
  cmd : Option CmdWord
  cur : Option Byte
  new : Option Byte
  rb : Option Byte
  res : Option Result
  waiting : Bool
  deriving DecidableEq, Repr

/-- A controller after reset, and between commands (R48; D4: the latches hold no value between commands). -/
def Ctl.idle : Ctl where
  phase := .idle
  cmd := none
  cur := none
  new := none
  rb := none
  res := none
  waiting := false

/-- What a frame returns to its issuer (R74, R120 to R122): success with what it delivers, failure, or nothing ever. -/
inductive Reply (α : Type) where
  | ok (a : α)
  | fail
  | never
  deriving DecidableEq, Repr

/-- One turn: which agent steps next, and with what input from outside the block (R6, R84, log 7). -/
inductive Turn where
  /-- requester `i` presents the command word `w` and controller `i` runs it to its end, no other agent between (R85) -/
  | command (i : Nat) (w : CmdWord)
  /-- requester `i` presents `w` and controller `i` accepts it: the arrow out of `IDLE` (R27) -/
  | present (i : Nat) (w : CmdWord)
  /-- controller `i` takes one arrow of R27 that is the sequencer's own -/
  | phase (i : Nat)
  /-- requester `i` takes the result: the arrow out of `DONE` (R27) -/
  | take (i : Nat)
  /-- a bus transaction arrives at the register file (R60) -/
  | frame (x : Transaction)
  /-- `EVENT_SET(a, bits)` of the event source (R204) -/
  | eventSet (a bits : Byte)
  /-- `STATUS_UPD(a, v)` of the event source (R205) -/
  | statusUpd (a v : Byte)
  deriving DecidableEq, Repr

/-- Why the model stops with a fault: the conditions of R234 that its types can still express. The rules are written so
that none is reachable from a reset state, so each is safe: it stops a state that no run of the hardware reaches. -/
inductive Fault where
  /-- A phase reads a latch that holds no value (R32, R234). Raised by the phases of `Machine/Sequencer.lean`. Safe. -/
  | emptyLatch
  /-- The datapath would be evaluated with `o + w > 8` (R234). Raised by `MERGE` and `VF_DATA` of `SET` and by `RD_DATA`
  of `GET`. Safe. -/
  | illegalDatapath
  /-- The phase is not on the path of the command's operation code (R27: "the arrows a command follows are fixed by
  `CMD.op`"). Raised by the phases of `Machine/Sequencer.lean`. Safe. -/
  | phaseOffPath
  deriving DecidableEq, Repr

/-- Why the model refuses a turn: inputs from outside that the spec does not admit. -/
inductive Refusal where
  /-- An instruction that has no meaning yet; raised by no arm. Safe. -/
  | notModelled (mnemonic : String)
  /-- A turn of a controller with index `N_CTL` or above: there is no such agent (R6, R243). Raised by every operation of a
  controller. Safe. -/
  | noController
  /-- A bus transaction of another length than the three frames have (R61: "a model does not admit a write frame of more
  than two bytes or a read frame of more than one byte"). Raised by the turn `frame`. Safe. -/
  | frameLength
  /-- `EVENT_SET` of an address that is not of class `RC` (R204). Raised by the turn `eventSet`. Safe. -/
  | eventNotAdmitted
  /-- `STATUS_UPD` of an address other than 0x02, 0x03 and 0x05 (R205). Raised by the turn `statusUpd`. Safe. -/
  | statusNotAdmitted
  deriving DecidableEq, Repr

/-- The state. `regs` holds the cells `REG[a]` as a list in canonical form (log 21), `ptr` is `PTR`, `ctls` lists the
controllers. `params` are the parameters of R8, which no step changes (log 4). The rest is the model's own: `bus` the
outcomes fixed for the next frames (log 5), `draws` the count of free values drawn (log 6), `cur` the controller whose turn
it is and `agenda` the turns to come (log 7), `reply` what the last bare frame returned (log 15). -/
structure State where
  regs : List Host.Cell
  ptr : Byte
  ctls : List Ctl
  params : Params
  bus : List BusDraw
  draws : Nat
  cur : Nat
  agenda : List Turn
  reply : Option (Reply (Option Byte))
  deriving DecidableEq, Repr

/-- The machine right after reset (R250) with the default parameters of R8: one controller, in `IDLE`, its latches empty;
no register listed, so each of the 36 reads as its named reset value (log 1); `PTR` at its named value (log 2). -/
def State.reset : State where
  regs := []
  ptr := 0x00
  ctls := [Ctl.idle]
  params := defaultParams
  bus := []
  draws := 0
  cur := 0
  agenda := []
  reply := none

/-- What a step answers. -/
abbrev Answer := Host.Outcome State Fault Refusal

end Sys2Proof.Machine
end

