-- ==== Sys2Proof/Machine/RegisterMap.lean ====
section
/-! DEFINITION. The register map (R33), the masks that follow from a register's class and the parameters (R8, R66, R68,
R204), and the static checks on `FIELD_TABLE` (R39). -/

namespace Sys2Proof.Machine

/-- A row of the register map: address, name, access class (R33). -/
structure RegRow where
  addr : Byte
  name : String
  cls : AccessClass
  deriving DecidableEq, Repr

/-- The register map, the 36 rows of R33. -/
def registerMap : List RegRow :=
  [ ⟨0x00, "Global Interrupt Status", .rc⟩,
    ⟨0x01, "Charger Interrupt Status", .rc⟩,
    ⟨0x02, "Charger Status A", .ro⟩,
    ⟨0x03, "Charger Status B", .ro⟩,
    ⟨0x04, "Flags (ERCFLAG)", .rc⟩,
    ⟨0x05, "Global Status", .ro⟩,
    ⟨0x06, "Global Interrupt Mask", .rw⟩,
    ⟨0x07, "Charger Interrupt Mask", .rw⟩,
    ⟨0x10, "Global Configuration", .rw⟩,
    ⟨0x11, "Chip ID", .ro⟩,
    ⟨0x12, "GPIO Configuration", .rw⟩,
    ⟨0x18, "Charger Config A", .rw⟩,
    ⟨0x19, "Charger Config B", .rw⟩,
    ⟨0x1A, "Charger Config C", .rw⟩,
    ⟨0x1B, "Charger Config D", .rw⟩,
    ⟨0x1C, "Charger Config E", .rw⟩,
    ⟨0x1D, "Charger Config F", .rw⟩,
    ⟨0x1E, "Charger Config G", .rw⟩,
    ⟨0x1F, "Charger Config H", .rw⟩,
    ⟨0x20, "Charger Config I", .rw⟩,
    ⟨0x28, "SIMO Buck-Boost Top Config", .rw⟩,
    ⟨0x29, "SIMO Buck-Boost 0 Config A", .rw⟩,
    ⟨0x2A, "SIMO Buck-Boost 0 Config B", .rw⟩,
    ⟨0x2B, "SIMO Buck-Boost 1 Config A", .rw⟩,
    ⟨0x2C, "SIMO Buck-Boost 1 Config B", .rw⟩,
    ⟨0x2D, "SIMO Buck-Boost 2 Config A", .rw⟩,
    ⟨0x2E, "SIMO Buck-Boost 2 Config B", .rw⟩,
    ⟨0x38, "LDO Config A", .rw⟩,
    ⟨0x39, "LDO Config B", .rw⟩,
    ⟨0x40, "LED Config (one of LED0/1/2 Config A/B)", .rw⟩,
    ⟨0x41, "LED Config (one of LED0/1/2 Config A/B)", .rw⟩,
    ⟨0x42, "LED Config (one of LED0/1/2 Config A/B)", .rw⟩,
    ⟨0x43, "LED Config (one of LED0/1/2 Config A/B)", .rw⟩,
    ⟨0x44, "LED Config (one of LED0/1/2 Config A/B)", .rw⟩,
    ⟨0x45, "LED Config (one of LED0/1/2 Config A/B)", .rw⟩,
    ⟨0x46, "LED Top", .rw⟩ ]

/-- `CLASS[a]`, and `none` where `a` is not in `MAPPED` (R23, R33). -/
def classOf (a : Byte) : Option AccessClass :=
  (registerMap.find? fun r => r.addr == a).map RegRow.cls

/-- `a in MAPPED` (R33). -/
def mapped (a : Byte) : Bool := (classOf a).isSome

/-- The byte a list of exceptions gives an address, or the default. -/
def maskAt (exceptions : List Host.Cell) (a : Byte) (default : Byte) : Byte :=
  match exceptions.find? fun c => c.1 == a.toNat with
  | some c => c.2
  | none => default

/-- `WMASK[a]`, the bits of a register that a bus write can change (R8): the parameter for class `RW`, none for `RO` and
`RC` (R35, R37). -/
def writeMask (P : Params) (a : Byte) : Byte :=
  match classOf a with
  | some .rw => maskAt P.wmask a 0xFF
  | some .ro => 0x00
  | some .rc => 0x00
  | none => 0x00

/-- `RCMASK[a]`, the bits that a bus read clears (R8, R200, D7): all of an `RC` register, none elsewhere. -/
def readClearMask (a : Byte) : Byte :=
  match classOf a with
  | some .rc => 0xFF
  | some .ro => 0x00
  | some .rw => 0x00
  | none => 0x00

/-- `EVMASK[a]`, the bits that the event source may set (R8, R204): the parameter for class `RC`, none elsewhere. -/
def eventMask (P : Params) (a : Byte) : Byte :=
  match classOf a with
  | some .rc => maskAt P.evmask a 0xFF
  | some .ro => 0x00
  | some .rw => 0x00
  | none => 0x00

/-- The status registers that change on the chip: Charger Status A, Charger Status B, Global Status; not Chip ID (R205). -/
def statusRegister (a : Byte) : Bool := a == 0x02 || a == 0x03 || a == 0x05

end Sys2Proof.Machine
end

