-- ==== Sys2Proof/Machine/Operands.lean ====
section
/-! DEFINITION. The field datapath (`41_field_datapath.md`): the mask and shift generators and the two sides of the
bit-field multiplexer, the in-range predicate, and the fields of `FIELD_TABLE` as descriptors. All operands are unsigned
bytes (R140). -/

namespace Sys2Proof.Machine

/-- A legal descriptor's offset and width: `1 <= w <= 8`, `o + w <= 8` (R91, R100). -/
def legalField (o w : Nat) : Bool := decide (1 ≤ w ∧ o + w ≤ 8)

/-- `MASKGEN(w) = (1 << w) - 1`, `1 << w` formed in 9 bits (R141, R144). -/
def maskGen (w : Nat) : Byte := (((1 : BitVec 9) <<< w) - 1).setWidth 8

/-- `FIELDMASK(o, w)`, the mask of the field in place, written `FM` (R145). -/
def fieldMask (o w : Nat) : Byte := maskGen w <<< o

/-- `EXTRACT(b, o, w)` (R147). -/
def extract (b : Byte) (o w : Nat) : Byte := (b >>> o) &&& maskGen w

/-- The bits of a byte outside the field: the source's `preserved` (R30, R146). -/
def preserved (b : Byte) (o w : Nat) : Byte := b &&& ~~~(fieldMask o w)

/-- The value truncated to the field's width and moved into place (R99, R146). -/
def placed (o w : Nat) (v : Byte) : Byte := (v &&& maskGen w) <<< o

/-- `INSERT(b, o, w, v)` (R146). -/
def insertField (b : Byte) (o w : Nat) (v : Byte) : Byte := preserved b o w ||| placed o w v

/-- `INRANGE(v, w)`: the value is not wider than the field (R154). -/
def inRange (v : Byte) (w : Nat) : Bool := decide (v ≤ maskGen w)

/-- The kind of a field is writable (R105, R180). -/
def writableKind : Option AccessClass → Bool
  | some .rw => true
  | some .ro => false
  | some .rc => false
  | none => false

/-- `get_F` of a row of `FIELD_TABLE` whose position is known (R105, R161). -/
def getterOf (f : FieldRow) : Option Instr :=
  match f.offset, f.width with
  | some o, some w => some (.get f.addr o w)
  | some _, none => none
  | none, some _ => none
  | none, none => none

/-- `set_F v` of a row of `FIELD_TABLE` whose position is known and whose kind is writable; a row whose register is `RO` or
`RC` has none, whatever kind it states (R105, R180). -/
def setterOf (f : FieldRow) (v : Byte) : Option Instr :=
  if writableKind f.kind && classOf f.addr == some .rw then
    match f.offset, f.width with
    | some o, some w => some (.set f.addr o w v)
    | some _, none => none
    | none, some _ => none
    | none, none => none
  else none

/-- A row's field mask, where its position is known (R39). -/
def rowMask (f : FieldRow) : Byte :=
  match f.offset, f.width with
  | some o, some w => fieldMask o w
  | some _, none => 0x00
  | none, some _ => 0x00
  | none, none => 0x00

/-- The field of one row lies inside a mapped register (R39). -/
def rowValid (f : FieldRow) : Bool :=
  mapped f.addr &&
    match f.offset, f.width with
    | some o, some w => legalField o w
    | some o, none => decide (o ≤ 7)
    | none, some w => decide (1 ≤ w ∧ w ≤ 8)
    | none, none => true

/-- Two rows on one register do not overlap (R39). -/
def rowsDisjoint (f g : FieldRow) : Bool := f.addr != g.addr || rowMask f &&& rowMask g == 0x00

/-- The static property a model checks once on `FIELD_TABLE` (R39, R269): every row valid, different rows disjoint. -/
def fieldTableValid (t : List FieldRow) : Bool :=
  t.all rowValid && decide (t.Pairwise fun f g => rowsDisjoint f g = true)

end Sys2Proof.Machine
end

