-- ==== Sys2Proof/Machine/Flags.lean ====
section
/-! DEFINITION. The result latch, which plays the part of status flags (R31): the codes of the result kinds (R220) and
steps (R31), the 13-bit result word (R97), the phase codes (R27), and the static checks that decide a result before any
frame (R225). -/

namespace Sys2Proof.Machine

/-- The 3-bit code of a result kind (R220). -/
def ResultKind.code : ResultKind → BitVec 3
  | .ok => 0
  | .verifyMismatch => 1
  | .transportFailure => 2
  | .invalidFieldValue => 3
  | .invalidAccess => 4
  | .invalidDescriptor => 5
  | .unmappedAddress => 6

/-- The 2-bit code of a step (R31). -/
def ResultStep.code : ResultStep → BitVec 2
  | .none => 0
  | .firstRead => 1
  | .write => 2
  | .verifyRead => 3

/-- `res = (kind << 10) | (step << 8) | data` (R97). -/
def Result.word (r : Result) : ResWord := r.kind.code ++ r.step.code ++ r.data

/-- The source's boolean `success` (R31, R179). -/
def Result.success (r : Result) : Bool := r.kind == .ok

/-- The 4-bit code of a phase (R27). -/
def Phase.code : Phase → BitVec 4
  | .idle => 0
  | .check => 1
  | .rdPtr => 2
  | .rdData => 3
  | .merge => 4
  | .wrFrame => 5
  | .vfPtr => 6
  | .vfData => 7
  | .done => 8

/-- The result a command ends with when it ran to its end and had nothing to verify (R221). -/
def okResult (data : Byte) : Result := ⟨.ok, .none, data⟩

/-- The result of a failure other than a mismatch: `data` is 0x00, `step` is 0 except for a transport failure (R221). -/
def errorResult (kind : ResultKind) (step : ResultStep) : Result := ⟨kind, step, 0x00⟩

/-- The result of a completed `SET`: the field read back is compared with the requested value, all eight bits
(R175, R178, R221). -/
def verifyResult (f value : Byte) : Result :=
  if f = value then ⟨.ok, .none, f⟩ else ⟨.verifyMismatch, .none, f⟩

/-- The static checks of `RD_REG` and `WR_REG` after decoding: the address only (R225). -/
def checkAddress (addr : Byte) : Option ResultKind :=
  if mapped addr then none else some .unmappedAddress

/-- The static checks of `GET`: descriptor, then address (R160, R225). -/
def checkGet (addr : Byte) (o w : Nat) : Option ResultKind :=
  if legalField o w then checkAddress addr else some .invalidDescriptor

/-- The static checks of `SET`, in R225's order: descriptor, address, class, and under `REJECT` the value. -/
def checkSet (P : Params) (addr : Byte) (o w : Nat) (value : Byte) : Option ResultKind :=
  if legalField o w = false then some .invalidDescriptor
  else if mapped addr = false then some .unmappedAddress
  else if classOf addr ≠ some .rw then some .invalidAccess
  else if P.rangePolicy = .reject ∧ inRange value w = false then some .invalidFieldValue
  else none

end Sys2Proof.Machine
end

