-- ==== Sys2Proof/Machine/Ops.lean ====
section
/-! DEFINITION. The named operations over the state: one cell, the register read and write with their class effects
(R66, R68), free draws (R12), the three frames with the `BUS` oracle (R64 to R67, R74, R75), the latches of the controller
whose turn it is, accepting a command and taking a result (R27), and completing a command with a result: the one shared
operation behind every error kind (R12 `raise`, R221, R228; there is no trap to take and none to return from, R232). -/

namespace Sys2Proof.Machine

/-- What a cell that the list does not name reads as: the value the model names for a register at reset (log 1, log 21). -/
def unlistedByte : Byte := 0x00

/-- `REG[a]` (R12, R21), by number. -/
def Memory.read (m : List Host.Cell) (n : Nat) : Byte :=
  match m.find? fun c => c.1 == n with
  | some c => c.2
  | none => unlistedByte

/-- The list without one address. -/
def Memory.erase (m : List Host.Cell) (n : Nat) : List Host.Cell := m.filter fun c => c.1 != n

/-- A cell put in its place in a list that does not name its address. -/
def Memory.place (n : Nat) (v : Byte) : List Host.Cell → List Host.Cell
  | [] => [(n, v)]
  | c :: m => if n < c.1 then (n, v) :: c :: m else c :: Memory.place n v m

/-- `REG[a] <- v` (R12): the list stays canonical, so writing what an unlisted cell reads as removes the entry. -/
def Memory.write (m : List Host.Cell) (n : Nat) (v : Byte) : List Host.Cell :=
  if v = unlistedByte then Memory.erase m n else Memory.place n v (Memory.erase m n)

/-- A list of cells written one after the other over empty cells. -/
def Memory.ofCells (cells : List Host.Cell) : List Host.Cell :=
  cells.foldl (fun m c => if mapped (BitVec.ofNat 8 c.1) && c.1 < 256 then Memory.write m c.1 c.2 else m) []

/-- The canonical form: addresses strictly rising, only mapped addresses (R21), no entry equal to what an unlisted cell
reads as. -/
abbrev Memory.wf (m : List Host.Cell) : Prop :=
  m.Pairwise (fun x y => x.1 < y.1) ∧
    ∀ c ∈ m, c.1 < 256 ∧ mapped (BitVec.ofNat 8 c.1) = true ∧ c.2 ≠ unlistedByte

/-- `REG[a]` in a state. -/
def State.reg (s : State) (a : Byte) : Byte := Memory.read s.regs a.toNat

/-- `REG[a] <- v` in a state, with no side effect (R12). -/
def State.setReg (s : State) (a v : Byte) : State := { s with regs := Memory.write s.regs a.toNat v }

/-- `PTR <- p` (R12). -/
def State.setPtr (s : State) (p : Byte) : State := { s with ptr := p }

/-- Reset with any parameters and any pointer (R46 to R48, R250): `REG[a] = RESET[a]`, every controller in `IDLE` with
empty latches, no frame outstanding. -/
def State.resetWith (P : Params) (ptr : Byte) : State where
  regs := Memory.ofCells P.reset
  ptr := ptr
  ctls := List.replicate P.targetDev.length Ctl.idle
  params := P
  bus := []
  draws := 0
  cur := 0
  agenda := []
  reply := none

/-! Free draws -/

/-- `any(8-bit)` (R12). -/
def drawByte (s : State) : Byte × State := (Config.freeByte s.draws, { s with draws := s.draws + 1 })

/-- The `BUS` oracle's outcome for the next frame (R45, R74): the next one fixed, or a free one. -/
def drawOutcome (s : State) : BusDraw × State :=
  match s.bus with
  | d :: rest => (d, { s with bus := rest })
  | [] => (Config.busDraw s.draws, { s with draws := s.draws + 1 })

/-- `PTR <- any(8-bit)` (R65, R67). -/
def freePtr (s : State) : State :=
  let (b, s) := drawByte s
  s.setPtr b

/-! The register file -/

/-- The register write of R66: the writable bits of a mapped register take the byte's; nothing else changes. -/
def regWrite (p v : Byte) (s : State) : State :=
  if mapped p then
    s.setReg p ((s.reg p &&& ~~~(writeMask s.params p)) ||| (v &&& writeMask s.params p))
  else s

/-- The register read of R68 with the read-clear effect of R200; an unmapped address gives any byte (R70). -/
def regRead (p : Byte) (s : State) : Byte × State :=
  if mapped p then (s.reg p, s.setReg p (s.reg p &&& ~~~(readClearMask p)))
  else drawByte s

/-- The effect of `W1` on the register file (R64). -/
def effectW1 (p : Byte) (s : State) : Unit × State := ((), s.setPtr p)

/-- The effect of `W2` (R65): pointer, register write, pointer free. -/
def effectW2 (p v : Byte) (s : State) : Unit × State := ((), freePtr (regWrite p v (s.setPtr p)))

/-- The effect of `R1` (R67): register read at the pointer, pointer free. -/
def effectR1 (s : State) : Byte × State :=
  let (b, s) := regRead s.ptr s
  (b, freePtr s)

/-- A frame on the bus: to another device address it fails and has no effect (R63); to the register file's, the oracle's
outcome decides what the issuer is told (R74) and, for a frame that did not succeed, whether the effect was applied in full
or not at all (R75). -/
def issue {α : Type} (d : DevAddr) (effect : State → α × State) (s : State) : Reply α × State :=
  if d = s.params.devAddr then
    match drawOutcome s with
    | (.ok, s) => let (a, s) := effect s; (.ok a, s)
    | (.fail applied, s) => (.fail, if applied then (effect s).2 else s)
    | (.never applied, s) => (.never, if applied then (effect s).2 else s)
  else (.fail, s)

/-- `W1(d, p)` (R120). -/
def frameW1 (d : DevAddr) (p : Byte) (s : State) : Reply Unit × State := issue d (effectW1 p) s

/-- `W2(d, p, v)` (R121). -/
def frameW2 (d : DevAddr) (p v : Byte) (s : State) : Reply Unit × State := issue d (effectW2 p v) s

/-- `R1(d)` (R122). -/
def frameR1 (d : DevAddr) (s : State) : Reply Byte × State := issue d effectR1 s

/-- The reply to a bare frame, kept where its issuer reads it (log 15). -/
def keepReply {α : Type} (delivered : α → Option Byte) (x : Reply α × State) : State :=
  match x with
  | (.ok a, s) => { s with reply := some (.ok (delivered a)) }
  | (.fail, s) => { s with reply := some .fail }
  | (.never, s) => { s with reply := some .never }

/-! The controller whose turn it is -/

/-- Its state, if there is a controller of that number. -/
def State.ctl? (s : State) : Option Ctl := s.ctls[s.cur]?

/-- An update of its state. -/
def State.updCtl (s : State) (f : Ctl → Ctl) : State := { s with ctls := s.ctls.modify s.cur f }

/-- `TARGET_DEV[i]`, the device address it puts on every frame (R128). -/
def State.target (s : State) : DevAddr := s.params.targetDev.getD s.cur primaryDevAddr

/-- `PHASE <- p` (R12). -/
def State.enter (s : State) (p : Phase) : State := s.updCtl fun c => { c with phase := p }

/-- `CUR <- b` (R29). -/
def State.latchCur (s : State) (b : Byte) : State := s.updCtl fun c => { c with cur := some b }

/-- `NEW <- b` (R29). -/
def State.latchNew (s : State) (b : Byte) : State := s.updCtl fun c => { c with new := some b }

/-- `RB <- b` (R29). -/
def State.latchRb (s : State) (b : Byte) : State := s.updCtl fun c => { c with rb := some b }

/-- Entry to phase `DONE` with a result: how every command ends, failed or not (R31, R221, R228). -/
def State.complete (s : State) (r : Result) : State :=
  s.updCtl fun c => { c with phase := .done, res := some r }

/-- `raise K` (R12): the command completes with an error kind, `data` 0x00, and performs no further frame. -/
def State.raise (s : State) (kind : ResultKind) (step : ResultStep) : State := s.complete (errorResult kind step)

/-- The issuer of a frame that never completes stays in its phase for ever (R74, R233). -/
def State.hang (s : State) : State := s.updCtl fun c => { c with waiting := true }

/-- Whether a controller accepts a command: in `IDLE`, or in `DONE`, when its requester takes the result first
(R26, R27, log 9). -/
def Ctl.accepts (c : Ctl) : Bool := !c.waiting && (c.phase == .idle || c.phase == .done)

/-- Accepting a command word: `CMD` written, the other latches empty, the sequencer in `CHECK` (R27, R28). -/
def State.accept (s : State) (w : CmdWord) : State :=
  s.updCtl fun _ => { Ctl.idle with phase := .check, cmd := some w }

/-- The requester takes the result: `DONE` to `IDLE`, the latches hold no value between commands (R27, D4). -/
def State.release (s : State) : State := s.updCtl fun _ => Ctl.idle

/-! Register accesses of a command (R123, R124) -/

/-- What a controller does after a frame: go on with what was delivered; complete with `TRANSPORT_FAILURE` and the step's
number (R222); or stay in its phase for ever (R233). -/
def afterFrame {α : Type} (step : ResultStep) (go : α → State → State) (x : Reply α × State) : State :=
  match x with
  | (.ok a, s) => go a s
  | (.fail, s) => s.raise .transportFailure step
  | (.never, s) => s.hang

/-- `MemRead(a, 1)`, that is `read_register(a)` (R123): `W1` in one phase, `R1` in the next. -/
def memRead (pointer data : Phase) (step : ResultStep) (a : Byte) (go : Byte → State → State) (s : State) : State :=
  let s := s.enter pointer
  afterFrame step
    (fun _ s =>
      let s := s.enter data
      afterFrame step go (frameR1 s.target s))
    (frameW1 s.target a s)

/-- `MemWrite(a, 1, v)`, that is `write_register(a, v)` (R124): one `W2`. -/
def memWrite (a v : Byte) (go : State → State) (s : State) : State :=
  let s := s.enter .wrFrame
  afterFrame .write (fun _ s => go s) (frameW2 s.target a v s)

/-- A whole command (R26): accepted with its word, its static checks made (R225), then its body, which ends in `DONE` or in
a phase whose frame never completes. A controller that is not ready accepts nothing (log 10). -/
def runCommand (w : CmdWord) (failed : Option ResultKind) (body : State → State) (s : State) : Answer :=
  match s.ctl? with
  | none => .refused .noController
  | some c =>
    if c.accepts then
      .next (match failed with
        | some kind => (s.accept w).raise kind .none
        | none => body (s.accept w))
    else .next s

end Sys2Proof.Machine
end

