-- ==== Sys2Proof/Machine/RegisterAccess.lean ====
section
/-! DEFINITION. The Bus Transaction Layer (`40_register_access.md`): the three frames as instructions of the register file,
and the commands `RD_REG` and `WR_REG` of the controller whose turn it is. -/

namespace Sys2Proof.Machine

/-- `W1(d, p)` (R120): it delivers nothing. -/
def execW1 (d : DevAddr) (p : Byte) (s : State) : Answer := .next (keepReply (fun _ => none) (frameW1 d p s))

/-- `W2(d, p, v)` (R121): it delivers nothing. -/
def execW2 (d : DevAddr) (p v : Byte) (s : State) : Answer := .next (keepReply (fun _ => none) (frameW2 d p v s))

/-- `R1(d) -> b` (R122): it delivers the byte. -/
def execR1 (d : DevAddr) (s : State) : Answer := .next (keepReply some (frameR1 d s))

/-- The body of `RD_REG` after `CHECK` (R125). -/
def bodyRdReg (addr : Byte) (s : State) : State :=
  memRead .rdPtr .rdData .firstRead addr (fun b s => (s.latchCur b).complete (okResult b)) s

/-- `RD_REG addr` (R125). -/
def execRdReg (addr : Byte) (s : State) : Answer :=
  runCommand (encodeRdReg addr) (checkAddress addr) (bodyRdReg addr) s

/-- The body of `WR_REG` after its address check (R126): `NEW` written, then the frame. -/
def bodyWrReg (addr value : Byte) (s : State) : State :=
  memWrite addr value (fun s => s.complete (okResult 0x00)) (s.latchNew value)

/-- `WR_REG addr, value` (R126): no class check and no read-back. -/
def execWrReg (addr value : Byte) (s : State) : Answer :=
  runCommand (encodeWrReg addr value) (checkAddress addr) (bodyWrReg addr value) s

end Sys2Proof.Machine
end

