-- ==== Sys2Proof/Machine/FieldGet.lean ====
section
/-! DEFINITION. The field getter (`42_field_get.md`): `GET` and the `get_F` pseudo-instructions. -/

namespace Sys2Proof.Machine

/-- The body of `GET` after `CHECK` (R160). -/
def bodyGet (addr : Byte) (o w : Nat) (s : State) : State :=
  memRead .rdPtr .rdData .firstRead addr (fun b s => (s.latchCur b).complete (okResult (extract b o w))) s

/-- `GET addr, o, w` (R160): no class check. -/
def execGet (addr : Byte) (o w : Nat) (s : State) : Answer :=
  runCommand (encodeGet addr o w) (checkGet addr o w) (bodyGet addr o w) s

/-- `get_EN_SBB0`, that is `GET 0x2A, 0, 3` (R105, R161). -/
def execGetEnSbb0 (s : State) : Answer :=
  runCommand (encodeGet 0x2A 0 3) (checkGet 0x2A 0 3) (bodyGet 0x2A 0 3) s

/-- `get_TV_LDO`, that is `GET 0x38, 0, 7` (R105, R161). -/
def execGetTvLdo (s : State) : Answer :=
  runCommand (encodeGet 0x38 0 7) (checkGet 0x38 0 7) (bodyGet 0x38 0 7) s

end Sys2Proof.Machine
end

