-- ==== Sys2Proof/Machine/FieldSet.lean ====
section
/-! DEFINITION. The field setter (`43_field_set.md`): `SET`, the read-modify-write-verify sequence of R170, and the
`set_F` pseudo-instructions. -/

namespace Sys2Proof.Machine

/-- Step 5 of `SET`: the verify read, its byte latched in `RB`, the field compared with the requested value (R175, R178). -/
def bodySetVerify (addr : Byte) (o w : Nat) (value : Byte) (s : State) : State :=
  memRead .vfPtr .vfData .verifyRead addr
    (fun b s => (s.latchRb b).complete (verifyResult (extract b o w) value)) s

/-- Steps 2 to 5 of `SET` on the byte of step 1: the merge (R173), the unconditional write (R174, R183), the verify. -/
def bodySetWrite (addr : Byte) (o w : Nat) (value current : Byte) (s : State) : State :=
  memWrite addr (insertField current o w value) (bodySetVerify addr o w value)
    ((s.enter .merge).latchNew (insertField current o w value))

/-- The body of `SET` after `CHECK` (R170): step 1, the current-value read (R172), then the rest. -/
def bodySet (addr : Byte) (o w : Nat) (value : Byte) (s : State) : State :=
  memRead .rdPtr .rdData .firstRead addr (fun b s => bodySetWrite addr o w value b (s.latchCur b)) s

/-- `SET addr, o, w, value` (R170), with the checks of R171. -/
def execSet (addr : Byte) (o w : Nat) (value : Byte) (s : State) : Answer :=
  runCommand (encodeSet addr o w value) (checkSet s.params addr o w value) (bodySet addr o w value) s

/-- `set_EN_SBB0 v`, that is `SET 0x2A, 0, 3, v` (R105, R180). -/
def execSetEnSbb0 (v : Byte) (s : State) : Answer :=
  runCommand (encodeSet 0x2A 0 3 v) (checkSet s.params 0x2A 0 3 v) (bodySet 0x2A 0 3 v) s

/-- `set_TV_LDO v`, that is `SET 0x38, 0, 7, v` (R105, R180). -/
def execSetTvLdo (v : Byte) (s : State) : Answer :=
  runCommand (encodeSet 0x38 0 7 v) (checkSet s.params 0x38 0 7 v) (bodySet 0x38 0 7 v) s

end Sys2Proof.Machine
end

