-- ==== Sys2Proof/Machine/Dispatch.lean ====
section
/-! DEFINITION. One arm per constructor of `Instr`, each one direct call of the instruction's meaning. -/

namespace Sys2Proof.Machine

/-- What an instruction does: a command on the controller whose turn it is, a frame on the register file. -/
def exec (i : Instr) (s : State) : Host.Outcome State Fault Refusal :=
  match i with
  | .rdReg addr => Sys2Proof.Machine.execRdReg addr s
  | .wrReg addr value => Sys2Proof.Machine.execWrReg addr value s
  | .get addr o w => Sys2Proof.Machine.execGet addr o w s
  | .set addr o w value => Sys2Proof.Machine.execSet addr o w value s
  | .w1 d p => Sys2Proof.Machine.execW1 d p s
  | .w2 d p v => Sys2Proof.Machine.execW2 d p v s
  | .r1 d => Sys2Proof.Machine.execR1 d s
  | .getEnSbb0 => Sys2Proof.Machine.execGetEnSbb0 s
  | .setEnSbb0 v => Sys2Proof.Machine.execSetEnSbb0 v s
  | .getTvLdo => Sys2Proof.Machine.execGetTvLdo s
  | .setTvLdo v => Sys2Proof.Machine.execSetTvLdo v s

end Sys2Proof.Machine
end

