-- ==== Sys2Proof/Machine/ReadClear.lean ====
section
/-! DEFINITION. The event source (`44_read_clear.md`): its two steps, enabled at any time (R204, R205). The read-clear
effect itself is in the register read, `regRead` (R68, R200). -/

namespace Sys2Proof.Machine

/-- `EVENT_SET(a, bits)` (R204): bits are set by OR in a read-clear register, whatever the mask registers 0x06 and 0x07
hold (R41, R236). Another address is no such step (log 18). -/
def eventSet (a bits : Byte) (s : State) : Answer :=
  if classOf a = some .rc then .next (s.setReg a (s.reg a ||| (bits &&& eventMask s.params a)))
  else .refused .eventNotAdmitted

/-- `STATUS_UPD(a, v)` (R205): a status register takes any byte. Another address is no such step (log 18). -/
def statusUpd (a v : Byte) (s : State) : Answer :=
  if statusRegister a then .next (s.setReg a v) else .refused .statusNotAdmitted

end Sys2Proof.Machine
end

