-- ==== Sys2Proof/Machine/Sequencer.lean ====
section
/-! DEFINITION. A controller at the granularity of one phase (R27, R84): each step moves the sequencer along one arrow of
R27's table and issues at most one frame. The arrows out of `IDLE` and `DONE` are the requester's moves. The bodies of the
commands in `RegisterAccess.lean`, `FieldGet.lean` and `FieldSet.lean` are written from the pseudocode of R125, R126, R160
and R170 instead; that the two agree is an obligation. -/

namespace Sys2Proof.Machine

/-- A phase that issues a frame: it goes on with what the frame delivered, or ends as R222 or R233 says. -/
def phaseFrame {α : Type} (step : ResultStep) (go : α → State → State) (x : Reply α × State) : Answer :=
  .next (afterFrame step go x)

/-- The static checks of phase `CHECK` on a decoded command (R225); the frames and the pseudo-instructions are not
decoded from a command word by R101. -/
def staticCheck (P : Params) : Instr → Option ResultKind
  | .rdReg addr => checkAddress addr
  | .wrReg addr _ => checkAddress addr
  | .get addr o w => checkGet addr o w
  | .set addr o w value => checkSet P addr o w value
  | .w1 _ _ => none
  | .w2 _ _ _ => none
  | .r1 _ => none
  | .getEnSbb0 => none
  | .setEnSbb0 _ => none
  | .getTvLdo => none
  | .setTvLdo _ => none

/-- Phase `CHECK`: decode `CMD` (R101), apply the checks in R225's order; for `WR_REG` set `NEW`. -/
def phaseCheck (cmd : CmdWord) (s : State) : State :=
  match decodeCore cmd with
  | .error _ => s.raise .invalidDescriptor .none
  | .ok i =>
    match staticCheck s.params i with
    | some kind => s.raise kind .none
    | none =>
      match opcodeOf (cmdOp cmd) with
      | .rdReg => s.enter .rdPtr
      | .get => s.enter .rdPtr
      | .set => s.enter .rdPtr
      | .wrReg => (s.latchNew (cmdValue cmd)).enter .wrFrame

/-- Phase `RD_PTR`: frame `W1(TARGET_DEV[i], CMD.addr)`. -/
def phaseRdPtr (cmd : CmdWord) (s : State) : Answer :=
  match opcodeOf (cmdOp cmd) with
  | .wrReg => .fault .phaseOffPath
  | .rdReg => phaseFrame .firstRead (fun _ s => s.enter .rdData) (frameW1 s.target (cmdAddr cmd) s)
  | .get => phaseFrame .firstRead (fun _ s => s.enter .rdData) (frameW1 s.target (cmdAddr cmd) s)
  | .set => phaseFrame .firstRead (fun _ s => s.enter .rdData) (frameW1 s.target (cmdAddr cmd) s)

/-- Phase `RD_DATA`: frame `R1(TARGET_DEV[i])`, the byte to `CUR`; then `DONE` for `RD_REG` and `GET`, `MERGE` for `SET`. -/
def phaseRdData (cmd : CmdWord) (s : State) : Answer :=
  match opcodeOf (cmdOp cmd) with
  | .wrReg => .fault .phaseOffPath
  | .rdReg => phaseFrame .firstRead (fun b s => (s.latchCur b).complete (okResult b)) (frameR1 s.target s)
  | .get =>
    if legalField (cmdO cmd).toNat (cmdWidth cmd) then
      phaseFrame .firstRead
        (fun b s => (s.latchCur b).complete (okResult (extract b (cmdO cmd).toNat (cmdWidth cmd))))
        (frameR1 s.target s)
    else .fault .illegalDatapath
  | .set => phaseFrame .firstRead (fun b s => (s.latchCur b).enter .merge) (frameR1 s.target s)

/-- Phase `MERGE`: `NEW <- INSERT(CUR, CMD.o, CMD.w, CMD.value)`, no bus traffic. -/
def phaseMerge (cmd : CmdWord) (c : Ctl) (s : State) : Answer :=
  match opcodeOf (cmdOp cmd) with
  | .rdReg => .fault .phaseOffPath
  | .wrReg => .fault .phaseOffPath
  | .get => .fault .phaseOffPath
  | .set =>
    match c.cur with
    | none => .fault .emptyLatch
    | some b =>
      if legalField (cmdO cmd).toNat (cmdWidth cmd) then
        .next ((s.latchNew (insertField b (cmdO cmd).toNat (cmdWidth cmd) (cmdValue cmd))).enter .wrFrame)
      else .fault .illegalDatapath

/-- Phase `WR_FRAME`: frame `W2(TARGET_DEV[i], CMD.addr, NEW)`; then `DONE` for `WR_REG`, `VF_PTR` for `SET`. -/
def phaseWrFrame (cmd : CmdWord) (c : Ctl) (s : State) : Answer :=
  match opcodeOf (cmdOp cmd) with
  | .rdReg => .fault .phaseOffPath
  | .get => .fault .phaseOffPath
  | .wrReg =>
    match c.new with
    | none => .fault .emptyLatch
    | some v => phaseFrame .write (fun _ s => s.complete (okResult 0x00)) (frameW2 s.target (cmdAddr cmd) v s)
  | .set =>
    match c.new with
    | none => .fault .emptyLatch
    | some v => phaseFrame .write (fun _ s => s.enter .vfPtr) (frameW2 s.target (cmdAddr cmd) v s)

/-- Phase `VF_PTR`: frame `W1(TARGET_DEV[i], CMD.addr)`. -/
def phaseVfPtr (cmd : CmdWord) (s : State) : Answer :=
  match opcodeOf (cmdOp cmd) with
  | .rdReg => .fault .phaseOffPath
  | .wrReg => .fault .phaseOffPath
  | .get => .fault .phaseOffPath
  | .set => phaseFrame .verifyRead (fun _ s => s.enter .vfData) (frameW1 s.target (cmdAddr cmd) s)

/-- Phase `VF_DATA`: frame `R1(TARGET_DEV[i])`, the byte to `RB`, the field compared with `CMD.value` (R175). -/
def phaseVfData (cmd : CmdWord) (s : State) : Answer :=
  match opcodeOf (cmdOp cmd) with
  | .rdReg => .fault .phaseOffPath
  | .wrReg => .fault .phaseOffPath
  | .get => .fault .phaseOffPath
  | .set =>
    if legalField (cmdO cmd).toNat (cmdWidth cmd) then
      phaseFrame .verifyRead
        (fun b s => (s.latchRb b).complete
          (verifyResult (extract b (cmdO cmd).toNat (cmdWidth cmd)) (cmdValue cmd)))
        (frameR1 s.target s)
    else .fault .illegalDatapath

/-- The step of a phase between `CHECK` and `VF_DATA`, with the command it works on. -/
def phaseWithCommand (p : Phase) (cmd : CmdWord) (c : Ctl) (s : State) : Answer :=
  match p with
  | .idle => .next s
  | .check => .next (phaseCheck cmd s)
  | .rdPtr => phaseRdPtr cmd s
  | .rdData => phaseRdData cmd s
  | .merge => phaseMerge cmd c s
  | .wrFrame => phaseWrFrame cmd c s
  | .vfPtr => phaseVfPtr cmd s
  | .vfData => phaseVfData cmd s
  | .done => .next s

/-- One step of the sequencer of the controller whose turn it is (R27). In `IDLE` and in `DONE` it has nothing to do until
its requester moves (R245); while a frame that never completes is outstanding it stays as it is (R74, R233). -/
def sequencerStep (s : State) : Answer :=
  match s.ctl? with
  | none => .refused .noController
  | some c =>
    if c.waiting || c.phase == .idle || c.phase == .done then .next s
    else
      match c.cmd with
      | none => .fault .emptyLatch
      | some cmd => phaseWithCommand c.phase cmd c s

/-- The requester presents a command word: accepted in `IDLE`, else not accepted (R26, R27, log 10). -/
def presentCommand (w : CmdWord) (s : State) : Answer :=
  match s.ctl? with
  | none => .refused .noController
  | some c => if !c.waiting && c.phase == .idle then .next (s.accept w) else .next s

/-- The requester takes the result in `DONE`; at any other time there is none to take (R27, log 10). -/
def takeResult (s : State) : Answer :=
  match s.ctl? with
  | none => .refused .noController
  | some c => if !c.waiting && c.phase == .done then .next s.release else .next s

/-- A whole command whose word is illegal: it completes with `INVALID_DESCRIPTOR` in `CHECK`, no frame (R100, R227). -/
def runIllegal (w : CmdWord) (s : State) : Answer := runCommand w (some .invalidDescriptor) id s

end Sys2Proof.Machine
end

