-- ==== Sys2Proof/Machine/Turns.lean ====
section
/-! DEFINITION. What each turn of the agenda does: fetching and decoding the instruction a `command` or a `frame` turn
carries and running it by `exec`, and the steps of the other agents. -/

namespace Sys2Proof.Machine

/-- The turn of a controller. -/
def State.turnOf (s : State) (i : Nat) : State := { s with cur := i }

/-- A requester's whole command: the decoded instruction runs, an illegal word completes with `INVALID_DESCRIPTOR`. -/
def runWord (w : CmdWord) (s : State) : Answer :=
  match decodeCommand w with
  | .ok i => exec i s
  | .error _ => runIllegal w s

/-- A bus transaction at the register file: one of the three frames runs, any other length is not admitted (R61). -/
def runTransaction (x : Transaction) (s : State) : Answer :=
  match decodeTransaction x with
  | .ok i => exec i s
  | .error _ => .refused .frameLength

/-- One turn. -/
def takeTurn (t : Turn) (s : State) : Answer :=
  match t with
  | .command i w => runWord w (s.turnOf i)
  | .present i w => presentCommand w (s.turnOf i)
  | .phase i => sequencerStep (s.turnOf i)
  | .take i => takeResult (s.turnOf i)
  | .frame x => runTransaction x s
  | .eventSet a bits => eventSet a bits s
  | .statusUpd a v => statusUpd a v s

/-- The turn that presents an instruction stored as `e`: a command word goes to the controller whose turn it is. -/
def turnFor (cur : Nat) : Encoding → Turn
  | .word w => .command cur w
  | .bus x => .frame x

/-- A controller made ready for a command, if it is not: as its requester finds it after waiting for the end of the
command before (log 25). -/
def Ctl.ready (c : Ctl) : Ctl := if c.accepts then c else Ctl.idle

end Sys2Proof.Machine
end

