-- ==== Sys2Proof/Machine/Step.lean ====
section
/-! DEFINITION. One step of the block: the next turn of the agenda is taken (R6, R78, R84). With no turn left nothing is
enabled and the state stays (R245). -/

namespace Sys2Proof.Machine

/-- One step. -/
def step (s : State) : Host.Outcome State Fault Refusal :=
  match s.agenda with
  | [] => .next s
  | t :: rest => takeTurn t { s with agenda := rest }

/-- The state with the instruction of a table word as the next turn, its controller ready for it (log 7, log 25). -/
def State.withFetchWord (s : State) (nbits w : Nat) : State :=
  { s with
    ctls := s.ctls.modify s.cur Ctl.ready
    agenda := turnFor s.cur (tableEncoding nbits w) :: s.agenda }

end Sys2Proof.Machine
end

