-- ==== Sys2Proof/Safety.lean ====
section
/-! DEFINITION. The terms in which claims speak of good states and good runs: which parameters are legal (R8, R39), which
latches a controller holds in which phase (R32), the invariant that rules out the conditions of R234, which turns the spec
admits, and the premise `SERIALIZED` of a run (R85), which a claim may name and the block does not enforce. -/

namespace Sys2Proof.Machine

/-- The parameters are ones R8 admits: the device address one of the two (R62), at least one controller, a valid field
table (R39). -/
def legalParams (P : Params) : Bool :=
  (P.devAddr == primaryDevAddr || P.devAddr == alternateDevAddr) && !P.targetDev.isEmpty && fieldTableValid P.fieldTable

/-- A command word is on its way: it spells a command and passed every static check of `CHECK` (R225). -/
def checksPassed (P : Params) (w : CmdWord) : Bool :=
  match decodeCore w with
  | .ok i => staticCheck P i == none
  | .error _ => false

/-- The command of a latch passed `CHECK` and has one of the operation codes listed. -/
def running (P : Params) (ops : List Opcode) (cmd : Option CmdWord) : Bool :=
  match cmd with
  | some w => checksPassed P w && ops.contains (opcodeOf (cmdOp w))
  | none => false

/-- A result that R221 lists: a step only with a transport failure, and then always; data only with `OK` and
`VERIFY_MISMATCH`. -/
def Result.listed (r : Result) : Bool :=
  (r.kind == .transportFailure) == (r.step != .none) &&
    (r.kind == .ok || r.kind == .verifyMismatch || r.data == 0x00)

/-- The byte to be written, as the command makes it: `WR_REG`'s value (R126), or for `SET` the field inserted into the byte
of the first read (R173). -/
def byteToWrite (w : CmdWord) (current : Option Byte) : Option Byte :=
  match opcodeOf (cmdOp w) with
  | .rdReg => none
  | .get => none
  | .wrReg => some (cmdValue w)
  | .set => current.map fun b => insertField b (cmdO w).toNat (cmdWidth w) (cmdValue w)

/-- `NEW` holds the byte the command makes of its operands and `CUR`. -/
def Ctl.newRight (c : Ctl) : Bool :=
  match c.cmd with
  | some w => c.new.isSome && c.new == byteToWrite w c.cur
  | none => false

/-- Which latches hold a value in which phase, and whose command may be in it (R27, R32): what the phases of a controller
rely on. Only a phase that issues a frame can have one outstanding. -/
def Ctl.consistent (P : Params) (c : Ctl) : Bool :=
  match c.phase with
  | .idle => c == Ctl.idle
  | .check => c.cmd.isSome && c.cur.isNone && c.new.isNone && c.rb.isNone && c.res.isNone && !c.waiting
  | .rdPtr => running P [.rdReg, .get, .set] c.cmd && c.cur.isNone && c.new.isNone && c.rb.isNone && c.res.isNone
  | .rdData => running P [.rdReg, .get, .set] c.cmd && c.cur.isNone && c.new.isNone && c.rb.isNone && c.res.isNone
  | .merge =>
    running P [.set] c.cmd && c.cur.isSome && c.new.isNone && c.rb.isNone && c.res.isNone && !c.waiting
  | .wrFrame =>
    ((running P [.wrReg] c.cmd && c.cur.isNone) || (running P [.set] c.cmd && c.cur.isSome)) && c.newRight &&
      c.rb.isNone && c.res.isNone
  | .vfPtr => running P [.set] c.cmd && c.cur.isSome && c.newRight && c.rb.isNone && c.res.isNone
  | .vfData => running P [.set] c.cmd && c.cur.isSome && c.newRight && c.rb.isNone && c.res.isNone
  | .done => c.cmd.isSome && c.res.any Result.listed && !c.waiting

/-- The invariant: the register list is canonical, the parameters are legal, there are `N_CTL` controllers (R8, R243), the
controller whose turn it is exists, and every controller is consistent. -/
structure State.Inv (s : State) : Prop where
  regsWf : Memory.wf s.regs
  paramsLegal : legalParams s.params = true
  controllers : s.ctls.length = s.params.targetDev.length
  curExists : s.cur < s.ctls.length
  consistent : ∀ c ∈ s.ctls, c.consistent s.params = true

/-- A turn of an agent that exists, with an input that the spec admits (R6, R61, R204, R205). -/
def Turn.admitted (n : Nat) : Turn → Bool
  | .command i _ => decide (i < n)
  | .present i _ => decide (i < n)
  | .phase i => decide (i < n)
  | .take i => decide (i < n)
  | .frame x =>
    match decodeTransaction x with
    | .ok _ => true
    | .error _ => false
  | .eventSet a _ => classOf a == some .rc
  | .statusUpd a _ => statusRegister a

/-- The controller a turn belongs to, if it is a requester's or a controller's. -/
def Turn.controller? : Turn → Option Nat
  | .command i _ => some i
  | .present i _ => some i
  | .phase i => some i
  | .take i => some i
  | .frame _ => none
  | .eventSet _ _ => none
  | .statusUpd _ _ => none

/-- A command is under way: from its acceptance, which leaves `IDLE`, until `DONE` (R85). -/
def Ctl.busy (c : Ctl) : Bool := c.phase != .idle && c.phase != .done

/-- The phases that issue a frame (R27). -/
def Phase.issuesFrame : Phase → Bool
  | .idle => false
  | .check => false
  | .rdPtr => true
  | .rdData => true
  | .merge => false
  | .wrFrame => true
  | .vfPtr => true
  | .vfData => true
  | .done => false

/-- Taking the turn issues a frame (R27, R60): a whole command that is accepted and passes its checks, a phase that issues
one and has none outstanding (R74), a bare frame. A step of the event source is none (R85). -/
def Turn.issuesFrame (s : State) : Turn → Bool
  | .command i w => (s.ctls[i]?.any Ctl.accepts) && checksPassed s.params w
  | .present _ _ => false
  | .phase i => s.ctls[i]?.any fun c => !c.waiting && c.phase.issuesFrame
  | .take _ => false
  | .frame _ => true
  | .eventSet _ _ => false
  | .statusUpd _ _ => false

/-- The next turn is no controller that issues a frame into another's command (R85). A bare frame is no controller's
(log 26). -/
def State.keepsLock (s : State) : Bool :=
  match s.agenda with
  | [] => true
  | t :: _ =>
    match t.controller? with
    | none => true
    | some i => !t.issuesFrame s || (List.range s.ctls.length).all fun j => j == i || !(s.ctls[j]?.any Ctl.busy)

/-- The premise `SERIALIZED` (R85) of a run of `n` steps: from the acceptance of a command until its `DONE` no other
controller issues a frame. Moves without a frame and the event source's steps are not excluded. -/
def Serialized : Nat → State → Prop
  | 0, _ => True
  | n + 1, s => s.keepsLock = true ∧ ∀ t, step s = .next t → Serialized n t

/-- A run of `n` steps, to the first stop: what `Host.Core.run` is for this machine. -/
def stepN : Nat → State → Answer
  | 0, s => .next s
  | n + 1, s =>
    match step s with
    | .next t => stepN n t
    | .fault r => .fault r
    | .refused r => .refused r

/-- The controller whose turn it is accepts a command, its handle names the register file's device address (R252), and the
outcomes fixed for the next frames begin with `n` successes: what a command needs to run to its end. -/
def State.Serves (s : State) (n : Nat) (rest : List BusDraw) : Prop :=
  (∃ c, s.ctl? = some c ∧ c.accepts = true) ∧ s.target = s.params.devAddr ∧ s.bus = List.replicate n .ok ++ rest

end Sys2Proof.Machine
end

