-- ==== Sys2Proof/Certificates/Slice0/Obligations.lean ====
section
/-! DEFINITION. The statements for the provers. First the few terms they share: the result states of the commands, written
out field by field from the rules, and the arrows of R27's table. Where a statement rests on a choice of the model's its
docstring names the log entry. -/

namespace Sys2Proof.Machine

/-- A controller in `DONE` with its latches and its result (R27, R31). -/
def Ctl.finished (w : CmdWord) (cur new rb : Option Byte) (r : Result) : Ctl :=
  { phase := .done, cmd := some w, cur := cur, new := new, rb := rb, res := some r, waiting := false }

/-- The state in which the controller whose turn it is has become `c`, and nothing else has changed. -/
def State.withCtl (s : State) (c : Ctl) : State := { s with ctls := s.ctls.set s.cur c }

/-- What the register file and the oracle are after a successful read access of register `a`: the read-clear effect applied
(R68), the pointer free (R67), `rest` of the fixed outcomes left. -/
def State.afterRead (s : State) (rest : List BusDraw) (a : Byte) : State :=
  { s with
    regs := Memory.write s.regs a.toNat (s.reg a &&& ~~~(readClearMask a))
    ptr := Config.freeByte s.draws
    bus := rest
    draws := s.draws + 1 }

/-- The byte a register holds after a bus write of `v` (R66). -/
def State.written (s : State) (a v : Byte) : Byte :=
  (s.reg a &&& ~~~(writeMask s.params a)) ||| (v &&& writeMask s.params a)

/-- The same after a successful write access (R65). -/
def State.afterWrite (s : State) (rest : List BusDraw) (a v : Byte) : State :=
  { s with
    regs := Memory.write s.regs a.toNat (s.written a v)
    ptr := Config.freeByte s.draws
    bus := rest
    draws := s.draws + 1 }

/-- The state after a `SET` whose five frames succeeded (R170, R187): three data bytes were transferred, so three pointer
values were drawn. -/
def State.afterSet (s : State) (rest : List BusDraw) (w : CmdWord) (a : Byte) (o wd : Nat) (v : Byte) : State :=
  let new := insertField (s.reg a) o wd v
  let rb := s.written a new
  { s with
    regs := Memory.write s.regs a.toNat rb
    ptr := Config.freeByte (s.draws + 2)
    bus := rest
    draws := s.draws + 3
    ctls := s.ctls.set s.cur
      (Ctl.finished w (some (s.reg a)) (some new) (some rb) (verifyResult (extract rb o wd) v)) }

/-- The register a command names. -/
def registerOf : Instr → Option Byte
  | .rdReg a => some a
  | .wrReg a _ => some a
  | .get a _ _ => some a
  | .set a _ _ _ => some a
  | .w1 _ _ => none
  | .w2 _ _ _ => none
  | .r1 _ => none
  | .getEnSbb0 => some 0x2A
  | .setEnSbb0 _ => some 0x2A
  | .getTvLdo => some 0x38
  | .setTvLdo _ => some 0x38

/-- A command that reads register `a` and nothing else: `RD_REG`, or `GET` of a legal field (R202: "every command that
reads"). -/
def readsOnly (a : Byte) (i : Instr) : Prop :=
  i = .rdReg a ∨ ∃ o w, legalField o w = true ∧ i = .get a o w

/-- The arrows of R27's table that are the sequencer's own, for a command's operation code. -/
def phaseArrow (c : Opcode) : Phase → Phase → Bool
  | .check, .done => true
  | .check, .rdPtr => c != .wrReg
  | .check, .wrFrame => c == .wrReg
  | .rdPtr, .rdData => c != .wrReg
  | .rdPtr, .done => c != .wrReg
  | .rdData, .merge => c == .set
  | .rdData, .done => c != .wrReg
  | .merge, .wrFrame => c == .set
  | .wrFrame, .vfPtr => c == .set
  | .wrFrame, .done => c == .wrReg || c == .set
  | .vfPtr, .vfData => c == .set
  | .vfPtr, .done => c == .set
  | .vfData, .done => c == .set
  | _, _ => false

/-- The `RW` registers (R36). -/
def readWriteRegisters : List Byte :=
  [0x06, 0x07, 0x10, 0x12, 0x18, 0x19, 0x1A, 0x1B, 0x1C, 0x1D, 0x1E, 0x1F, 0x20, 0x28, 0x29, 0x2A, 0x2B, 0x2C, 0x2D, 0x2E,
    0x38, 0x39, 0x40, 0x41, 0x42, 0x43, 0x44, 0x45, 0x46]

/-- The phases in which a `SET` issues its five frames, in order (R181); a read has the first two (R163). -/
def setFramePhases : List Phase := [.rdPtr, .rdData, .wrFrame, .vfPtr, .vfData]

/-- The same outcome, the command word of the controller whose turn it is left out. -/
def withoutCmd : Answer → Answer
  | .next s => .next (s.updCtl fun c => { c with cmd := none })
  | .fault r => .fault r
  | .refused r => .refused r

/-- The result of the controller whose turn it is, when it is in `DONE`. -/
def State.result? (s : State) : Option Result :=
  match s.ctl? with
  | some c => if c.phase = .done then c.res else none
  | none => none

end Sys2Proof.Machine

open Sys2Proof Sys2Proof.Machine

/-! ## Encodings -/

/-- Decode and encode agree on every well-formed instruction, with every operand at every value the encoding admits. The
decoder answers under the opcode table's name for the instruction (the model's choice, log 13), which has the same word and
stands for the same core command (R105). -/
def Obligations.DecodeOfEncodeIsTheInstruction : Prop :=
  ∀ i : Instr, i.wellFormed = true →
    decode (encode i) = .ok i.named ∧ encode i.named = encode i ∧ i.named.expand = i.expand

/-- R100: a word spells at most one command: what R101's decoder reads from a word is a well-formed command, and its
encoding is that very word. -/
def Obligations.EveryWordSpellsAtMostOneCommand : Prop :=
  ∀ (w : CmdWord) (i : Instr), decodeCore w = .ok i →
    i.wellFormed = true ∧ encode i = .word w ∧ i.expand = i

/-- R100 (a), (b), (c): the illegal words are those of the three clauses, the fields read off the word as a number (R90). -/
def Obligations.IllegalWordsAreThoseOfTheThreeClauses : Prop :=
  ∀ w : CmdWord,
    let op := w.toNat / 2 ^ 22
    let o := w.toNat / 2 ^ 19 % 8
    let wm1 := w.toNat / 2 ^ 16 % 8
    let value := w.toNat % 256
    (∃ r, decodeCore w = .error r) ↔
      ((op = 2 ∨ op = 3) ∧ 7 < o + wm1) ∨ ((op = 0 ∨ op = 1) ∧ (o ≠ 0 ∨ wm1 ≠ 7)) ∨ ((op = 0 ∨ op = 2) ∧ value ≠ 0)

/-- R93 to R96: the word of each command as a number, and the words of the pseudo-instructions (R105). -/
def Obligations.CommandWordsAsNumbers : Prop :=
  (∀ a : Byte, (encodeRdReg a).toNat = 0x070000 + a.toNat * 256) ∧
  (∀ a v : Byte, (encodeWrReg a v).toNat = 0x470000 + a.toNat * 256 + v.toNat) ∧
  (∀ (a : Byte) (o w : Nat), descriptorLegal o w = true →
    (encodeGet a o w).toNat = 0x800000 + o * 2 ^ 19 + (w - 1) * 2 ^ 16 + a.toNat * 256) ∧
  (∀ (a : Byte) (o w : Nat) (v : Byte), descriptorLegal o w = true →
    (encodeSet a o w v).toNat = 0xC00000 + o * 2 ^ 19 + (w - 1) * 2 ^ 16 + a.toNat * 256 + v.toNat) ∧
  encode .getEnSbb0 = .word 0x822A00 ∧ (∀ v : Byte, encode (.setEnSbb0 v) = .word (0xC22A00 ||| v.setWidth 24)) ∧
  encode .getTvLdo = .word 0x863800 ∧ (∀ v : Byte, encode (.setTvLdo v) = .word (0xC63800 ||| v.setWidth 24))

/-- Words of the spec's decode table (`95_test_vectors.md` 2.1), written out there field by field, decode to the
instructions it names; the all-zero and the all-one word are illegal (R100). The two with a fixed expansion decode
under the pseudo-instruction's name (log 13). -/
def Obligations.SpecWordsDecode : Prop :=
  decodeCommand 0x071100 = .ok (.rdReg 0x11) ∧ decodeCommand 0x4706FF = .ok (.wrReg 0x06 0xFF) ∧
  decodeCommand 0xB82A00 = .ok (.get 0x2A 7 1) ∧ decodeCommand 0xD21905 = .ok (.set 0x19 2 3 0x05) ∧
  decodeCommand 0x822A00 = .ok .getEnSbb0 ∧ decodeCommand 0xC638FF = .ok (.setTvLdo 0xFF) ∧
  decodeCommand 0x000000 = .error .notWholeByte ∧ decodeCommand 0xFFFFFF = .error .fieldLeavesByte ∧
  decodeCommand 0x822A01 = .error .valueNotZero

/-- R61, R102: a bus transaction is an instruction only as one of the three frames. -/
def Obligations.OnlyTheThreeFramesDecode : Prop :=
  ∀ (x : Transaction) (i : Instr), decodeTransaction x = .ok i ↔
    (∃ d p, x = .write d [p] ∧ i = .w1 d p) ∨ (∃ d p v, x = .write d [p, v] ∧ i = .w2 d p v) ∨
    (∃ d, x = .read d 1 ∧ i = .r1 d)

/-! ## The datapath -/

/-- R145: the table of the 36 legal descriptors, each row `w`, `o`, `m`, `FM`, `~FM`. -/
def Obligations.FieldMaskTable : Prop :=
  (∀ r ∈ ([(1, 0, 0x01, 0x01, 0xFE), (1, 1, 0x01, 0x02, 0xFD), (1, 2, 0x01, 0x04, 0xFB), (1, 3, 0x01, 0x08, 0xF7),
      (1, 4, 0x01, 0x10, 0xEF), (1, 5, 0x01, 0x20, 0xDF), (1, 6, 0x01, 0x40, 0xBF), (1, 7, 0x01, 0x80, 0x7F),
      (2, 0, 0x03, 0x03, 0xFC), (2, 1, 0x03, 0x06, 0xF9), (2, 2, 0x03, 0x0C, 0xF3), (2, 3, 0x03, 0x18, 0xE7),
      (2, 4, 0x03, 0x30, 0xCF), (2, 5, 0x03, 0x60, 0x9F), (2, 6, 0x03, 0xC0, 0x3F),
      (3, 0, 0x07, 0x07, 0xF8), (3, 1, 0x07, 0x0E, 0xF1), (3, 2, 0x07, 0x1C, 0xE3), (3, 3, 0x07, 0x38, 0xC7),
      (3, 4, 0x07, 0x70, 0x8F), (3, 5, 0x07, 0xE0, 0x1F),
      (4, 0, 0x0F, 0x0F, 0xF0), (4, 1, 0x0F, 0x1E, 0xE1), (4, 2, 0x0F, 0x3C, 0xC3), (4, 3, 0x0F, 0x78, 0x87),
      (4, 4, 0x0F, 0xF0, 0x0F),
      (5, 0, 0x1F, 0x1F, 0xE0), (5, 1, 0x1F, 0x3E, 0xC1), (5, 2, 0x1F, 0x7C, 0x83), (5, 3, 0x1F, 0xF8, 0x07),
      (6, 0, 0x3F, 0x3F, 0xC0), (6, 1, 0x3F, 0x7E, 0x81), (6, 2, 0x3F, 0xFC, 0x03),
      (7, 0, 0x7F, 0x7F, 0x80), (7, 1, 0x7F, 0xFE, 0x01), (8, 0, 0xFF, 0xFF, 0x00)] :
      List (Nat × Nat × Byte × Byte × Byte)),
    legalField r.2.1 r.1 = true ∧ maskGen r.1 = r.2.2.1 ∧ fieldMask r.2.1 r.1 = r.2.2.2.1 ∧
      ~~~(fieldMask r.2.1 r.1) = r.2.2.2.2) ∧
  ((List.range 9).flatMap fun w => (List.range 9).filter fun o => legalField o w).length = 36

/-- R148 -/
def Obligations.ExtractAfterInsert : Prop :=
  ∀ (b v : Byte) (o w : Nat), legalField o w = true →
    extract (insertField b o w v) o w = v &&& maskGen w ∧
    (v ≤ maskGen w → extract (insertField b o w v) o w = v)

/-- R149, with its last sentence: for overlapping descriptors it fails. -/
def Obligations.InsertPreservesOutsideTheField : Prop :=
  ∀ (o w : Nat), legalField o w = true →
    (∀ b v : Byte, insertField b o w v &&& ~~~(fieldMask o w) = b &&& ~~~(fieldMask o w)) ∧
    ∀ (o2 w2 : Nat), legalField o2 w2 = true →
      (fieldMask o2 w2 &&& fieldMask o w = 0 →
        ∀ b v : Byte, extract (insertField b o w v) o2 w2 = extract b o2 w2) ∧
      (fieldMask o2 w2 &&& fieldMask o w ≠ 0 →
        ∃ b v : Byte, extract (insertField b o w v) o2 w2 ≠ extract b o2 w2)

/-- R150 -/
def Obligations.InsertDependsOnTruncatedValue : Prop :=
  ∀ (b v : Byte) (o w : Nat), legalField o w = true →
    insertField b o w v = insertField b o w (v &&& maskGen w)

/-- R151 -/
def Obligations.InsertIdempotentAndLastWins : Prop :=
  ∀ (b v u : Byte) (o w : Nat), legalField o w = true →
    insertField (insertField b o w v) o w v = insertField b o w v ∧
    insertField (insertField b o w v) o w u = insertField b o w u ∧
    insertField b o w (extract b o w) = b

/-- R152, its law on inserts applied one after the other. -/
def Obligations.DisjointInsertsCommute : Prop :=
  ∀ (b v u : Byte) (o1 w1 o2 w2 : Nat), legalField o1 w1 = true → legalField o2 w2 = true →
    fieldMask o1 w1 &&& fieldMask o2 w2 = 0 →
    insertField (insertField b o1 w1 v) o2 w2 u = insertField (insertField b o2 w2 u) o1 w1 v

/-- R153 -/
def Obligations.ByteIsPreservedPartAndField : Prop :=
  ∀ (b : Byte) (o w : Nat), legalField o w = true →
    b = (b &&& ~~~(fieldMask o w)) ||| (extract b o w <<< o)

/-- R154 -/
def Obligations.InRangeMeansUnchangedByTheMask : Prop :=
  ∀ (v : Byte) (w : Nat), 1 ≤ w → w ≤ 8 →
    (inRange v w = true ↔ v ≤ maskGen w) ∧ (inRange v w = true ↔ v &&& maskGen w = v) ∧ (w = 8 → inRange v w = true)

/-! ## Frames at the register file -/

/-- R63: a frame with `d != DEV_ADDR` always fails and has no effect; only the reply is recorded. -/
def Obligations.FrameToAnotherDeviceFails : Prop :=
  ∀ (s : State) (d : DevAddr) (p v : Byte), d ≠ s.params.devAddr →
    exec (.w1 d p) s = .next { s with reply := some .fail } ∧
    exec (.w2 d p v) s = .next { s with reply := some .fail } ∧
    exec (.r1 d) s = .next { s with reply := some .fail }

/-- R64: `W1` that succeeds sets the pointer and changes nothing else of the block. -/
def Obligations.PointerFrameSetsPointer : Prop :=
  ∀ (s : State) (d : DevAddr) (p : Byte) (rest : List BusDraw), d = s.params.devAddr → s.bus = .ok :: rest →
    exec (.w1 d p) s = .next { s with ptr := p, bus := rest, reply := some (.ok none) }

/-- R65 with R66: `W2` that succeeds writes the register under its mask, or nothing at an unmapped address (R70), and
leaves the pointer free, that is at the model's opaque value (log 6), for every value of it. -/
def Obligations.WriteFrameWritesUnderTheMask : Prop :=
  ∀ (s : State) (d : DevAddr) (p v : Byte) (rest : List BusDraw), d = s.params.devAddr → s.bus = .ok :: rest →
    exec (.w2 d p v) s = .next
      { s with
        regs := if mapped p then Memory.write s.regs p.toNat (s.written p v) else s.regs
        ptr := Config.freeByte s.draws
        draws := s.draws + 1
        bus := rest
        reply := some (.ok none) }

/-- R67 with R68 and R70: `R1` that succeeds, at a mapped pointer, delivers the register and applies the read-clear effect;
at an unmapped pointer it delivers a free byte and changes no register; the pointer is then free. The free bytes are the
model's opaque values (log 6): this holds for every value of them. -/
def Obligations.ReadFrameDeliversAndClears : Prop :=
  ∀ (s : State) (d : DevAddr) (rest : List BusDraw), d = s.params.devAddr → s.bus = .ok :: rest →
    (mapped s.ptr = true → exec (.r1 d) s = .next
      { s with
        regs := Memory.write s.regs s.ptr.toNat (s.reg s.ptr &&& ~~~(readClearMask s.ptr))
        ptr := Config.freeByte s.draws
        draws := s.draws + 1
        bus := rest
        reply := some (.ok (some (s.reg s.ptr))) }) ∧
    (mapped s.ptr = false → exec (.r1 d) s = .next
      { s with
        ptr := Config.freeByte (s.draws + 1)
        draws := s.draws + 2
        bus := rest
        reply := some (.ok (some (Config.freeByte s.draws))) })

/-- R75: a frame to the register file whose outcome is `fail` or `never` had its effect applied in full or not at all: the
state is that of the same frame's success, or the state before, but for the reply. -/
def Obligations.UnsuccessfulFrameIsAllOrNothing : Prop :=
  ∀ (s t : State) (d : DevAddr) (p v : Byte) (rest : List BusDraw) (i : Instr), d = s.params.devAddr →
    (i = .w1 d p ∨ i = .w2 d p v ∨ i = .r1 d) → exec i { s with bus := .ok :: rest } = .next t →
    exec i { s with bus := .fail true :: rest } = .next { t with reply := some .fail } ∧
    exec i { s with bus := .fail false :: rest } = .next { s with bus := rest, reply := some .fail } ∧
    exec i { s with bus := .never true :: rest } = .next { t with reply := some .never } ∧
    exec i { s with bus := .never false :: rest } = .next { s with bus := rest, reply := some .never }

/-- Frame rule of the three frames (R64, R66, R68, R231), for every outcome: no controller and no parameter changes, and no
register but the one `W2` names or `PTR` names for `R1`; `W1` changes none; a write-protected register (R35, R37) is not
changed by `W2`, and a register that is not `RC` is not changed by `R1`. -/
def Obligations.FramesChangeOnlyTheAddressedRegister : Prop :=
  ∀ (s t : State) (d : DevAddr) (p v : Byte) (i : Instr), (i = .w1 d p ∨ i = .w2 d p v ∨ i = .r1 d) →
    exec i s = .next t →
    t.ctls = s.ctls ∧ t.params = s.params ∧ t.cur = s.cur ∧ t.agenda = s.agenda ∧
    (i = .w1 d p → t.regs = s.regs) ∧
    (i = .w2 d p v → ∀ a, a ≠ p ∨ classOf a ≠ some .rw → t.reg a = s.reg a) ∧
    (i = .r1 d → ∀ a, a ≠ s.ptr ∨ classOf a ≠ some .rc → t.reg a = s.reg a)

/-! ## Commands: what they do -/

/-- R125: `RD_REG` of any mapped register, both frames `ok`, returns its byte. -/
def Obligations.RdRegReturnsTheRegister : Prop :=
  ∀ (s : State) (a : Byte) (rest : List BusDraw), s.Serves 2 rest → mapped a = true →
    exec (.rdReg a) s = .next ((s.afterRead rest a).withCtl
      (Ctl.finished (encodeRdReg a) (some (s.reg a)) none none ⟨.ok, .none, s.reg a⟩))

/-- R126: `WR_REG` to a mapped register of any class, the frame `ok`, writes the writable bits and returns `OK` with data
0x00. -/
def Obligations.WrRegWritesTheRegister : Prop :=
  ∀ (s : State) (a v : Byte) (rest : List BusDraw), s.Serves 1 rest → mapped a = true →
    exec (.wrReg a v) s = .next ((s.afterWrite rest a v).withCtl
      (Ctl.finished (encodeWrReg a v) none (some v) none ⟨.ok, .none, 0x00⟩))

/-- R160: `GET` of any legal field of a mapped register of any class returns the field, right-aligned. -/
def Obligations.GetReturnsTheField : Prop :=
  ∀ (s : State) (a : Byte) (o w : Nat) (rest : List BusDraw), s.Serves 2 rest → mapped a = true →
    1 ≤ w → o + w ≤ 8 →
    exec (.get a o w) s = .next ((s.afterRead rest a).withCtl
      (Ctl.finished (encodeGet a o w) (some (s.reg a)) none none ⟨.ok, .none, (s.reg a >>> o) &&& maskGen w⟩))

/-- R170, R177, R178: `SET` of a legal field of an `RW` register, five frames `ok`, the value in range or the policy
`TRUNCATE`: the field is inserted, the whole byte written under the mask, and the result is `OK` exactly when the field
read back equals the requested value, else `VERIFY_MISMATCH`. -/
def Obligations.SetInsertsWritesAndVerifies : Prop :=
  ∀ (s : State) (a : Byte) (o w : Nat) (v : Byte) (rest : List BusDraw), s.Serves 5 rest →
    classOf a = some .rw → 1 ≤ w → o + w ≤ 8 → (s.params.rangePolicy = .truncate ∨ v ≤ maskGen w) →
    exec (.set a o w v) s = .next (s.afterSet rest (encodeSet a o w v) a o w v)

/-- R105, R161: `get_F` of a row of `FIELD_TABLE` is `GET` of its field, for every row whose position is known; the two
getters with a fixed expansion read theirs: `get_EN_SBB0` is bits 2 to 0 of 0x2A, `get_TV_LDO` bits 6 to 0 of 0x38. That
a row without a position, as R40 has for `ADE_SBB0`, has no getter in the model is the model's choice (log 20). -/
def Obligations.NamedGettersReturnTheirFields : Prop :=
  (∀ (f : FieldRow) (i : Instr), getterOf f = some i ↔
    ∃ o w, f.offset = some o ∧ f.width = some w ∧ i = .get f.addr o w) ∧
  ∀ (s : State) (rest : List BusDraw), s.Serves 2 rest →
    exec .getEnSbb0 s = .next ((s.afterRead rest 0x2A).withCtl
      (Ctl.finished 0x822A00 (some (s.reg 0x2A)) none none ⟨.ok, .none, s.reg 0x2A &&& 0x07⟩)) ∧
    exec .getTvLdo s = .next ((s.afterRead rest 0x38).withCtl
      (Ctl.finished 0x863800 (some (s.reg 0x38)) none none ⟨.ok, .none, s.reg 0x38 &&& 0x7F⟩))

/-- R105, R161, R180: `set_F` of a row of `FIELD_TABLE` is `SET` of its field, and exists exactly for a writable kind
on an `RW` register; in every state and for every outcome a pseudo-instruction, getter or setter, does what its
expansion does; and the two setters with a fixed expansion set their fields, a value out of range only under
`TRUNCATE`. That a writable row without a position, as R40 has for `ICHGIN_LIM` and `CHG_EN`, has no setter in the
model is the model's choice (log 20). -/
def Obligations.NamedSettersSetTheirFields : Prop :=
  (∀ (f : FieldRow) (v : Byte) (i : Instr), setterOf f v = some i ↔
    f.kind = some .rw ∧ classOf f.addr = some .rw ∧
      ∃ o w, f.offset = some o ∧ f.width = some w ∧ i = .set f.addr o w v) ∧
  (∀ (i : Instr) (s : State), exec i s = exec i.expand s) ∧
  ∀ (s : State) (v : Byte) (rest : List BusDraw), s.Serves 5 rest →
    (s.params.rangePolicy = .truncate ∨ v ≤ 0x07 →
      exec (.setEnSbb0 v) s = .next (s.afterSet rest (0xC22A00 ||| v.setWidth 24) 0x2A 0 3 v)) ∧
    (s.params.rangePolicy = .truncate ∨ v ≤ 0x7F →
      exec (.setTvLdo v) s = .next (s.afterSet rest (0xC63800 ||| v.setWidth 24) 0x38 0 7 v))

/-- R225, R224, R226, R227, R229: the mapped addresses are the 36 of R33, and the static checks in their order: a refused
command changes its controller and nothing else: no frame is issued, the register file and the pointer are untouched.
That a term with an illegal descriptor completes so, `CMD` holding its truncated word, is the model's choice (log 17). -/
def Obligations.StaticChecksRefuseInOrder : Prop :=
  (∀ a : Byte, mapped a = true ↔
    a ∈ [0x00, 0x01, 0x04] ∨ a ∈ [0x02, 0x03, 0x05, 0x11] ∨ a ∈ readWriteRegisters) ∧
  ∀ (s : State) (c : Ctl) (a : Byte) (o w : Nat) (v : Byte), s.ctl? = some c → c.accepts = true →
    let refusal := fun (word : CmdWord) (k : ResultKind) =>
      Host.Outcome.next (s.withCtl (Ctl.finished word none none none ⟨k, .none, 0x00⟩))
    (mapped a = false → exec (.rdReg a) s = refusal (encodeRdReg a) .unmappedAddress ∧
      exec (.wrReg a v) s = refusal (encodeWrReg a v) .unmappedAddress) ∧
    (¬ (1 ≤ w ∧ o + w ≤ 8) → exec (.get a o w) s = refusal (encodeGet a o w) .invalidDescriptor ∧
      exec (.set a o w v) s = refusal (encodeSet a o w v) .invalidDescriptor) ∧
    (1 ≤ w ∧ o + w ≤ 8 → mapped a = false → exec (.get a o w) s = refusal (encodeGet a o w) .unmappedAddress ∧
      exec (.set a o w v) s = refusal (encodeSet a o w v) .unmappedAddress) ∧
    (1 ≤ w ∧ o + w ≤ 8 → classOf a = some .ro ∨ classOf a = some .rc →
      exec (.set a o w v) s = refusal (encodeSet a o w v) .invalidAccess) ∧
    (1 ≤ w ∧ o + w ≤ 8 → classOf a = some .rw → s.params.rangePolicy = .reject → maskGen w < v →
      exec (.set a o w v) s = refusal (encodeSet a o w v) .invalidFieldValue)

/-- R100, R227: a command word that is illegal completes with `INVALID_DESCRIPTOR` and has no other effect. -/
def Obligations.IllegalWordCompletesWithInvalidDescriptor : Prop :=
  ∀ (s : State) (i : Nat) (c : Ctl) (w : CmdWord) (r : Reject) (rest : List Turn), s.ctls[i]? = some c →
    c.accepts = true → decodeCore w = .error r → s.agenda = .command i w :: rest →
    step s = .next { s with
      agenda := rest
      cur := i
      ctls := s.ctls.set i (Ctl.finished w none none none ⟨.invalidDescriptor, .none, 0x00⟩) }

/-- R176, R222, R127: the first failed frame ends the command with `TRANSPORT_FAILURE` and the step of its register
access; no later frame is issued (the outcomes after the failed frame's are all left), no byte of a failed read is
latched (`CUR` and `NEW` hold no value after a failed first read, `RB` none after any failure), and `data` is 0x00. `k`
successes come before the failure. -/
def Obligations.FirstFailedFrameEndsTheCommand : Prop :=
  ∀ (s : State) (a : Byte) (o w : Nat) (v : Byte) (k : Nat) (applied : Bool) (rest : List BusDraw),
    s.Serves k (.fail applied :: rest) → 1 ≤ w → o + w ≤ 8 →
    (mapped a = true → k < 2 → ∀ i, readsOnly a i → ∃ t c, exec i s = .next t ∧ t.bus = rest ∧ t.ctl? = some c ∧
      c.phase = .done ∧ c.cur = none ∧ c.new = none ∧ c.rb = none ∧
      c.res = some ⟨.transportFailure, .firstRead, 0x00⟩) ∧
    (mapped a = true → k = 0 → ∃ t c, exec (.wrReg a v) s = .next t ∧ t.bus = rest ∧ t.ctl? = some c ∧
      c.phase = .done ∧ c.cur = none ∧ c.rb = none ∧ c.res = some ⟨.transportFailure, .write, 0x00⟩) ∧
    (classOf a = some .rw → (s.params.rangePolicy = .truncate ∨ v ≤ maskGen w) → k < 5 →
      ∃ t c, exec (.set a o w v) s = .next t ∧ t.bus = rest ∧ t.ctl? = some c ∧ c.phase = .done ∧ c.rb = none ∧
        (k < 2 → c.cur = none ∧ c.new = none) ∧
        c.res = some ⟨.transportFailure,
          if k < 2 then .firstRead else if k = 2 then .write else .verifyRead, 0x00⟩)

/-- R128: a controller whose handle names another device address than the register file's: every command that reaches a
frame fails at its first frame, and the register file is untouched. -/
def Obligations.WrongDeviceHandleFailsEveryCommand : Prop :=
  ∀ (s : State) (c : Ctl) (a : Byte) (o w : Nat) (v : Byte), s.ctl? = some c → c.accepts = true →
    s.target ≠ s.params.devAddr → mapped a = true → 1 ≤ w → o + w ≤ 8 →
    exec (.rdReg a) s = .next (s.withCtl
      (Ctl.finished (encodeRdReg a) none none none ⟨.transportFailure, .firstRead, 0x00⟩)) ∧
    exec (.get a o w) s = .next (s.withCtl
      (Ctl.finished (encodeGet a o w) none none none ⟨.transportFailure, .firstRead, 0x00⟩)) ∧
    exec (.wrReg a v) s = .next (s.withCtl
      (Ctl.finished (encodeWrReg a v) none (some v) none ⟨.transportFailure, .write, 0x00⟩)) ∧
    (classOf a = some .rw → s.params.rangePolicy = .truncate ∨ v ≤ maskGen w →
      exec (.set a o w v) s = .next (s.withCtl
        (Ctl.finished (encodeSet a o w v) none none none ⟨.transportFailure, .firstRead, 0x00⟩)))

/-- R74, R233: a frame with outcome `never`, after `k` successes, leaves the controller in the phase that issued it,
for every command and every frame of it: no later frame is issued, no byte of it is latched, `RES` is not written; and
from then on no turn of the controller or its requester changes anything but whose turn it is. The flag `waiting` is
the model's form of "stays in its phase for ever" (log 11). -/
def Obligations.FrameThatNeverCompletesHoldsTheController : Prop :=
  (∀ (s : State) (a : Byte) (o w : Nat) (v : Byte) (k : Nat) (applied : Bool) (rest : List BusDraw),
    s.Serves k (.never applied :: rest) → 1 ≤ w → o + w ≤ 8 →
    (mapped a = true → k < 2 → ∀ i, readsOnly a i → ∃ t c, exec i s = .next t ∧ t.bus = rest ∧ t.ctl? = some c ∧
      c.waiting = true ∧ setFramePhases[k]? = some c.phase ∧ c.cur = none ∧ c.new = none ∧ c.rb = none ∧
      c.res = none) ∧
    (mapped a = true → k = 0 → ∃ t c, exec (.wrReg a v) s = .next t ∧ t.bus = rest ∧ t.ctl? = some c ∧
      c.waiting = true ∧ c.phase = .wrFrame ∧ c.cur = none ∧ c.rb = none ∧ c.res = none) ∧
    (classOf a = some .rw → (s.params.rangePolicy = .truncate ∨ v ≤ maskGen w) → k < 5 →
      ∃ t c, exec (.set a o w v) s = .next t ∧ t.bus = rest ∧ t.ctl? = some c ∧ c.waiting = true ∧
        setFramePhases[k]? = some c.phase ∧ c.rb = none ∧ (k < 2 → c.cur = none ∧ c.new = none) ∧ c.res = none)) ∧
  (∀ (s : State) (i : Nat) (c : Ctl) (t : Turn) (rest : List Turn), s.ctls[i]? = some c → c.waiting = true →
    t.controller? = some i → s.agenda = t :: rest → step s = .next { s with agenda := rest, cur := i })

/-- R26: a controller in the middle of a command accepts no other: nothing changes. That the turn is then spent is the
model's choice (log 10). -/
def Obligations.BusyControllerAcceptsNothing : Prop :=
  ∀ (s : State) (c : Ctl) (i : Instr), s.ctl? = some c → c.accepts = false → registerOf i ≠ none →
    exec i s = .next s

/-- R164: `GET addr, 0, 8` and `RD_REG addr` do the same in every state and with every bus outcome, but for the command
word. -/
def Obligations.WholeByteGetIsRdReg : Prop :=
  ∀ (s : State) (a : Byte), withoutCmd (exec (.get a 0 8) s) = withoutCmd (exec (.rdReg a) s)

/-! ## Commands: what they leave unchanged -/

/-- Frame rule of the commands and the pseudo-instructions, for every outcome of every frame: no register but the one named,
no other controller, no parameter, not the turns to come and not the reply to a bare frame. -/
def Obligations.CommandsChangeOnlyTheNamedRegister : Prop :=
  ∀ (s t : State) (i : Instr) (r : Byte), registerOf i = some r → exec i s = .next t →
    (∀ a, a ≠ r → t.reg a = s.reg a) ∧ (∀ j, j ≠ s.cur → t.ctls[j]? = s.ctls[j]?) ∧
    t.params = s.params ∧ t.cur = s.cur ∧ t.agenda = s.agenda ∧ t.reply = s.reply

/-- R163, R200: `RD_REG` and `GET`, of whatever register, change no register of class `RO` or `RW` and no other register
than the one they name; that one, if `RC`, they leave as it was or 0x00. For every outcome. -/
def Obligations.ReadsChangeOnlyReadClearRegisters : Prop :=
  ∀ (s t : State) (a : Byte) (i : Instr), readsOnly a i → exec i s = .next t →
    (∀ b, classOf b ≠ some .rc → t.reg b = s.reg b) ∧ (∀ b, b ≠ a → t.reg b = s.reg b) ∧
    (t.reg a = s.reg a ∨ t.reg a = 0x00)

/-- R208, R35: `WR_REG` to a read-clear register, 0x00, 0x01 or 0x04, or to a read-only one, 0x02, 0x03, 0x05 or 0x11,
is acknowledged and changes no register. The four are exactly those of class `RO` (R35). -/
def Obligations.WriteToProtectedRegisterIsIgnored : Prop :=
  (∀ a : Byte, classOf a = some .ro ↔ a = 0x02 ∨ a = 0x03 ∨ a = 0x05 ∨ a = 0x11) ∧
  ∀ (s : State) (a v : Byte) (rest : List BusDraw), s.Serves 1 rest →
    (a = 0x00 ∨ a = 0x01 ∨ a = 0x04) ∨ (a = 0x02 ∨ a = 0x03 ∨ a = 0x05 ∨ a = 0x11) →
    ∃ t, exec (.wrReg a v) s = .next t ∧ t.result? = some ⟨.ok, .none, 0x00⟩ ∧ ∀ b, t.reg b = s.reg b

/-- R185: `SET` leaves every bit outside its field as it was, and so every disjoint field, for every outcome and every
value. -/
def Obligations.SetPreservesOtherFields : Prop :=
  ∀ (s t : State) (a : Byte) (o w : Nat) (v : Byte), legalField o w = true → exec (.set a o w v) s = .next t →
    t.reg a &&& ~~~(fieldMask o w) = s.reg a &&& ~~~(fieldMask o w) ∧
    ∀ o2 w2, legalField o2 w2 = true → fieldMask o2 w2 &&& fieldMask o w = 0 →
      extract (t.reg a) o2 w2 = extract (s.reg a) o2 w2

/-- R187: what `SET` leaves in its register, by result, for every outcome of its frames. -/
def Obligations.SetLeavesOldOrNewByteByResult : Prop :=
  ∀ (s t : State) (c : Ctl) (a : Byte) (o w : Nat) (v : Byte) (r : Result), s.ctl? = some c → c.accepts = true →
    exec (.set a o w v) s = .next t → t.result? = some r →
    let new := s.written a (insertField (s.reg a) o w v)
    (r.kind ≠ .ok → r.kind ≠ .verifyMismatch → r.kind ≠ .transportFailure → t.reg a = s.reg a ∧ t.ptr = s.ptr) ∧
    (r.step = .firstRead → t.reg a = s.reg a) ∧
    (r.step = .write → t.reg a = s.reg a ∨ t.reg a = new) ∧
    (r.step = .verifyRead → t.reg a = new) ∧
    (r.kind = .verifyMismatch → t.reg a = new ∧ extract new o w ≠ v) ∧
    (r.kind = .ok → t.reg a = new ∧ extract new o w = v ∧ r.data = v)

/-- R188: no outcome of a `SET` changes a read-clear register. -/
def Obligations.SetNeverConsumesEvents : Prop :=
  ∀ (s t : State) (a b : Byte) (o w : Nat) (v : Byte), classOf b = some .rc →
    exec (.set a o w v) s = .next t → t.reg b = s.reg b

/-- R186: the round trip: a `SET` of an in-range value to a writable field returns `OK`, and the `GET` that follows, which
runs (its word is in `CMD`, and it takes the last two frame outcomes), returns the value. -/
def Obligations.SetThenGetReturnsTheValue : Prop :=
  ∀ (s : State) (a : Byte) (o w : Nat) (v : Byte) (rest : List BusDraw), s.Serves 7 rest →
    classOf a = some .rw → legalField o w = true → fieldMask o w &&& ~~~(writeMask s.params a) = 0 → v ≤ maskGen w →
    ∃ t u, exec (.set a o w v) s = .next t ∧ t.result? = some ⟨.ok, .none, v⟩ ∧
      t.bus = .ok :: .ok :: rest ∧ exec (.get a o w) t = .next u ∧ u.result? = some ⟨.ok, .none, v⟩ ∧ u.bus = rest ∧
      u.ctl?.bind Ctl.cmd = some (encodeGet a o w)

/-! ## Read-clear registers and the event source -/

/-- R202: the second of two successful reads of a read-clear register, 0x00, 0x01 or 0x04 (R201), with no event
between, returns 0x00, for every command that reads, in any mixture. -/
def Obligations.SecondReadOfReadClearIsZero : Prop :=
  ∀ (s : State) (a : Byte) (i j : Instr) (rest : List BusDraw), s.Serves 4 rest →
    (a = 0x00 ∨ a = 0x01 ∨ a = 0x04) → readsOnly a i → readsOnly a j →
    ∃ t u, exec i s = .next t ∧ t.reg a = 0x00 ∧ exec j t = .next u ∧ u.result? = some ⟨.ok, .none, 0x00⟩

/-- R204, R41: `EVENT_SET` ORs bits into a read-clear register, 0x00, 0x01 or 0x04, whatever any other register holds,
and changes nothing else. The three are exactly those of class `RC` (R201). -/
def Obligations.EventSetOrsBits : Prop :=
  (∀ a : Byte, classOf a = some .rc ↔ a = 0x00 ∨ a = 0x01 ∨ a = 0x04) ∧
  ∀ (s : State) (a bits : Byte) (rest : List Turn), s.agenda = .eventSet a bits :: rest →
    (a = 0x00 ∨ a = 0x01 ∨ a = 0x04) →
    step s = .next { s with
      agenda := rest
      regs := Memory.write s.regs a.toNat (s.reg a ||| (bits &&& eventMask s.params a)) }

/-- R205: `STATUS_UPD` replaces a status register, and changes nothing else. -/
def Obligations.StatusUpdReplacesTheByte : Prop :=
  ∀ (s : State) (a v : Byte) (rest : List Turn), s.agenda = .statusUpd a v :: rest →
    (a = 0x02 ∨ a = 0x03 ∨ a = 0x05) →
    step s = .next { s with agenda := rest, regs := Memory.write s.regs a.toNat v }

/-- R204: only `EVENT_SET` makes a bit of a read-clear register 1, whatever else steps. -/
def Obligations.OnlyEventSetRaisesEventBits : Prop :=
  ∀ (s t : State) (a : Byte) (j : Nat), step s = .next t → classOf a = some .rc →
    (s.reg a).getLsbD j = false → (t.reg a).getLsbD j = true →
    ∃ bits, s.agenda.head? = some (.eventSet a bits) ∧ bits.getLsbD j = true

/-- R205, R35: an `RO` register changes only on a turn `STATUS_UPD` of it, and then holds the byte of that turn; so no
step changes the Chip ID register 0x11, of which there is none. -/
def Obligations.ChipIdNeverChanges : Prop :=
  ∀ s t : State, step s = .next t →
    (∀ a : Byte, classOf a = some .ro → t.reg a ≠ s.reg a → s.agenda.head? = some (.statusUpd a (t.reg a))) ∧
    t.reg 0x11 = s.reg 0x11

/-- R36: an `RW` register, one of the 29, changes only by a bus write to it: a command that writes it, a controller in
`WR_FRAME`, or a bare write frame. -/
def Obligations.ConfigurationChangesOnlyByBusWrites : Prop :=
  (∀ a : Byte, classOf a = some .rw ↔ a ∈ readWriteRegisters) ∧
  ∀ (s t : State) (a : Byte), step s = .next t → classOf a = some .rw → t.reg a ≠ s.reg a →
    (∃ i w, s.agenda.head? = some (.command i w) ∧ cmdAddr w = a ∧
      (opcodeOf (cmdOp w) = .wrReg ∨ opcodeOf (cmdOp w) = .set)) ∨
    (∃ i c w, s.agenda.head? = some (.phase i) ∧ s.ctls[i]? = some c ∧ c.phase = .wrFrame ∧ c.cmd = some w ∧
      cmdAddr w = a) ∨
    (∃ d v, s.agenda.head? = some (.frame (.write d [a, v])))

/-! ## The machine -/

/-- A step runs the decoded instruction (R82, R101): the next turn's command word or bus transaction, on the
controller the turn names. The agenda of turns is the model's form of the schedule and of the requesters (log 7). -/
def Obligations.StepRunsTheDecodedInstruction : Prop :=
  (∀ (s : State) (k : Nat) (w : CmdWord) (rest : List Turn) (i : Instr), s.agenda = .command k w :: rest →
    decodeCommand w = .ok i → step s = exec i { s with agenda := rest, cur := k }) ∧
  (∀ (s : State) (x : Transaction) (rest : List Turn) (i : Instr), s.agenda = .frame x :: rest →
    decodeTransaction x = .ok i → step s = exec i { s with agenda := rest })

/-- R27 against R125, R126, R160, R170: taking a command phase by phase, no other agent between, is running it whole:
for every command word, legal or not, every state and every outcome of every frame. That a command has these two
granularities is the model's choice (log 8). -/
def Obligations.PhaseByPhaseIsTheWholeCommand : Prop :=
  ∀ (s : State) (i : Nat) (c : Ctl) (w : CmdWord) (rest : List Turn), s.ctls[i]? = some c → c.phase = .idle →
    c.waiting = false → s.agenda = .present i w :: (List.replicate 7 (.phase i) ++ rest) →
    stepN 8 s = step { s with agenda := .command i w :: rest }

/-- R27, every arrow of the table: a phase turn of a consistent controller moves it along one arrow for its command, or
leaves it in its phase (idle, done, or with a frame that never completes), leaves `CMD` as it is (R28), and uses up at
most one frame outcome; a word presented in `IDLE` is accepted, the other latches empty, and `CHECK` comes next; the result taken in `DONE`, the
controller is in `IDLE` and no latch holds a value (D4). A word presented or a take at any other time is a turn spent
(log 10). -/
def Obligations.PhaseTurnFollowsTheTable : Prop :=
  ∀ (s : State) (i : Nat) (c : Ctl) (rest : List Turn), s.ctls[i]? = some c → c.consistent s.params = true →
    (s.agenda = .phase i :: rest →
      ∃ t c', step s = .next t ∧ t.ctls[i]? = some c' ∧ c'.cmd = c.cmd ∧ (t.bus = s.bus ∨ t.bus = s.bus.tail) ∧
        (c'.phase = c.phase ∧ (c.phase = .idle ∨ c.phase = .done ∨ c'.waiting = true) ∨
          ∃ w, c.cmd = some w ∧ phaseArrow (opcodeOf (cmdOp w)) c.phase c'.phase = true)) ∧
    (∀ w, s.agenda = .present i w :: rest → step s = .next { s with
      agenda := rest
      cur := i
      ctls := if c.phase = .idle then s.ctls.set i
        { phase := .check, cmd := some w, cur := none, new := none, rb := none, res := none, waiting := false }
        else s.ctls }) ∧
    (s.agenda = .take i :: rest → step s = .next { s with
      agenda := rest
      cur := i
      ctls := if c.phase = .done then s.ctls.set i
        { phase := .idle, cmd := none, cur := none, new := none, rb := none, res := none, waiting := false }
        else s.ctls })

/-- R26, R231, R243: a turn of one controller changes no other; a turn of no controller changes none. -/
def Obligations.ControllersShareNoState : Prop :=
  ∀ (s t : State) (x : Turn) (rest : List Turn), s.agenda = x :: rest → step s = .next t →
    ∀ j, x.controller? ≠ some j → t.ctls[j]? = s.ctls[j]?

/-- R62, R82, R128, R252: no step changes a parameter: no device address, no handle, no mask, no policy. -/
def Obligations.ParametersNeverChange : Prop :=
  ∀ s t : State, step s = .next t → t.params = s.params

/-- R46 to R48, R250: what reset leaves, for every parameter value and every pointer value: each register at `RESET[a]`, each
of `N_CTL` controllers in `IDLE` with empty latches and no frame outstanding. -/
def Obligations.ResetLeavesTheResetValues : Prop :=
  ∀ (P : Params) (p : Byte), Memory.wf P.reset →
    (∀ a, (State.resetWith P p).reg a = Memory.read P.reset a.toNat) ∧ (State.resetWith P p).ptr = p ∧
    (State.resetWith P p).ctls = List.replicate P.targetDev.length
      { phase := .idle, cmd := none, cur := none, new := none, rb := none, res := none, waiting := false } ∧
    (State.resetWith P p).params = P

/-- The invariant holds after reset, for every legal parameters; in particular in `State.reset`. The register and
pointer values of the latter are the model's (log 1, log 2). -/
def Obligations.ResetMeetsTheInvariant : Prop :=
  (∀ (P : Params) (p : Byte), legalParams P = true → (State.resetWith P p).Inv) ∧ State.reset.Inv

/-- Every step keeps the invariant: the register list canonical and on mapped addresses only (R21), the parameters legal,
`N_CTL` controllers, each with exactly the latches its phase needs (R32), a command in flight that passed every static check
(R225), `NEW` the byte the command makes (R173), a result that R221 lists. -/
def Obligations.EveryStepKeepsTheInvariant : Prop :=
  ∀ s t : State, s.Inv → step s = .next t → t.Inv

/-- R234: no rule leads to a state with no meaning: from a state that meets the invariant no step ends in a fault, and
a step whose turn the spec admits answers a next state. Any other turn is refused (log 18). -/
def Obligations.NoFaultUnderTheInvariant : Prop :=
  ∀ s : State, s.Inv → (∀ r, step s ≠ .fault r) ∧
    (∀ x, s.agenda.head? = some x → x.admitted s.ctls.length = true → ∃ t, step s = .next t)

/-- R85, R185, R186: in a run that meets the premise `SERIALIZED`, with any number of controllers, whatever moves
without a frame they make and whatever the event source does between any two phases: a `SET` of an in-range value to a
writable field, its five frames `ok`, ends with `OK`, the field equal to the value and every other bit of the register
as it was. `turns` are all turns between the acceptance and the last phase, no bare frame among them, which is no
controller's (log 26). With one controller every run meets the premise. -/
def Obligations.SerializedSetSucceedsAmongEvents : Prop :=
  (∀ (s : State) (i : Nat) (c : Ctl) (a : Byte) (o w : Nat) (v : Byte) (turns rest : List Turn) (draws : List BusDraw),
    s.Inv → s.ctls[i]? = some c → c.phase = .idle →
    s.params.targetDev.getD i primaryDevAddr = s.params.devAddr → s.bus = List.replicate 5 .ok ++ draws →
    classOf a = some .rw → legalField o w = true → fieldMask o w &&& ~~~(writeMask s.params a) = 0 → v ≤ maskGen w →
    s.agenda = .present i (encodeSet a o w v) :: (turns ++ .phase i :: rest) →
    (∀ x ∈ turns, x.admitted s.ctls.length = true) → (∀ x, Turn.frame x ∉ turns) → turns.count (.phase i) = 6 →
    Serialized (turns.length + 2) s →
    ∃ t c', stepN (turns.length + 2) s = .next t ∧ t.ctls[i]? = some c' ∧ c'.phase = .done ∧
      c'.res = some ⟨.ok, .none, v⟩ ∧ extract (t.reg a) o w = v ∧
      t.reg a &&& ~~~(fieldMask o w) = s.reg a &&& ~~~(fieldMask o w)) ∧
  ∀ (s : State) (n : Nat), s.ctls.length = 1 → Serialized n s

/-! ## Results, and the hazards that the source asks to be demonstrated -/

/-- R220, R221, R97: the 13-bit words of the results. -/
def Obligations.ResultWords : Prop :=
  (∀ b : Byte, (okResult b).word = b.setWidth 13) ∧
  (∀ f v : Byte, f ≠ v → (verifyResult f v).word = 0x0400 ||| f.setWidth 13) ∧
  (errorResult .transportFailure .firstRead).word = 0x0900 ∧ (errorResult .transportFailure .write).word = 0x0A00 ∧
  (errorResult .transportFailure .verifyRead).word = 0x0B00 ∧ (errorResult .invalidFieldValue .none).word = 0x0C00 ∧
  (errorResult .invalidAccess .none).word = 0x1000 ∧ (errorResult .invalidDescriptor .none).word = 0x1400 ∧
  (errorResult .unmappedAddress .none).word = 0x1800

/-- R260, the lost update, for any two disjoint, fully writable fields of an `RW` register and any in-range values: controller
1 reads, controller 0 runs its whole `SET`, controller 1 goes on with its stale byte. Both return `OK`; the register ends as
if controller 0 had written nothing. -/
def Obligations.LostUpdateBetweenTwoSetters : Prop :=
  ∀ (s : State) (a : Byte) (o0 w0 o1 w1 : Nat) (v0 v1 : Byte) (rest : List BusDraw),
    s.ctls = [Ctl.idle, Ctl.idle] → s.params.targetDev = [s.params.devAddr, s.params.devAddr] →
    s.bus = List.replicate 10 .ok ++ rest → classOf a = some .rw → writeMask s.params a = 0xFF →
    legalField o0 w0 = true → legalField o1 w1 = true → fieldMask o0 w0 &&& fieldMask o1 w1 = 0 →
    v0 ≤ maskGen w0 → v1 ≤ maskGen w1 →
    s.agenda = [.present 1 (encodeSet a o1 w1 v1), .phase 1, .phase 1, .phase 1,
      .command 0 (encodeSet a o0 w0 v0), .phase 1, .phase 1, .phase 1, .phase 1] →
    ∃ t c0 c1, stepN 9 s = .next t ∧ t.ctls = [c0, c1] ∧
      c0.res = some ⟨.ok, .none, v0⟩ ∧ c1.res = some ⟨.ok, .none, v1⟩ ∧
      t.reg a = insertField (s.reg a) o1 w1 v1 ∧ extract (t.reg a) o0 w0 = extract (s.reg a) o0 w0

/-- R261, the false mismatch, for any two disjoint, fully writable fields of an `RW` register and any in-range values,
controller 0's other than its field's old value: the run of R260 with controller 1's write between controller 0's write
and its verify read. Controller 0 returns `VERIFY_MISMATCH` with its field's old value, controller 1 `OK`; the register
ends as if controller 0 had written nothing. The spec's numbers (0x19, `SET` 2, 3, 5 against `SET` 0, 1, 1) are an
instance. -/
def Obligations.FalseMismatchFromConcurrentWriter : Prop :=
  ∀ (s : State) (a : Byte) (o0 w0 o1 w1 : Nat) (v0 v1 : Byte) (rest : List BusDraw),
    s.ctls = [Ctl.idle, Ctl.idle] → s.params.targetDev = [s.params.devAddr, s.params.devAddr] →
    s.bus = List.replicate 10 .ok ++ rest → classOf a = some .rw → writeMask s.params a = 0xFF →
    legalField o0 w0 = true → legalField o1 w1 = true → fieldMask o0 w0 &&& fieldMask o1 w1 = 0 →
    v0 ≤ maskGen w0 → v1 ≤ maskGen w1 → extract (s.reg a) o0 w0 ≠ v0 →
    s.agenda = [.present 1 (encodeSet a o1 w1 v1), .phase 1, .phase 1, .phase 1,
      .present 0 (encodeSet a o0 w0 v0), .phase 0, .phase 0, .phase 0, .phase 0, .phase 0, .phase 1, .phase 1,
      .phase 0, .phase 0, .phase 1, .phase 1] →
    ∃ t c0 c1, stepN 16 s = .next t ∧ t.ctls = [c0, c1] ∧
      c0.res = some ⟨.verifyMismatch, .none, extract (s.reg a) o0 w0⟩ ∧ c1.res = some ⟨.ok, .none, v1⟩ ∧
      t.reg a = insertField (s.reg a) o1 w1 v1

/-- R266, pointer interleaving, for any two mapped registers: controller 1's pointer frame, to `b`, falls between the
two frames of controller 0's read of `a`, which returns the byte of `b` as that of `a`, with `OK`, and clears `b` if it
is read-clear, and no other register. Controller 1's read, whose pointer the first read left free, then returns `OK`
too. The spec's numbers (0x2A and 0x00) are an instance. -/
def Obligations.PointerInterleavingReadsTheWrongRegister : Prop :=
  ∀ (s : State) (a b : Byte) (rest : List BusDraw),
    s.ctls = [Ctl.idle, Ctl.idle] → s.params.targetDev = [s.params.devAddr, s.params.devAddr] →
    s.bus = List.replicate 4 .ok ++ rest → mapped a = true → mapped b = true →
    s.agenda = [.present 0 (encodeRdReg a), .phase 0, .phase 0, .present 1 (encodeRdReg b), .phase 1, .phase 1, .phase 0,
      .phase 1] →
    ∃ t u c0 c1 d, stepN 7 s = .next t ∧ t.reg b = (if classOf b = some .rc then 0x00 else s.reg b) ∧
      (∀ x, x ≠ b → t.reg x = s.reg x) ∧ step t = .next u ∧ u.ctls = [c0, c1] ∧
      c0.res = some ⟨.ok, .none, s.reg b⟩ ∧ c1.res = some ⟨.ok, .none, d⟩
end

