-- ==== Sys2Proof/Laws/Datapath.lean ====
section
/-! SUPPORT. The datapath bit by bit: which bits a mask has, where each bit of an extracted field and of a byte with a
field inserted comes from. Every law of R148 to R153 follows from these. -/

namespace Sys2Proof.Machine

theorem legalField_iff (o w : Nat) : legalField o w = true ↔ 1 ≤ w ∧ o + w ≤ 8 := by simp [legalField]

/-- `MASKGEN(w)` has the `w` lowest bits (R144). -/
theorem maskGen_bit {w : Nat} (hw : w ≤ 8) (j : Nat) : (maskGen w).getLsbD j = decide (j < w) := by
  by_cases hj : j < 8
  · have : ∀ w : Fin 9, ∀ j : Fin 8, (maskGen w).getLsbD j = decide (j.val < w.val) := by decide
    exact this ⟨w, by omega⟩ ⟨j, hj⟩
  · rw [BitVec.getLsbD_of_ge _ _ (by omega)]
    have : ¬ j < w := by omega
    simp [this]

/-- `FIELDMASK(o, w)` has the bits `o` to `o + w - 1` (R9, R145). -/
theorem fieldMask_bit {o w : Nat} (h : legalField o w = true) (j : Nat) :
    (fieldMask o w).getLsbD j = decide (o ≤ j ∧ j < o + w) := by
  obtain ⟨h1, h2⟩ := (legalField_iff o w).mp h
  rw [fieldMask, BitVec.getLsbD_shiftLeft, maskGen_bit (by omega)]
  by_cases ho : o ≤ j
  · by_cases hj : j < o + w
    · simp [ho, hj]; omega
    · simp [ho, hj]; omega
  · simp [ho]

/-- Bit `j` of an extracted field is bit `o + j` of the byte (R147). -/
theorem extract_bit {o w : Nat} (h : legalField o w = true) (b : Byte) (j : Nat) :
    (extract b o w).getLsbD j = (decide (j < w) && b.getLsbD (o + j)) := by
  obtain ⟨h1, h2⟩ := (legalField_iff o w).mp h
  rw [extract, BitVec.getLsbD_and, maskGen_bit (by omega), BitVec.getLsbD_ushiftRight, Bool.and_comm]

/-- Bit `j` of the placed value is bit `j - o` of the value, inside the field (R99, R146). -/
theorem placed_bit {o w : Nat} (h : legalField o w = true) (v : Byte) (j : Nat) :
    (placed o w v).getLsbD j = (decide (o ≤ j ∧ j < o + w) && v.getLsbD (j - o)) := by
  obtain ⟨h1, h2⟩ := (legalField_iff o w).mp h
  rw [placed, BitVec.getLsbD_shiftLeft, BitVec.getLsbD_and, maskGen_bit (by omega)]
  by_cases ho : o ≤ j
  · by_cases hj : j < o + w
    · have h8 : j < 8 := by omega
      have hw : j - o < w := by omega
      simp [ho, hj, h8, hw]
    · have hw : ¬ j - o < w := by omega
      simp [hj, hw]
  · have hlt : j < o := by omega
    simp [ho, hlt]

/-- Bit `j` of a byte with a field inserted: inside the field the value's, outside the byte's (R146). -/
theorem insertField_bit {o w : Nat} (h : legalField o w = true) (b v : Byte) (j : Nat) :
    (insertField b o w v).getLsbD j =
      if o ≤ j ∧ j < o + w then v.getLsbD (j - o) else b.getLsbD j := by
  obtain ⟨h1, h2⟩ := (legalField_iff o w).mp h
  rw [insertField, preserved, BitVec.getLsbD_or, BitVec.getLsbD_and, BitVec.getLsbD_not, fieldMask_bit h, placed_bit h]
  by_cases hj : o ≤ j ∧ j < o + w
  · simp [hj]
  · by_cases h8 : j < 8
    · simp [hj, h8]
    · have : b.getLsbD j = false := BitVec.getLsbD_of_ge _ _ (by omega)
      simp [hj, this]

/-- Two bytes with the same bits are the same byte. -/
theorem byte_ext {a b : Byte} (h : ∀ j, j < 8 → a.getLsbD j = b.getLsbD j) : a = b :=
  BitVec.eq_of_getLsbD_eq fun j hj => h j hj

end Sys2Proof.Machine
end

