-- ==== Sys2Proof/Laws/Decode.lean ====
section
/-! SUPPORT. The command word and its fields: each field read back from a word put together, every word put together from
its fields, and the value of the word as R90 gives it. -/

namespace Sys2Proof

theorem cmdWord_toNat (op : BitVec 2) (o wm1 : BitVec 3) (addr value : Byte) :
    (cmdWord op o wm1 addr value).toNat =
      op.toNat * 2 ^ 22 + o.toNat * 2 ^ 19 + wm1.toNat * 2 ^ 16 + addr.toNat * 2 ^ 8 + value.toNat := by
  have h1 := op.isLt
  have h2 := o.isLt
  have h3 := wm1.isLt
  have h4 := addr.isLt
  have h5 := value.isLt
  simp only [cmdWord, BitVec.toNat_append]
  rw [← Nat.shiftLeft_add_eq_or_of_lt h2, ← Nat.shiftLeft_add_eq_or_of_lt h3, ← Nat.shiftLeft_add_eq_or_of_lt h4,
    ← Nat.shiftLeft_add_eq_or_of_lt h5]
  simp only [Nat.shiftLeft_eq]
  omega

@[simp] theorem cmdOp_cmdWord (op : BitVec 2) (o wm1 : BitVec 3) (addr value : Byte) :
    cmdOp (cmdWord op o wm1 addr value) = op := by
  apply BitVec.eq_of_toNat_eq
  simp only [cmdOp, BitVec.extractLsb'_toNat, cmdWord_toNat, Nat.shiftRight_eq_div_pow]
  omega

@[simp] theorem cmdO_cmdWord (op : BitVec 2) (o wm1 : BitVec 3) (addr value : Byte) :
    cmdO (cmdWord op o wm1 addr value) = o := by
  apply BitVec.eq_of_toNat_eq
  simp only [cmdO, BitVec.extractLsb'_toNat, cmdWord_toNat, Nat.shiftRight_eq_div_pow]
  omega

@[simp] theorem cmdWm1_cmdWord (op : BitVec 2) (o wm1 : BitVec 3) (addr value : Byte) :
    cmdWm1 (cmdWord op o wm1 addr value) = wm1 := by
  apply BitVec.eq_of_toNat_eq
  simp only [cmdWm1, BitVec.extractLsb'_toNat, cmdWord_toNat, Nat.shiftRight_eq_div_pow]
  omega

@[simp] theorem cmdAddr_cmdWord (op : BitVec 2) (o wm1 : BitVec 3) (addr value : Byte) :
    cmdAddr (cmdWord op o wm1 addr value) = addr := by
  apply BitVec.eq_of_toNat_eq
  simp only [cmdAddr, BitVec.extractLsb'_toNat, cmdWord_toNat, Nat.shiftRight_eq_div_pow]
  omega

@[simp] theorem cmdValue_cmdWord (op : BitVec 2) (o wm1 : BitVec 3) (addr value : Byte) :
    cmdValue (cmdWord op o wm1 addr value) = value := by
  apply BitVec.eq_of_toNat_eq
  simp only [cmdValue, BitVec.extractLsb'_toNat, cmdWord_toNat, Nat.shiftRight_eq_div_pow]
  omega

/-- The width field of a word put together, as the width. -/
@[simp] theorem cmdWidth_cmdWord (op : BitVec 2) (o wm1 : BitVec 3) (addr value : Byte) :
    cmdWidth (cmdWord op o wm1 addr value) = wm1.toNat + 1 := by
  simp [cmdWidth]

/-- Every word is its five fields. -/
theorem cmdWord_fields (w : CmdWord) : cmdWord (cmdOp w) (cmdO w) (cmdWm1 w) (cmdAddr w) (cmdValue w) = w := by
  apply BitVec.eq_of_toNat_eq
  have := w.isLt
  simp only [cmdWord_toNat, cmdOp, cmdO, cmdWm1, cmdAddr, cmdValue, BitVec.extractLsb'_toNat,
    Nat.shiftRight_eq_div_pow]
  omega

@[simp] theorem opcodeOf_bits (c : Opcode) : opcodeOf c.bits = c := by cases c <;> decide

theorem bits_opcodeOf (b : BitVec 2) : (opcodeOf b).bits = b := by revert b; decide

theorem opcodeOf_eq_iff (b : BitVec 2) (c : Opcode) : opcodeOf b = c ↔ b = c.bits :=
  ⟨fun h => h ▸ (bits_opcodeOf b).symm, fun h => h ▸ opcodeOf_bits c⟩

/-- A legal descriptor's offset fits its three bits. -/
theorem descriptorLegal_offset {o w : Nat} (h : descriptorLegal o w = true) : (BitVec.ofNat 3 o).toNat = o := by
  simp [descriptorLegal, widthPositive, fieldInByte] at h ⊢
  omega

/-- A legal descriptor's width, stored minus one, fits its three bits (R91). -/
theorem descriptorLegal_width {o w : Nat} (h : descriptorLegal o w = true) :
    (BitVec.ofNat 3 (w - 1)).toNat + 1 = w := by
  simp [descriptorLegal, widthPositive, fieldInByte] at h ⊢
  omega

theorem descriptorLegal_iff (o w : Nat) : descriptorLegal o w = true ↔ 1 ≤ w ∧ o + w ≤ 8 := by
  simp [descriptorLegal, widthPositive, fieldInByte]

theorem decodeCore_encodeRdReg (addr : Byte) : decodeCore (encodeRdReg addr) = .ok (.rdReg addr) := by
  simp [decodeCore, encodeRdReg]

theorem decodeCore_encodeWrReg (addr value : Byte) :
    decodeCore (encodeWrReg addr value) = .ok (.wrReg addr value) := by
  simp [decodeCore, encodeWrReg]

theorem decodeCore_encodeGet (addr : Byte) {o w : Nat} (h : descriptorLegal o w = true) :
    decodeCore (encodeGet addr o w) = .ok (.get addr o w) := by
  have ho := descriptorLegal_offset h
  have hw := descriptorLegal_width h
  have hl := (descriptorLegal_iff o w).mp h
  simp only [decodeCore, encodeGet, cmdOp_cmdWord, opcodeOf_bits, cmdO_cmdWord, cmdWm1_cmdWord, cmdValue_cmdWord,
    cmdAddr_cmdWord, cmdWidth_cmdWord, ho, hw]
  rw [if_neg (by omega)]
  simp

theorem decodeCore_encodeSet (addr : Byte) {o w : Nat} (h : descriptorLegal o w = true) (value : Byte) :
    decodeCore (encodeSet addr o w value) = .ok (.set addr o w value) := by
  have ho := descriptorLegal_offset h
  have hw := descriptorLegal_width h
  have hl := (descriptorLegal_iff o w).mp h
  simp only [decodeCore, encodeSet, cmdOp_cmdWord, opcodeOf_bits, cmdO_cmdWord, cmdWm1_cmdWord, cmdValue_cmdWord,
    cmdAddr_cmdWord, cmdWidth_cmdWord, ho, hw]
  rw [if_neg (by omega)]

end Sys2Proof
end

