-- ==== Sys2Proof/Laws/Memory.lean ====
section
/-! SUPPORT. The register list: a read after a write, and the canonical form that every operation keeps. -/

namespace Sys2Proof.Machine

theorem Memory.read_nil (n : Nat) : Memory.read [] n = unlistedByte := rfl

theorem Memory.read_cons (c : Host.Cell) (m : List Host.Cell) (n : Nat) :
    Memory.read (c :: m) n = if c.1 = n then c.2 else Memory.read m n := by
  by_cases h : c.1 = n <;> simp [Memory.read, h]

theorem Memory.mem_erase {m : List Host.Cell} {n : Nat} {c : Host.Cell} :
    c ∈ Memory.erase m n ↔ c ∈ m ∧ c.1 ≠ n := by
  simp [Memory.erase]

theorem Memory.read_erase_same (m : List Host.Cell) (n : Nat) : Memory.read (Memory.erase m n) n = unlistedByte := by
  have h : (Memory.erase m n).find? (fun c => c.1 == n) = none := by
    simp [Memory.erase, List.find?_eq_none]
  simp [Memory.read, h]

theorem Memory.erase_cons (c : Host.Cell) (m : List Host.Cell) (n : Nat) :
    Memory.erase (c :: m) n = if c.1 = n then Memory.erase m n else c :: Memory.erase m n := by
  by_cases h : c.1 = n <;> simp [Memory.erase, h]

theorem Memory.read_erase_other (m : List Host.Cell) {n k : Nat} (h : k ≠ n) :
    Memory.read (Memory.erase m n) k = Memory.read m k := by
  induction m with
  | nil => rfl
  | cons c m ih =>
    rw [Memory.erase_cons]
    by_cases hc : c.1 = n
    · have : c.1 ≠ k := fun e => h (e.symm.trans hc)
      simp [hc, ih, Memory.read_cons, h.symm]
    · simp [hc, ih, Memory.read_cons]

theorem Memory.read_place (m : List Host.Cell) (n k : Nat) (v : Byte) (h : ∀ c ∈ m, c.1 ≠ n) :
    Memory.read (Memory.place n v m) k = if k = n then v else Memory.read m k := by
  induction m with
  | nil =>
    by_cases hk : k = n
    · simp [Memory.place, Memory.read_cons, hk]
    · simp [Memory.place, Memory.read_cons, hk, Ne.symm hk]
  | cons c m ih =>
    have hc : c.1 ≠ n := h c (by simp)
    have hm : ∀ x ∈ m, x.1 ≠ n := fun x hx => h x (by simp [hx])
    unfold Memory.place
    by_cases hlt : n < c.1
    · by_cases hk : k = n
      · simp [hlt, hk, Memory.read_cons]
      · simp [hlt, Memory.read_cons, hk, Ne.symm hk]
    · by_cases hk : k = n
      · subst hk; simp [hlt, Memory.read_cons, hc, ih hm]
      · simp [hlt, Memory.read_cons, hk, ih hm]

/-- A read after a write: the byte written at its address, every other address as before. No premise on the list. -/
theorem Memory.read_write (m : List Host.Cell) (n k : Nat) (v : Byte) :
    Memory.read (Memory.write m n v) k = if k = n then v else Memory.read m k := by
  unfold Memory.write
  by_cases hv : v = unlistedByte
  · by_cases hk : k = n
    · simp [hv, hk, Memory.read_erase_same]
    · simp [hv, hk, Memory.read_erase_other m hk]
  · have h : ∀ c ∈ Memory.erase m n, c.1 ≠ n := fun c hc => (Memory.mem_erase.mp hc).2
    by_cases hk : k = n
    · simp [hv, hk, Memory.read_place _ _ _ _ h]
    · simp [hv, hk, Memory.read_place _ _ _ _ h, Memory.read_erase_other m hk]

theorem Memory.mem_place {m : List Host.Cell} {n : Nat} {v : Byte} {c : Host.Cell} :
    c ∈ Memory.place n v m ↔ c = (n, v) ∨ c ∈ m := by
  induction m with
  | nil => simp [Memory.place]
  | cons d m ih =>
    unfold Memory.place
    by_cases h : n < d.1
    · simp [h]
    · simp [h, ih]
      tauto

theorem Memory.place_sorted {m : List Host.Cell} {n : Nat} {v : Byte}
    (hs : m.Pairwise fun x y => x.1 < y.1) (hn : ∀ c ∈ m, c.1 ≠ n) :
    (Memory.place n v m).Pairwise fun x y => x.1 < y.1 := by
  induction m with
  | nil => simp [Memory.place]
  | cons d m ih =>
    obtain ⟨hd, hm⟩ := List.pairwise_cons.mp hs
    have hdn : d.1 ≠ n := hn d (by simp)
    unfold Memory.place
    by_cases h : n < d.1
    · rw [if_pos h]
      refine List.pairwise_cons.mpr ⟨fun c hc => ?_, hs⟩
      rcases List.mem_cons.mp hc with rfl | hc
      · exact h
      · exact lt_trans h (hd c hc)
    · rw [if_neg h]
      refine List.pairwise_cons.mpr ⟨fun c hc => ?_, ih hm fun c hc => hn c (by simp [hc])⟩
      rcases Memory.mem_place.mp hc with rfl | hc
      · show d.1 < n
        omega
      · exact hd c hc

/-- The empty register list is canonical. -/
theorem Memory.wf_nil : Memory.wf [] := by simp [Memory.wf]

/-- A write to a mapped register keeps the canonical form. -/
theorem Memory.wf_write {m : List Host.Cell} (h : Memory.wf m) {a : Byte} (ha : mapped a = true) (v : Byte) :
    Memory.wf (Memory.write m a.toNat v) := by
  obtain ⟨hs, hc⟩ := h
  have hes : (Memory.erase m a.toNat).Pairwise fun x y => x.1 < y.1 := hs.filter _
  have hen : ∀ c ∈ Memory.erase m a.toNat, c.1 ≠ a.toNat := fun c h => (Memory.mem_erase.mp h).2
  have hec : ∀ c ∈ Memory.erase m a.toNat, c.1 < 256 ∧ mapped (BitVec.ofNat 8 c.1) = true ∧ c.2 ≠ unlistedByte :=
    fun c h => hc c (Memory.mem_erase.mp h).1
  unfold Memory.write
  by_cases hv : v = unlistedByte
  · rw [if_pos hv]
    exact ⟨hes, hec⟩
  · rw [if_neg hv]
    refine ⟨Memory.place_sorted hes hen, fun c h => ?_⟩
    rcases Memory.mem_place.mp h with rfl | h
    · exact ⟨a.isLt, by simpa using ha, hv⟩
    · exact hec c h

/-- A list of cells written over empty cells is canonical. -/
theorem Memory.wf_ofCells (cells : List Host.Cell) : Memory.wf (Memory.ofCells cells) := by
  suffices h : ∀ m, Memory.wf m → Memory.wf (cells.foldl
      (fun m c => if mapped (BitVec.ofNat 8 c.1) && c.1 < 256 then Memory.write m c.1 c.2 else m) m) from
    h [] Memory.wf_nil
  induction cells with
  | nil => exact fun m h => h
  | cons c cells ih =>
    intro m h
    refine ih _ ?_
    by_cases hc : mapped (BitVec.ofNat 8 c.1) = true ∧ c.1 < 256
    · have hn : (BitVec.ofNat 8 c.1).toNat = c.1 := by simp; omega
      have := Memory.wf_write h hc.1 c.2
      rw [hn] at this
      simpa [hc.1, hc.2] using this
    · simp only [Bool.and_eq_true, decide_eq_true_eq, hc, if_false]
      exact h

/-- Writing back what a cell of a canonical list reads as changes nothing. -/
theorem Memory.write_same {m : List Host.Cell} (h : Memory.wf m) (n : Nat) :
    Memory.write m n (Memory.read m n) = m := by
  obtain ⟨hs, hc⟩ := h
  induction m with
  | nil => simp [Memory.write, Memory.read_nil, Memory.erase]
  | cons d m ih =>
    obtain ⟨hd, hm⟩ := List.pairwise_cons.mp hs
    have ih := ih hm fun c h => hc c (by simp [h])
    by_cases hn : d.1 = n
    · have hdv : d.2 ≠ unlistedByte := (hc d (by simp)).2.2
      have he : Memory.erase m n = m := by
        refine List.filter_eq_self.mpr fun c h => ?_
        have := hd c h
        simp; omega
      have hp : Memory.place n d.2 m = d :: m := by
        obtain ⟨k, v⟩ := d
        subst hn
        cases m with
        | nil => rfl
        | cons e m => simp [Memory.place, hd e (by simp)]
      simp [Memory.write, Memory.read_cons, hn, hdv, Memory.erase_cons, he, hp]
    · rw [Memory.read_cons, if_neg hn]
      unfold Memory.write at ih ⊢
      rw [Memory.erase_cons, if_neg hn]
      by_cases hv : Memory.read m n = unlistedByte
      · rw [if_pos hv] at ih ⊢
        rw [ih]
      · rw [if_neg hv] at ih ⊢
        have hlt : ¬ n < d.1 := by
          intro hlt
          apply hv
          have : m.find? (fun c => c.1 == n) = none := by
            refine List.find?_eq_none.mpr fun c h => ?_
            have := hd c h
            simp; omega
          simp [Memory.read, this]
        unfold Memory.place
        rw [if_neg hlt, ih]

/-- The last of two writes to one cell wins. No premise on the list. -/
theorem Memory.write_write (m : List Host.Cell) (n : Nat) (u v : Byte) :
    Memory.write (Memory.write m n u) n v = Memory.write m n v := by
  have without : ∀ l : List Host.Cell, (∀ c ∈ l, c.1 ≠ n) → Memory.erase l n = l := fun l h =>
    List.filter_eq_self.mpr fun c hc => by simpa using h c hc
  have he : Memory.erase (Memory.write m n u) n = Memory.erase m n := by
    have h0 : ∀ c ∈ Memory.erase m n, c.1 ≠ n := fun c hc => (Memory.mem_erase.mp hc).2
    unfold Memory.write
    split_ifs
    · exact without _ h0
    · generalize Memory.erase m n = l at h0
      induction l with
      | nil => simp [Memory.place, Memory.erase]
      | cons d l ih =>
        have hd := h0 d (by simp)
        have ih := ih fun c hc => h0 c (by simp [hc])
        unfold Memory.place
        split_ifs with hlt
        · rw [Memory.erase_cons]
          simp [without _ h0]
        · rw [Memory.erase_cons, if_neg hd, ih]
  conv_lhs => rw [Memory.write, he]
  rfl

/-- `REG[b]` after `REG[a] <- v`. -/
@[simp] theorem State.setReg_reg (s : State) (a b v : Byte) :
    (s.setReg a v).reg b = if b = a then v else s.reg b := by
  have h : b.toNat = a.toNat ↔ b = a := ⟨BitVec.eq_of_toNat_eq, fun e => e ▸ rfl⟩
  simp [State.setReg, State.reg, Memory.read_write, h]

end Sys2Proof.Machine
end

