-- ==== Sys2Proof/Laws/State.lean ====
section
/-! SUPPORT. What each update of the state leaves as it was: one lemma per field per update, true by definition, so that no
later proof unfolds a record update. -/

namespace Sys2Proof.Machine

/-! `State.setReg` -/

@[simp] theorem State.setReg_regs (s : State) (a v : Byte) : (s.setReg a v).regs = Memory.write s.regs a.toNat v := rfl

@[simp] theorem State.setReg_ptr (s : State) (a v : Byte) : (s.setReg a v).ptr = s.ptr := rfl

@[simp] theorem State.setReg_ctls (s : State) (a v : Byte) : (s.setReg a v).ctls = s.ctls := rfl

@[simp] theorem State.setReg_params (s : State) (a v : Byte) : (s.setReg a v).params = s.params := rfl

@[simp] theorem State.setReg_bus (s : State) (a v : Byte) : (s.setReg a v).bus = s.bus := rfl

@[simp] theorem State.setReg_draws (s : State) (a v : Byte) : (s.setReg a v).draws = s.draws := rfl

@[simp] theorem State.setReg_cur (s : State) (a v : Byte) : (s.setReg a v).cur = s.cur := rfl

@[simp] theorem State.setReg_agenda (s : State) (a v : Byte) : (s.setReg a v).agenda = s.agenda := rfl

@[simp] theorem State.setReg_reply (s : State) (a v : Byte) : (s.setReg a v).reply = s.reply := rfl

/-! `State.setPtr` -/

@[simp] theorem State.setPtr_regs (s : State) (p : Byte) : (s.setPtr p).regs = s.regs := rfl

@[simp] theorem State.setPtr_ptr (s : State) (p : Byte) : (s.setPtr p).ptr = p := rfl

@[simp] theorem State.setPtr_ctls (s : State) (p : Byte) : (s.setPtr p).ctls = s.ctls := rfl

@[simp] theorem State.setPtr_params (s : State) (p : Byte) : (s.setPtr p).params = s.params := rfl

@[simp] theorem State.setPtr_bus (s : State) (p : Byte) : (s.setPtr p).bus = s.bus := rfl

@[simp] theorem State.setPtr_draws (s : State) (p : Byte) : (s.setPtr p).draws = s.draws := rfl

@[simp] theorem State.setPtr_cur (s : State) (p : Byte) : (s.setPtr p).cur = s.cur := rfl

@[simp] theorem State.setPtr_agenda (s : State) (p : Byte) : (s.setPtr p).agenda = s.agenda := rfl

@[simp] theorem State.setPtr_reply (s : State) (p : Byte) : (s.setPtr p).reply = s.reply := rfl

/-! `State.updCtl` -/

@[simp] theorem State.updCtl_regs (s : State) (f : Ctl → Ctl) : (s.updCtl f).regs = s.regs := rfl

@[simp] theorem State.updCtl_ptr (s : State) (f : Ctl → Ctl) : (s.updCtl f).ptr = s.ptr := rfl

@[simp] theorem State.updCtl_ctls (s : State) (f : Ctl → Ctl) : (s.updCtl f).ctls = s.ctls.modify s.cur f := rfl

@[simp] theorem State.updCtl_params (s : State) (f : Ctl → Ctl) : (s.updCtl f).params = s.params := rfl

@[simp] theorem State.updCtl_bus (s : State) (f : Ctl → Ctl) : (s.updCtl f).bus = s.bus := rfl

@[simp] theorem State.updCtl_draws (s : State) (f : Ctl → Ctl) : (s.updCtl f).draws = s.draws := rfl

@[simp] theorem State.updCtl_cur (s : State) (f : Ctl → Ctl) : (s.updCtl f).cur = s.cur := rfl

@[simp] theorem State.updCtl_agenda (s : State) (f : Ctl → Ctl) : (s.updCtl f).agenda = s.agenda := rfl

@[simp] theorem State.updCtl_reply (s : State) (f : Ctl → Ctl) : (s.updCtl f).reply = s.reply := rfl

/-! `State.turnOf` -/

@[simp] theorem State.turnOf_regs (s : State) (i : Nat) : (s.turnOf i).regs = s.regs := rfl

@[simp] theorem State.turnOf_ptr (s : State) (i : Nat) : (s.turnOf i).ptr = s.ptr := rfl

@[simp] theorem State.turnOf_ctls (s : State) (i : Nat) : (s.turnOf i).ctls = s.ctls := rfl

@[simp] theorem State.turnOf_params (s : State) (i : Nat) : (s.turnOf i).params = s.params := rfl

@[simp] theorem State.turnOf_bus (s : State) (i : Nat) : (s.turnOf i).bus = s.bus := rfl

@[simp] theorem State.turnOf_draws (s : State) (i : Nat) : (s.turnOf i).draws = s.draws := rfl

@[simp] theorem State.turnOf_cur (s : State) (i : Nat) : (s.turnOf i).cur = i := rfl

@[simp] theorem State.turnOf_agenda (s : State) (i : Nat) : (s.turnOf i).agenda = s.agenda := rfl

@[simp] theorem State.turnOf_reply (s : State) (i : Nat) : (s.turnOf i).reply = s.reply := rfl

/-! `State.enter` -/

@[simp] theorem State.enter_regs (s : State) (p : Phase) : (s.enter p).regs = s.regs := rfl

@[simp] theorem State.enter_ptr (s : State) (p : Phase) : (s.enter p).ptr = s.ptr := rfl

@[simp] theorem State.enter_params (s : State) (p : Phase) : (s.enter p).params = s.params := rfl

@[simp] theorem State.enter_bus (s : State) (p : Phase) : (s.enter p).bus = s.bus := rfl

@[simp] theorem State.enter_draws (s : State) (p : Phase) : (s.enter p).draws = s.draws := rfl

@[simp] theorem State.enter_cur (s : State) (p : Phase) : (s.enter p).cur = s.cur := rfl

@[simp] theorem State.enter_agenda (s : State) (p : Phase) : (s.enter p).agenda = s.agenda := rfl

@[simp] theorem State.enter_reply (s : State) (p : Phase) : (s.enter p).reply = s.reply := rfl

/-! `State.latchCur` -/

@[simp] theorem State.latchCur_regs (s : State) (b : Byte) : (s.latchCur b).regs = s.regs := rfl

@[simp] theorem State.latchCur_ptr (s : State) (b : Byte) : (s.latchCur b).ptr = s.ptr := rfl

@[simp] theorem State.latchCur_params (s : State) (b : Byte) : (s.latchCur b).params = s.params := rfl

@[simp] theorem State.latchCur_bus (s : State) (b : Byte) : (s.latchCur b).bus = s.bus := rfl

@[simp] theorem State.latchCur_draws (s : State) (b : Byte) : (s.latchCur b).draws = s.draws := rfl

@[simp] theorem State.latchCur_cur (s : State) (b : Byte) : (s.latchCur b).cur = s.cur := rfl

@[simp] theorem State.latchCur_agenda (s : State) (b : Byte) : (s.latchCur b).agenda = s.agenda := rfl

@[simp] theorem State.latchCur_reply (s : State) (b : Byte) : (s.latchCur b).reply = s.reply := rfl

/-! `State.latchNew` -/

@[simp] theorem State.latchNew_regs (s : State) (b : Byte) : (s.latchNew b).regs = s.regs := rfl

@[simp] theorem State.latchNew_ptr (s : State) (b : Byte) : (s.latchNew b).ptr = s.ptr := rfl

@[simp] theorem State.latchNew_params (s : State) (b : Byte) : (s.latchNew b).params = s.params := rfl

@[simp] theorem State.latchNew_bus (s : State) (b : Byte) : (s.latchNew b).bus = s.bus := rfl

@[simp] theorem State.latchNew_draws (s : State) (b : Byte) : (s.latchNew b).draws = s.draws := rfl

@[simp] theorem State.latchNew_cur (s : State) (b : Byte) : (s.latchNew b).cur = s.cur := rfl

@[simp] theorem State.latchNew_agenda (s : State) (b : Byte) : (s.latchNew b).agenda = s.agenda := rfl

@[simp] theorem State.latchNew_reply (s : State) (b : Byte) : (s.latchNew b).reply = s.reply := rfl

/-! `State.latchRb` -/

@[simp] theorem State.latchRb_regs (s : State) (b : Byte) : (s.latchRb b).regs = s.regs := rfl

@[simp] theorem State.latchRb_ptr (s : State) (b : Byte) : (s.latchRb b).ptr = s.ptr := rfl

@[simp] theorem State.latchRb_params (s : State) (b : Byte) : (s.latchRb b).params = s.params := rfl

@[simp] theorem State.latchRb_bus (s : State) (b : Byte) : (s.latchRb b).bus = s.bus := rfl

@[simp] theorem State.latchRb_draws (s : State) (b : Byte) : (s.latchRb b).draws = s.draws := rfl

@[simp] theorem State.latchRb_cur (s : State) (b : Byte) : (s.latchRb b).cur = s.cur := rfl

@[simp] theorem State.latchRb_agenda (s : State) (b : Byte) : (s.latchRb b).agenda = s.agenda := rfl

@[simp] theorem State.latchRb_reply (s : State) (b : Byte) : (s.latchRb b).reply = s.reply := rfl

/-! `State.complete` -/

@[simp] theorem State.complete_regs (s : State) (r : Result) : (s.complete r).regs = s.regs := rfl

@[simp] theorem State.complete_ptr (s : State) (r : Result) : (s.complete r).ptr = s.ptr := rfl

@[simp] theorem State.complete_params (s : State) (r : Result) : (s.complete r).params = s.params := rfl

@[simp] theorem State.complete_bus (s : State) (r : Result) : (s.complete r).bus = s.bus := rfl

@[simp] theorem State.complete_draws (s : State) (r : Result) : (s.complete r).draws = s.draws := rfl

@[simp] theorem State.complete_cur (s : State) (r : Result) : (s.complete r).cur = s.cur := rfl

@[simp] theorem State.complete_agenda (s : State) (r : Result) : (s.complete r).agenda = s.agenda := rfl

@[simp] theorem State.complete_reply (s : State) (r : Result) : (s.complete r).reply = s.reply := rfl

/-! `State.raise` -/

@[simp] theorem State.raise_regs (s : State) (k : ResultKind) (n : ResultStep) : (s.raise k n).regs = s.regs := rfl

@[simp] theorem State.raise_ptr (s : State) (k : ResultKind) (n : ResultStep) : (s.raise k n).ptr = s.ptr := rfl

@[simp] theorem State.raise_params (s : State) (k : ResultKind) (n : ResultStep) : (s.raise k n).params = s.params := rfl

@[simp] theorem State.raise_bus (s : State) (k : ResultKind) (n : ResultStep) : (s.raise k n).bus = s.bus := rfl

@[simp] theorem State.raise_draws (s : State) (k : ResultKind) (n : ResultStep) : (s.raise k n).draws = s.draws := rfl

@[simp] theorem State.raise_cur (s : State) (k : ResultKind) (n : ResultStep) : (s.raise k n).cur = s.cur := rfl

@[simp] theorem State.raise_agenda (s : State) (k : ResultKind) (n : ResultStep) : (s.raise k n).agenda = s.agenda := rfl

@[simp] theorem State.raise_reply (s : State) (k : ResultKind) (n : ResultStep) : (s.raise k n).reply = s.reply := rfl

/-! `State.hang` -/

@[simp] theorem State.hang_regs (s : State) : (s.hang).regs = s.regs := rfl

@[simp] theorem State.hang_ptr (s : State) : (s.hang).ptr = s.ptr := rfl

@[simp] theorem State.hang_params (s : State) : (s.hang).params = s.params := rfl

@[simp] theorem State.hang_bus (s : State) : (s.hang).bus = s.bus := rfl

@[simp] theorem State.hang_draws (s : State) : (s.hang).draws = s.draws := rfl

@[simp] theorem State.hang_cur (s : State) : (s.hang).cur = s.cur := rfl

@[simp] theorem State.hang_agenda (s : State) : (s.hang).agenda = s.agenda := rfl

@[simp] theorem State.hang_reply (s : State) : (s.hang).reply = s.reply := rfl

/-! `State.accept` -/

@[simp] theorem State.accept_regs (s : State) (w : CmdWord) : (s.accept w).regs = s.regs := rfl

@[simp] theorem State.accept_ptr (s : State) (w : CmdWord) : (s.accept w).ptr = s.ptr := rfl

@[simp] theorem State.accept_params (s : State) (w : CmdWord) : (s.accept w).params = s.params := rfl

@[simp] theorem State.accept_bus (s : State) (w : CmdWord) : (s.accept w).bus = s.bus := rfl

@[simp] theorem State.accept_draws (s : State) (w : CmdWord) : (s.accept w).draws = s.draws := rfl

@[simp] theorem State.accept_cur (s : State) (w : CmdWord) : (s.accept w).cur = s.cur := rfl

@[simp] theorem State.accept_agenda (s : State) (w : CmdWord) : (s.accept w).agenda = s.agenda := rfl

@[simp] theorem State.accept_reply (s : State) (w : CmdWord) : (s.accept w).reply = s.reply := rfl

/-! `State.release` -/

@[simp] theorem State.release_regs (s : State) : (s.release).regs = s.regs := rfl

@[simp] theorem State.release_ptr (s : State) : (s.release).ptr = s.ptr := rfl

@[simp] theorem State.release_params (s : State) : (s.release).params = s.params := rfl

@[simp] theorem State.release_bus (s : State) : (s.release).bus = s.bus := rfl

@[simp] theorem State.release_draws (s : State) : (s.release).draws = s.draws := rfl

@[simp] theorem State.release_cur (s : State) : (s.release).cur = s.cur := rfl

@[simp] theorem State.release_agenda (s : State) : (s.release).agenda = s.agenda := rfl

@[simp] theorem State.release_reply (s : State) : (s.release).reply = s.reply := rfl

/-! `freePtr` and `drawByte` -/

@[simp] theorem freePtr_regs (s : State) : (freePtr s).regs = s.regs := rfl

@[simp] theorem freePtr_ptr (s : State) : (freePtr s).ptr = Config.freeByte s.draws := rfl

@[simp] theorem freePtr_ctls (s : State) : (freePtr s).ctls = s.ctls := rfl

@[simp] theorem freePtr_params (s : State) : (freePtr s).params = s.params := rfl

@[simp] theorem freePtr_bus (s : State) : (freePtr s).bus = s.bus := rfl

@[simp] theorem freePtr_draws (s : State) : (freePtr s).draws = s.draws + 1 := rfl

@[simp] theorem freePtr_cur (s : State) : (freePtr s).cur = s.cur := rfl

@[simp] theorem freePtr_agenda (s : State) : (freePtr s).agenda = s.agenda := rfl

@[simp] theorem freePtr_reply (s : State) : (freePtr s).reply = s.reply := rfl

@[simp] theorem drawByte_fst (s : State) : (drawByte s).1 = Config.freeByte s.draws := rfl

@[simp] theorem drawByte_regs (s : State) : (drawByte s).2.regs = s.regs := rfl

@[simp] theorem drawByte_ptr (s : State) : (drawByte s).2.ptr = s.ptr := rfl

@[simp] theorem drawByte_ctls (s : State) : (drawByte s).2.ctls = s.ctls := rfl

@[simp] theorem drawByte_params (s : State) : (drawByte s).2.params = s.params := rfl

@[simp] theorem drawByte_bus (s : State) : (drawByte s).2.bus = s.bus := rfl

@[simp] theorem drawByte_draws (s : State) : (drawByte s).2.draws = s.draws + 1 := rfl

@[simp] theorem drawByte_cur (s : State) : (drawByte s).2.cur = s.cur := rfl

@[simp] theorem drawByte_agenda (s : State) : (drawByte s).2.agenda = s.agenda := rfl

@[simp] theorem drawByte_reply (s : State) : (drawByte s).2.reply = s.reply := rfl

/-! The controller whose turn it is -/

/-- `TARGET_DEV` depends on the parameters and the turn only. -/
@[simp] theorem State.updCtl_target (s : State) (f : Ctl → Ctl) : (s.updCtl f).target = s.target := rfl

@[simp] theorem State.setReg_target (s : State) (a v : Byte) : (s.setReg a v).target = s.target := rfl

@[simp] theorem State.setPtr_target (s : State) (p : Byte) : (s.setPtr p).target = s.target := rfl

@[simp] theorem State.enter_target (s : State) (p : Phase) : (s.enter p).target = s.target := rfl

@[simp] theorem State.latchCur_target (s : State) (b : Byte) : (s.latchCur b).target = s.target := rfl

@[simp] theorem State.latchNew_target (s : State) (b : Byte) : (s.latchNew b).target = s.target := rfl

@[simp] theorem State.accept_target (s : State) (w : CmdWord) : (s.accept w).target = s.target := rfl

@[simp] theorem freePtr_target (s : State) : (freePtr s).target = s.target := rfl

/-- An update of an element that is there is a replacement. -/
theorem ctls_modify {l : List Ctl} {i : Nat} {c : Ctl} (h : l[i]? = some c) (f : Ctl → Ctl) :
    l.modify i f = l.set i (f c) := by
  apply List.ext_getElem?
  intro j
  rw [List.getElem?_modify, List.getElem?_set]
  by_cases hj : i = j
  · subst hj
    obtain ⟨hl, rfl⟩ := List.getElem?_eq_some_iff.mp h
    simp [hl]
  · simp [hj]

/-- An update after a replacement is a replacement. -/
theorem ctls_set_modify (l : List Ctl) (i : Nat) (x : Ctl) (f : Ctl → Ctl) :
    (l.set i x).modify i f = l.set i (f x) := by
  apply List.ext_getElem?
  intro j
  rw [List.getElem?_modify, List.getElem?_set, List.getElem?_set]
  by_cases hj : i = j
  · subst hj
    by_cases hl : i < l.length <;> simp [hl]
  · simp [hj]

/-- An update of the controller whose turn it is, read back. -/
@[simp] theorem State.updCtl_ctl? (s : State) (f : Ctl → Ctl) : (s.updCtl f).ctl? = s.ctl?.map f := by
  simp [State.ctl?]

/-- Two updates of the same controller are one. -/
theorem State.updCtl_updCtl (s : State) (f g : Ctl → Ctl) : (s.updCtl f).updCtl g = s.updCtl (g ∘ f) := by
  simp [State.updCtl, List.modify_modify_eq]

@[simp] theorem State.setReg_ctl? (s : State) (a v : Byte) : (s.setReg a v).ctl? = s.ctl? := rfl

@[simp] theorem State.setPtr_ctl? (s : State) (p : Byte) : (s.setPtr p).ctl? = s.ctl? := rfl

@[simp] theorem freePtr_ctl? (s : State) : (freePtr s).ctl? = s.ctl? := rfl

@[simp] theorem State.enter_ctl? (s : State) (p : Phase) :
    (s.enter p).ctl? = s.ctl?.map fun c => { c with phase := p } := State.updCtl_ctl? s _

@[simp] theorem State.complete_ctl? (s : State) (r : Result) :
    (s.complete r).ctl? = s.ctl?.map fun c => { c with phase := .done, res := some r } := State.updCtl_ctl? s _

@[simp] theorem State.accept_ctl? (s : State) (w : CmdWord) :
    (s.accept w).ctl? = s.ctl?.map fun _ => { Ctl.idle with phase := .check, cmd := some w } := State.updCtl_ctl? s _

/-! `REG[a]` -/

@[simp] theorem State.updCtl_reg (s : State) (f : Ctl → Ctl) (a : Byte) : (s.updCtl f).reg a = s.reg a := rfl

@[simp] theorem State.setPtr_reg (s : State) (p a : Byte) : (s.setPtr p).reg a = s.reg a := rfl

@[simp] theorem freePtr_reg (s : State) (a : Byte) : (freePtr s).reg a = s.reg a := rfl

@[simp] theorem State.enter_reg (s : State) (p : Phase) (a : Byte) : (s.enter p).reg a = s.reg a := rfl

@[simp] theorem State.complete_reg (s : State) (r : Result) (a : Byte) : (s.complete r).reg a = s.reg a := rfl

@[simp] theorem State.accept_reg (s : State) (w : CmdWord) (a : Byte) : (s.accept w).reg a = s.reg a := rfl

end Sys2Proof.Machine
end

