-- ==== Sys2Proof/Laws/Ops.lean ====
section
/-! SUPPORT. What each shared operation can do, said once: the frames with the oracle, the register accesses of a command,
the running of a whole command. Later proofs cite these and do not unfold the operations. -/

namespace Sys2Proof.Machine

/-! Frames -/

/-- The oracle's outcome when one is fixed. -/
theorem drawOutcome_cons {s : State} {d : BusDraw} {rest : List BusDraw} (h : s.bus = d :: rest) :
    drawOutcome s = (d, { s with bus := rest }) := by
  simp [drawOutcome, h]

/-- A draw of an outcome changes the oracle's fields only. -/
theorem drawOutcome_keeps (s : State) : ∃ d bus draws, drawOutcome s = (d, { s with bus := bus, draws := draws }) := by
  unfold drawOutcome
  cases h : s.bus with
  | nil => exact ⟨Config.busDraw s.draws, [], s.draws + 1, by cases s; simp_all⟩
  | cons d rest => exact ⟨d, rest, s.draws, by simp⟩

/-- A frame to another device address fails and has no effect (R63). -/
theorem issue_otherDevice {α : Type} {d : DevAddr} {effect : State → α × State} {s : State}
    (h : d ≠ s.params.devAddr) : issue d effect s = (.fail, s) := by
  simp [issue, h]

/-- A frame to the register file whose outcome is fixed as `ok` (R74). -/
theorem issue_ok {α : Type} {d : DevAddr} {effect : State → α × State} {s : State} {rest : List BusDraw}
    (h : d = s.params.devAddr) (hb : s.bus = .ok :: rest) :
    issue d effect s = (.ok (effect { s with bus := rest }).1, (effect { s with bus := rest }).2) := by
  simp [issue, h, drawOutcome_cons hb]

/-- A frame to the register file whose outcome is fixed as `fail` (R74, R75). -/
theorem issue_fail {α : Type} {d : DevAddr} {effect : State → α × State} {s : State} {rest : List BusDraw}
    {applied : Bool} (h : d = s.params.devAddr) (hb : s.bus = .fail applied :: rest) :
    issue d effect s = (.fail, if applied then (effect { s with bus := rest }).2 else { s with bus := rest }) := by
  simp [issue, h, drawOutcome_cons hb]

/-- A frame to the register file whose outcome is fixed as `never` (R74, R75). -/
theorem issue_never {α : Type} {d : DevAddr} {effect : State → α × State} {s : State} {rest : List BusDraw}
    {applied : Bool} (h : d = s.params.devAddr) (hb : s.bus = .never applied :: rest) :
    issue d effect s = (.never, if applied then (effect { s with bus := rest }).2 else { s with bus := rest }) := by
  simp [issue, h, drawOutcome_cons hb]

/-- Everything a frame can do (R63, R74, R75): nothing and fail; or, after a draw that changes the oracle's fields only,
succeed with its effect, or fail or never complete with its effect or without it. -/
theorem issue_cases {α : Type} (d : DevAddr) (effect : State → α × State) (s : State) :
    (d ≠ s.params.devAddr ∧ issue d effect s = (.fail, s)) ∨
    (d = s.params.devAddr ∧ ∃ bus draws, ∃ t, t = { s with bus := bus, draws := draws } ∧
      (issue d effect s = (.ok (effect t).1, (effect t).2) ∨
       issue d effect s = (.fail, (effect t).2) ∨ issue d effect s = (.fail, t) ∨
       issue d effect s = (.never, (effect t).2) ∨ issue d effect s = (.never, t))) := by
  by_cases h : d = s.params.devAddr
  · obtain ⟨x, bus, draws, hx⟩ := drawOutcome_keeps s
    refine .inr ⟨h, bus, draws, _, rfl, ?_⟩
    cases x with
    | ok => exact .inl (by simp [issue, h, hx])
    | fail applied => cases applied <;> simp [issue, h, hx]
    | never applied => cases applied <;> simp [issue, h, hx]
  · exact .inl ⟨h, issue_otherDevice h⟩

/-- `R1` at a mapped pointer (R67, R68). -/
theorem effectR1_mapped {s : State} (h : mapped s.ptr = true) :
    effectR1 s = (s.reg s.ptr, freePtr (s.setReg s.ptr (s.reg s.ptr &&& ~~~(readClearMask s.ptr)))) := by
  simp [effectR1, regRead, h]

/-- `R1` at an unmapped pointer (R70): any byte, no register changed. -/
theorem effectR1_unmapped {s : State} (h : mapped s.ptr = false) :
    effectR1 s = (Config.freeByte s.draws, freePtr (drawByte s).2) := by
  simp [effectR1, regRead, h, drawByte]

/-- The register write at a mapped address (R66). -/
theorem regWrite_mapped {s : State} {p : Byte} (h : mapped p = true) (v : Byte) :
    regWrite p v s = s.setReg p ((s.reg p &&& ~~~(writeMask s.params p)) ||| (v &&& writeMask s.params p)) := by
  simp [regWrite, h]

/-- The register write at an unmapped address (R66, R70). -/
theorem regWrite_unmapped {s : State} {p : Byte} (h : mapped p = false) (v : Byte) : regWrite p v s = s := by
  simp [regWrite, h]

/-! Classes and masks -/

theorem mapped_of_classOf {a : Byte} {c : AccessClass} (h : classOf a = some c) : mapped a = true := by
  simp [mapped, h]

/-- Only an `RC` register is cleared by a read (R68, R200). -/
theorem readClearMask_of_ne_rc {a : Byte} (h : classOf a ≠ some .rc) : readClearMask a = 0x00 := by
  unfold readClearMask
  split <;> simp_all

/-- Only an `RW` register takes a write (R35, R37, R66). -/
theorem writeMask_of_ne_rw {P : Params} {a : Byte} (h : classOf a ≠ some .rw) : writeMask P a = 0x00 := by
  unfold writeMask
  split <;> simp_all

/-- Writing the bits that a write mask leaves nothing of changes nothing (R35, R37, R66). -/
theorem write_protected {P : Params} {a : Byte} (h : classOf a ≠ some .rw) (b v : Byte) :
    (b &&& ~~~(writeMask P a)) ||| (v &&& writeMask P a) = b := by
  rw [writeMask_of_ne_rw h, show ~~~(0x00 : Byte) = BitVec.allOnes 8 from rfl, BitVec.and_allOnes,
    show (0x00 : Byte) = 0#8 from rfl]
  simp

/-- A read of a register that is not `RC` clears nothing (R68). -/
theorem read_keeps {a : Byte} (h : classOf a ≠ some .rc) (b : Byte) : b &&& ~~~(readClearMask a) = b := by
  rw [readClearMask_of_ne_rc h, show ~~~(0x00 : Byte) = BitVec.allOnes 8 from rfl, BitVec.and_allOnes]

/-- A read of an `RC` register leaves 0x00 (R200). -/
theorem read_clears {a : Byte} (h : classOf a = some .rc) (b : Byte) : b &&& ~~~(readClearMask a) = 0x00 := by
  simp [readClearMask, h]

/-! Register accesses of a command -/

/-- A register read whose two frames succeed, at a mapped address (R123): the register's byte is delivered, the read-clear
effect applied, the pointer free. -/
theorem memRead_ok {pointer data : Phase} {step : ResultStep} {a : Byte} {go : Byte → State → State} {s : State}
    {rest : List BusDraw} (ht : s.target = s.params.devAddr) (ha : mapped a = true)
    (hb : s.bus = .ok :: .ok :: rest) :
    memRead pointer data step a go s =
      go (s.reg a)
        (freePtr ((({ s with bus := rest }.enter pointer).enter data).setPtr a |>.setReg a
          (s.reg a &&& ~~~(readClearMask a)))) := by
  have h1 : frameW1 (s.enter pointer).target a (s.enter pointer) =
      (.ok (), { s.enter pointer with bus := .ok :: rest }.setPtr a) :=
    issue_ok (s := s.enter pointer) (rest := .ok :: rest) ht hb
  let u : State := ({ s.enter pointer with bus := .ok :: rest }.setPtr a).enter data
  have h2 : frameR1 u.target u = (.ok (s.reg a),
      freePtr ({ u with bus := rest }.setReg a (s.reg a &&& ~~~(readClearMask a)))) := by
    rw [frameR1, issue_ok (s := u) (rest := rest) (show u.target = u.params.devAddr from ht) rfl, effectR1_mapped (by exact ha)]
    rfl
  unfold memRead
  simp only [h1, afterFrame]
  show afterFrame step go (frameR1 u.target u) = _
  rw [h2]
  rfl

/-- A register write whose frame succeeds (R124). -/
theorem memWrite_ok {a v : Byte} {go : State → State} {s : State} {rest : List BusDraw}
    (ht : s.target = s.params.devAddr) (hb : s.bus = .ok :: rest) :
    memWrite a v go s = go (freePtr (regWrite a v (({ s with bus := rest }.enter .wrFrame).setPtr a))) := by
  have h1 : frameW2 (s.enter .wrFrame).target a v (s.enter .wrFrame) =
      (.ok (), freePtr (regWrite a v ({ s.enter .wrFrame with bus := rest }.setPtr a))) :=
    issue_ok (s := s.enter .wrFrame) (rest := rest) ht hb
  unfold memWrite
  simp only [h1, afterFrame]
  rfl

/-- The premises under which a property of states survives what a register access does besides its data byte: the phase
(not to `DONE`), the oracle's fields and the pointer change. -/
structure Transient (P : State → Prop) : Prop where
  enter : ∀ s p, p ≠ .done → P s → P (s.enter p)
  oracle : ∀ s bus draws, P s → P { s with bus := bus, draws := draws }
  setPtr : ∀ s p, P s → P (s.setPtr p)

theorem Transient.freePtr {P : State → Prop} (h : Transient P) {s : State} (hs : P s) : P (Machine.freePtr s) :=
  h.setPtr _ _ (h.oracle s s.bus (s.draws + 1) hs)

/-- Everything a register read of a mapped address can do (R123, R74, R75, R222, R233): with a property `P` that what
happens on the way keeps, it fails in a state with `P`, or hangs in one, or goes on from one with the byte `REG[a]`, the
read-clear effect applied and the pointer free. A failed or hung `R1` may have applied its effect too. -/
theorem memRead_outcomes {P Q : State → Prop} {pointer data : Phase} {step : ResultStep} {a : Byte}
    {go : Byte → State → State} {s : State} (hs : P s) (hP : Transient P) (ha : mapped a = true)
    (hp : pointer ≠ .done) (hd : data ≠ .done)
    (hclear : ∀ s, P s → P (s.setReg a (s.reg a &&& ~~~(readClearMask a))))
    (hfail : ∀ s, P s → Q (s.raise .transportFailure step)) (hhang : ∀ s, P s → Q s.hang)
    (hgo : ∀ s, P s → Q (go (s.reg a) (Machine.freePtr (s.setReg a (s.reg a &&& ~~~(readClearMask a)))))) :
    Q (memRead pointer data step a go s) := by
  have h0 : P (s.enter pointer) := hP.enter _ _ hp hs
  have second : ∀ u : State, P u → u.ptr = a → Q (afterFrame step go (frameR1 u.target u)) := by
    intro u hu hp
    have hx : ∀ bus draws, P { u with bus := bus, draws := draws } := fun b n => hP.oracle _ b n hu
    have he : ∀ bus draws, effectR1 { u with bus := bus, draws := draws } =
        (u.reg a, freePtr (({ u with bus := bus, draws := draws } : State).setReg a
          (u.reg a &&& ~~~(readClearMask a)))) := by
      intro b n
      subst hp
      exact effectR1_mapped (s := { u with bus := b, draws := n }) ha
    have hc : ∀ bus draws, P (effectR1 { u with bus := bus, draws := draws }).2 := by
      intro b n
      rw [he]
      exact hP.freePtr (hclear _ (hx b n))
    rcases issue_cases u.target effectR1 u with ⟨_, h⟩ | ⟨_, b, n, t, rfl, h | h | h | h | h⟩ <;>
      rw [frameR1, h] <;> simp only [afterFrame]
    · exact hfail _ hu
    · rw [he]
      exact hgo _ (hx b n)
    · exact hfail _ (hc b n)
    · exact hfail _ (hx b n)
    · exact hhang _ (hc b n)
    · exact hhang _ (hx b n)
  unfold memRead
  have hx : ∀ bus draws, P { s.enter pointer with bus := bus, draws := draws } := fun b n => hP.oracle _ b n h0
  rcases issue_cases (s.enter pointer).target (effectW1 a) (s.enter pointer) with
    ⟨_, h⟩ | ⟨_, b, n, t, rfl, h | h | h | h | h⟩ <;> simp only [frameW1, h, afterFrame, effectW1]
  · exact hfail _ h0
  · exact second _ (hP.enter _ _ hd (hP.setPtr _ _ (hx b n))) rfl
  · exact hfail _ (hP.setPtr _ _ (hx b n))
  · exact hfail _ (hx b n)
  · exact hhang _ (hP.setPtr _ _ (hx b n))
  · exact hhang _ (hx b n)

/-- Everything a register write to a mapped address can do (R124, R66, R75, R222, R233). -/
theorem memWrite_outcomes {P Q : State → Prop} {a v : Byte} {go : State → State} {s : State} (hs : P s)
    (hP : Transient P) (ha : mapped a = true)
    (hfail : ∀ s, P s → Q (s.raise .transportFailure .write)) (hhang : ∀ s, P s → Q s.hang)
    (hfail' : ∀ s, P s → Q ((Machine.freePtr (s.setReg a
      ((s.reg a &&& ~~~(writeMask s.params a)) ||| (v &&& writeMask s.params a)))).raise .transportFailure .write))
    (hhang' : ∀ s, P s → Q (Machine.freePtr (s.setReg a
      ((s.reg a &&& ~~~(writeMask s.params a)) ||| (v &&& writeMask s.params a)))).hang)
    (hgo : ∀ s, P s → Q (go (Machine.freePtr (s.setReg a
      ((s.reg a &&& ~~~(writeMask s.params a)) ||| (v &&& writeMask s.params a)))))) :
    Q (memWrite a v go s) := by
  have h0 : P (s.enter .wrFrame) := hP.enter _ _ (by decide) hs
  have hx : ∀ bus draws, P { s.enter .wrFrame with bus := bus, draws := draws } := fun b n => hP.oracle _ b n h0
  unfold memWrite
  rcases issue_cases (s.enter .wrFrame).target (effectW2 a v) (s.enter .wrFrame) with
    ⟨_, h⟩ | ⟨_, b, n, t, rfl, h | h | h | h | h⟩ <;>
    simp only [frameW2, h, afterFrame, effectW2, regWrite_mapped ha]
  · exact hfail _ h0
  · exact hgo _ (hP.setPtr _ a (hx b n))
  · exact hfail' _ (hP.setPtr _ a (hx b n))
  · exact hfail _ (hx b n)
  · exact hhang' _ (hP.setPtr _ a (hx b n))
  · exact hhang _ (hx b n)

/-- A whole command on a controller that accepts it (R26). -/
theorem runCommand_accepts {w : CmdWord} {failed : Option ResultKind} {body : State → State} {s : State} {c : Ctl}
    (hc : s.ctl? = some c) (ha : c.accepts = true) :
    runCommand w failed body s =
      .next (match failed with
        | some kind => (s.accept w).raise kind .none
        | none => body (s.accept w)) := by
  cases failed <;> simp [runCommand, hc, ha]

/-- A whole command on a controller that is not ready: nothing happens (R26). -/
theorem runCommand_busy {w : CmdWord} {failed : Option ResultKind} {body : State → State} {s : State} {c : Ctl}
    (hc : s.ctl? = some c) (ha : c.accepts = false) : runCommand w failed body s = .next s := by
  simp [runCommand, hc, ha]

/-- Everything a whole command can do. -/
theorem runCommand_cases (w : CmdWord) (failed : Option ResultKind) (body : State → State) (s : State) :
    (s.ctl? = none ∧ runCommand w failed body s = .refused .noController) ∨
    (∃ c, s.ctl? = some c ∧ c.accepts = false ∧ runCommand w failed body s = .next s) ∨
    (∃ c, s.ctl? = some c ∧ c.accepts = true ∧
      ((∃ kind, failed = some kind ∧ runCommand w failed body s = .next ((s.accept w).raise kind .none)) ∨
       (failed = none ∧ runCommand w failed body s = .next (body (s.accept w))))) := by
  cases hc : s.ctl? with
  | none => exact .inl ⟨rfl, by simp [runCommand, hc]⟩
  | some c =>
    cases ha : c.accepts with
    | false => exact .inr (.inl ⟨c, rfl, ha, runCommand_busy hc ha⟩)
    | true =>
      refine .inr (.inr ⟨c, rfl, ha, ?_⟩)
      cases failed with
      | some kind => exact .inl ⟨kind, rfl, runCommand_accepts hc ha⟩
      | none => exact .inr ⟨rfl, runCommand_accepts hc ha⟩

end Sys2Proof.Machine
end

