-- ==== Sys2Proof/Laws/PerInstr.lean ====
section
/-! SUPPORT. The per-instruction family `DecodeEncode`: what decoding the stored form of a well-formed instruction gives. -/

namespace Sys2Proof.Laws

/-- Decoding the encoding of a well-formed instruction gives the instruction, under the opcode table's name for it. -/
def DecodeEncode.Statement (i : Instr) : Prop := i.wellFormed = true → decode (encode i) = .ok i.named

theorem DecodeEncode.rdReg (addr : Byte) : DecodeEncode.Statement (.rdReg addr) := fun _ => by
  simp [decode, encode, decodeCommand, decodeCore_encodeRdReg]

theorem DecodeEncode.wrReg (addr value : Byte) : DecodeEncode.Statement (.wrReg addr value) := fun _ => by
  simp [decode, encode, decodeCommand, decodeCore_encodeWrReg]

theorem DecodeEncode.get (addr : Byte) (o w : Nat) : DecodeEncode.Statement (.get addr o w) := fun h => by
  simp [decode, encode, decodeCommand, decodeCore_encodeGet addr h]

theorem DecodeEncode.set (addr : Byte) (o w : Nat) (value : Byte) :
    DecodeEncode.Statement (.set addr o w value) := fun h => by
  simp [decode, encode, decodeCommand, decodeCore_encodeSet addr h]

theorem DecodeEncode.w1 (d : DevAddr) (p : Byte) : DecodeEncode.Statement (.w1 d p) := fun _ => rfl

theorem DecodeEncode.w2 (d : DevAddr) (p v : Byte) : DecodeEncode.Statement (.w2 d p v) := fun _ => rfl

theorem DecodeEncode.r1 (d : DevAddr) : DecodeEncode.Statement (.r1 d) := fun _ => rfl

theorem DecodeEncode.getEnSbb0 : DecodeEncode.Statement .getEnSbb0 := fun _ => by
  show decodeCommand (encodeGet 0x2A 0 3) = _
  rw [decodeCommand, decodeCore_encodeGet 0x2A (show descriptorLegal 0 3 = true by decide)]
  rfl

theorem DecodeEncode.setEnSbb0 (v : Byte) : DecodeEncode.Statement (.setEnSbb0 v) := fun _ => by
  show decodeCommand (encodeSet 0x2A 0 3 v) = _
  rw [decodeCommand, decodeCore_encodeSet 0x2A (show descriptorLegal 0 3 = true by decide)]
  rfl

theorem DecodeEncode.getTvLdo : DecodeEncode.Statement .getTvLdo := fun _ => by
  show decodeCommand (encodeGet 0x38 0 7) = _
  rw [decodeCommand, decodeCore_encodeGet 0x38 (show descriptorLegal 0 7 = true by decide)]
  rfl

theorem DecodeEncode.setTvLdo (v : Byte) : DecodeEncode.Statement (.setTvLdo v) := fun _ => by
  show decodeCommand (encodeSet 0x38 0 7 v) = _
  rw [decodeCommand, decodeCore_encodeSet 0x38 (show descriptorLegal 0 7 = true by decide)]
  rfl

end Sys2Proof.Laws
end

