-- ==== Sys2Proof/Laws/Step.lean ====
section
/-! SUPPORT. What a turn can do, said once: what the decoder can answer, a command turn as `runCommand` on the very word
presented, and what frames, phases and whole commands keep. -/

namespace Sys2Proof.Machine

/-- The commands that R101's decoder can answer, with the word's fields. -/
theorem decodeCore_ok {w : CmdWord} {i : Instr} (h : decodeCore w = .ok i) :
    (opcodeOf (cmdOp w) = .rdReg ∧ i = .rdReg (cmdAddr w) ∧ w = encodeRdReg (cmdAddr w)) ∨
    (opcodeOf (cmdOp w) = .wrReg ∧ i = .wrReg (cmdAddr w) (cmdValue w) ∧
      w = encodeWrReg (cmdAddr w) (cmdValue w)) ∨
    (opcodeOf (cmdOp w) = .get ∧ legalField (cmdO w).toNat (cmdWidth w) = true ∧
      i = .get (cmdAddr w) (cmdO w).toNat (cmdWidth w) ∧ w = encodeGet (cmdAddr w) (cmdO w).toNat (cmdWidth w)) ∨
    (opcodeOf (cmdOp w) = .set ∧ legalField (cmdO w).toNat (cmdWidth w) = true ∧
      i = .set (cmdAddr w) (cmdO w).toNat (cmdWidth w) (cmdValue w) ∧
      w = encodeSet (cmdAddr w) (cmdO w).toNat (cmdWidth w) (cmdValue w)) := by
  have hf := cmdWord_fields w
  have h1 : BitVec.ofNat 3 (cmdO w).toNat = cmdO w := by simp
  have h2 : BitVec.ofNat 3 (cmdWidth w - 1) = cmdWm1 w := by simp [cmdWidth]
  have hb := bits_opcodeOf (cmdOp w)
  have hl : ¬ 7 < (cmdO w).toNat + (cmdWm1 w).toNat → legalField (cmdO w).toNat (cmdWidth w) = true := by
    intro h
    simp only [legalField_iff, cmdWidth]
    omega
  unfold decodeCore at h
  cases ho : opcodeOf (cmdOp w) with
  | rdReg =>
    rw [ho] at h hb
    simp only at h
    split_ifs at h with ha hv
    simp only [not_or, not_not] at ha hv
    refine .inl ⟨rfl, by simpa using h.symm, ?_⟩
    rw [encodeRdReg, hb, ← ha.1, ← ha.2, ← hv, hf]
  | wrReg =>
    rw [ho] at h hb
    simp only at h
    split_ifs at h with ha
    simp only [not_or, not_not] at ha
    refine .inr (.inl ⟨rfl, by simpa using h.symm, ?_⟩)
    rw [encodeWrReg, hb, ← ha.1, ← ha.2, hf]
  | get =>
    rw [ho] at h hb
    simp only at h
    split_ifs at h with ha hv
    simp only [not_not] at hv
    refine .inr (.inr (.inl ⟨rfl, hl ha, by simpa using h.symm, ?_⟩))
    rw [encodeGet, hb, h1, h2, ← hv, hf]
  | set =>
    rw [ho] at h hb
    simp only at h
    split_ifs at h with ha
    refine .inr (.inr (.inr ⟨rfl, hl ha, by simpa using h.symm, ?_⟩))
    rw [encodeSet, hb, h1, h2, hf]

/-- The body of a core command. -/
def bodyOf : Instr → State → State
  | .rdReg addr => bodyRdReg addr
  | .wrReg addr value => bodyWrReg addr value
  | .get addr o w => bodyGet addr o w
  | .set addr o w value => bodySet addr o w value
  | .w1 _ _ => id
  | .w2 _ _ _ => id
  | .r1 _ => id
  | .getEnSbb0 => id
  | .setEnSbb0 _ => id
  | .getTvLdo => id
  | .setTvLdo _ => id

/-- The table's name for a command changes nothing (R105, log 13). -/
theorem exec_named (i : Instr) (s : State) : exec i.named s = exec i s := by
  cases i with
  | get a o w =>
    simp only [Instr.named]
    split_ifs with ha hb
    · obtain ⟨rfl, rfl, rfl⟩ := ha
      rfl
    · obtain ⟨rfl, rfl, rfl⟩ := hb
      rfl
    · rfl
  | set a o w v =>
    simp only [Instr.named]
    split_ifs with ha hb
    · obtain ⟨rfl, rfl, rfl⟩ := ha
      rfl
    · obtain ⟨rfl, rfl, rfl⟩ := hb
      rfl
    · rfl
  | rdReg _ => rfl
  | wrReg _ _ => rfl
  | w1 _ _ => rfl
  | w2 _ _ _ => rfl
  | r1 _ => rfl
  | getEnSbb0 => rfl
  | setEnSbb0 _ => rfl
  | getTvLdo => rfl
  | setTvLdo _ => rfl

/-- A command turn runs the core command that R101's decoder reads, on the very word presented. -/
theorem runWord_ok {w : CmdWord} {i : Instr} (h : decodeCore w = .ok i) (s : State) :
    runWord w s = runCommand w (staticCheck s.params i) (bodyOf i) s := by
  have hd : decodeCommand w = .ok i.named := by simp [decodeCommand, h]
  simp only [runWord, hd, exec_named]
  rcases decodeCore_ok h with ⟨_, rfl, hw⟩ | ⟨_, rfl, hw⟩ | ⟨_, _, rfl, hw⟩ | ⟨_, _, rfl, hw⟩ <;>
    exact congrArg (fun x => runCommand x _ _ s) hw.symm

/-- A command turn with an illegal word (R100). -/
theorem runWord_error {w : CmdWord} {r : Reject} (h : decodeCore w = .error r) (s : State) :
    runWord w s = runCommand w (some .invalidDescriptor) id s := by
  simp [runWord, decodeCommand, h, runIllegal]

/-- A command turn, legal word or not, is one `runCommand` on the word. -/
theorem runWord_cases (w : CmdWord) (s : State) :
    (∃ r, decodeCore w = .error r ∧ runWord w s = runCommand w (some .invalidDescriptor) id s) ∨
    (∃ i, decodeCore w = .ok i ∧ runWord w s = runCommand w (staticCheck s.params i) (bodyOf i) s) := by
  cases h : decodeCore w with
  | error r => exact .inl ⟨r, rfl, runWord_error h s⟩
  | ok i => exact .inr ⟨i, rfl, runWord_ok h s⟩

/-! What the static checks leave -/

theorem checkAddress_none {a : Byte} (h : checkAddress a = none) : mapped a = true := by
  unfold checkAddress at h
  split_ifs at h
  assumption

theorem checkGet_none {a : Byte} {o w : Nat} (h : checkGet a o w = none) :
    legalField o w = true ∧ mapped a = true := by
  unfold checkGet at h
  split_ifs at h
  exact ⟨by assumption, checkAddress_none h⟩

/-- A `SET` that passes every check (R225): a legal field of an `RW` register, under `REJECT` a value in range. -/
theorem checkSet_none {P : Params} {a : Byte} {o w : Nat} {v : Byte} (h : checkSet P a o w v = none) :
    legalField o w = true ∧ classOf a = some .rw ∧ (P.rangePolicy = .reject → v ≤ maskGen w) := by
  unfold checkSet at h
  split_ifs at h with h1 h2 h3 h4
  refine ⟨by simpa using h1, by simpa using h3, fun hp => ?_⟩
  simp [hp, inRange] at h4
  exact h4

/-! What a frame, a phase and a whole command keep -/

/-- A property that the controllers' own updates and the oracle's draws keep. -/
structure Private (P : State → Prop) : Prop where
  updCtl : ∀ s f, P s → P (State.updCtl s f)
  oracle : ∀ s bus draws, P s → P { s with bus := bus, draws := draws }

/-- A property that the sequencer's own updates, none of which writes `CMD` (R28), and the oracle's draws keep. -/
structure Sequenced (P : State → Prop) : Prop where
  updCtl : ∀ s f, (∀ c, (f c).cmd = c.cmd) → P s → P (State.updCtl s f)
  oracle : ∀ s bus draws, P s → P { s with bus := bus, draws := draws }

theorem Private.sequenced {P : State → Prop} (hP : Private P) : Sequenced P := ⟨fun s f _ => hP.updCtl s f, hP.oracle⟩

/-- A frame keeps what its effect keeps. -/
theorem issue_keeps {α : Type} {P : State → Prop} (hP : Sequenced P) {d : DevAddr} {effect : State → α × State}
    {s : State} (hs : P s) (he : ∀ u, P u → P (effect u).2) : P (issue d effect s).2 := by
  rcases issue_cases d effect s with ⟨_, h⟩ | ⟨_, b, n, t, rfl, h | h | h | h | h⟩ <;> rw [h]
  · exact hs
  · exact he _ (hP.oracle _ b n hs)
  · exact he _ (hP.oracle _ b n hs)
  · exact hP.oracle _ b n hs
  · exact he _ (hP.oracle _ b n hs)
  · exact hP.oracle _ b n hs

/-- What a controller does after a frame keeps what its own continuation keeps. -/
theorem afterFrame_keeps {α : Type} {P : State → Prop} (hP : Sequenced P) {step : ResultStep} {go : α → State → State}
    {x : Reply α × State} (hx : P x.2) (hgo : ∀ a u, P u → P (go a u)) : P (afterFrame step go x) := by
  rcases x with ⟨_ | _ | _, u⟩
  · exact hgo _ _ hx
  · exact hP.updCtl _ _ (fun _ => rfl) hx
  · exact hP.updCtl _ _ (fun _ => rfl) hx

/-- A phase of a controller keeps what its updates and the three frames' effects keep; only a controller in `WR_FRAME`
performs a `W2`, at its command's address (R27). -/
theorem sequencerStep_keeps {P : State → Prop} (hP : Sequenced P) {s t : State} (h : sequencerStep s = .next t)
    (hs : P s)
    (h1 : ∀ p u, P u → P (effectW1 p u).2) (hr : ∀ u, P u → P (effectR1 u).2)
    (h2 : ∀ v u c w, s.ctl? = some c → c.phase = .wrFrame → c.cmd = some w → P u → P (effectW2 (cmdAddr w) v u).2) :
    P t := by
  have a1 : ∀ {d st p u} {go : Unit → State → State}, P u → (∀ a u, P u → P (go a u)) →
      P (afterFrame st go (frameW1 d p u)) := fun hu hgo =>
    afterFrame_keeps hP (issue_keeps hP hu (h1 _)) hgo
  have a2 : ∀ {d st u} {go : Byte → State → State}, P u → (∀ a u, P u → P (go a u)) →
      P (afterFrame st go (frameR1 d u)) := fun hu hgo =>
    afterFrame_keeps hP (issue_keeps hP hu hr) hgo
  unfold sequencerStep at h
  cases hc : s.ctl? with
  | none => simp [hc] at h
  | some c =>
    simp only [hc] at h
    split_ifs at h with hq
    · simp only [Host.Outcome.next.injEq] at h
      exact h ▸ hs
    · cases hw : c.cmd with
      | none => simp [hw] at h
      | some w =>
        simp only [hw] at h
        have a3 : ∀ {d st v u} {go : Unit → State → State}, c.phase = .wrFrame → P u → (∀ a u, P u → P (go a u)) →
            P (afterFrame st go (frameW2 d (cmdAddr w) v u)) := fun hp hu hgo =>
          afterFrame_keeps hP (issue_keeps hP hu fun u hu => h2 _ u c w hc hp hw hu) hgo
        cases hp : c.phase <;> rw [hp] at h <;> simp only [phaseWithCommand] at h
        · simp only [Host.Outcome.next.injEq] at h
          exact h ▸ hs
        · simp only [Host.Outcome.next.injEq] at h
          subst h
          unfold phaseCheck
          split
          · exact hP.updCtl _ _ (fun _ => rfl) hs
          · split
            · exact hP.updCtl _ _ (fun _ => rfl) hs
            · split
              · exact hP.updCtl _ _ (fun _ => rfl) hs
              · exact hP.updCtl _ _ (fun _ => rfl) hs
              · exact hP.updCtl _ _ (fun _ => rfl) hs
              · exact hP.updCtl _ _ (fun _ => rfl) (hP.updCtl _ _ (fun _ => rfl) hs)
        · unfold phaseRdPtr at h
          split at h <;> simp only [phaseFrame, Host.Outcome.next.injEq, reduceCtorEq] at h <;> subst h <;>
            exact a1 hs fun _ _ hu => hP.updCtl _ _ (fun _ => rfl) hu
        · unfold phaseRdData at h
          split at h
          · simp at h
          · simp only [phaseFrame, Host.Outcome.next.injEq] at h
            subst h
            exact a2 hs fun _ _ hu => hP.updCtl _ _ (fun _ => rfl) (hP.updCtl _ _ (fun _ => rfl) hu)
          · split_ifs at h
            simp only [phaseFrame, Host.Outcome.next.injEq] at h
            subst h
            exact a2 hs fun _ _ hu => hP.updCtl _ _ (fun _ => rfl) (hP.updCtl _ _ (fun _ => rfl) hu)
          · simp only [phaseFrame, Host.Outcome.next.injEq] at h
            subst h
            exact a2 hs fun _ _ hu => hP.updCtl _ _ (fun _ => rfl) (hP.updCtl _ _ (fun _ => rfl) hu)
        · unfold phaseMerge at h
          split at h <;> try simp only [reduceCtorEq] at h
          split at h <;> try simp only [reduceCtorEq] at h
          split_ifs at h
          simp only [Host.Outcome.next.injEq] at h
          subst h
          exact hP.updCtl _ _ (fun _ => rfl) (hP.updCtl _ _ (fun _ => rfl) hs)
        · unfold phaseWrFrame at h
          split at h <;> try simp only [reduceCtorEq] at h
          all_goals
            split at h <;> simp only [phaseFrame, Host.Outcome.next.injEq, reduceCtorEq] at h
            subst h
            exact a3 hp hs fun _ _ hu => hP.updCtl _ _ (fun _ => rfl) hu
        · unfold phaseVfPtr at h
          split at h <;> simp only [phaseFrame, Host.Outcome.next.injEq, reduceCtorEq] at h
          subst h
          exact a1 hs fun _ _ hu => hP.updCtl _ _ (fun _ => rfl) hu
        · unfold phaseVfData at h
          split at h <;> try simp only [reduceCtorEq] at h
          split_ifs at h
          simp only [phaseFrame, Host.Outcome.next.injEq] at h
          subst h
          exact a2 hs fun _ _ hu => hP.updCtl _ _ (fun _ => rfl) (hP.updCtl _ _ (fun _ => rfl) hu)
        · simp only [Host.Outcome.next.injEq] at h
          exact h ▸ hs

/-- A phase leaves `CMD` as it is (R28). -/
theorem sequencerStep_cmd {s t : State} (h : sequencerStep s = .next t) :
    t.ctl?.bind Ctl.cmd = s.ctl?.bind Ctl.cmd := by
  refine sequencerStep_keeps (P := fun u => u.ctl?.bind Ctl.cmd = s.ctl?.bind Ctl.cmd)
    ⟨fun u f hf hu => ?_, fun _ _ _ h => h⟩ h rfl (fun _ _ h => h) (fun u hu => ?_) fun v u c w _ _ _ hu => ?_
  · rw [State.updCtl_ctl?, Option.bind_map, ← hu]
    exact congrArg _ (funext hf)
  · unfold effectR1 regRead
    split_ifs <;> exact hu
  · unfold effectW2 regWrite
    split_ifs <;> exact hu

/-- A register read access of a command keeps what its updates and the effects of `W1` and `R1` keep. -/
theorem memRead_keeps {P : State → Prop} (hP : Private P) {pointer data : Phase} {step : ResultStep} {a : Byte}
    {go : Byte → State → State} {s : State} (hs : P s) (h1 : ∀ u, P u → P (effectW1 a u).2)
    (hr : ∀ u, P u → P (effectR1 u).2) (hgo : ∀ b u, P u → P (go b u)) : P (memRead pointer data step a go s) :=
  afterFrame_keeps hP.sequenced (issue_keeps hP.sequenced (hP.updCtl _ _ hs) h1) fun _ _ hu =>
    afterFrame_keeps hP.sequenced (issue_keeps hP.sequenced (hP.updCtl _ _ hu) hr) hgo

/-- A register write access of a command keeps what its updates and the effect of `W2` keep. -/
theorem memWrite_keeps {P : State → Prop} (hP : Private P) {a v : Byte} {go : State → State} {s : State} (hs : P s)
    (h2 : ∀ u, P u → P (effectW2 a v u).2) (hgo : ∀ u, P u → P (go u)) : P (memWrite a v go s) :=
  afterFrame_keeps hP.sequenced (issue_keeps hP.sequenced (hP.updCtl _ _ hs) h2) fun _ _ hu => hgo _ hu

/-- A whole command keeps what its updates and the three frames' effects keep. -/
theorem runWord_keeps {P : State → Prop} (hP : Private P) {w : CmdWord} {s t : State} (h : runWord w s = .next t)
    (hs : P s) (h1 : ∀ p u, P u → P (effectW1 p u).2) (hr : ∀ u, P u → P (effectR1 u).2)
    (h2 : ∀ p v u, P u → P (effectW2 p v u).2) : P t := by
  have key : ∀ {failed} {body : State → State}, (∀ u, P u → P (body u)) → runCommand w failed body s = .next t →
      P t := by
    intro failed body hb hx
    rcases runCommand_cases w failed body s with ⟨_, e⟩ | ⟨_, _, _, e⟩ | ⟨_, _, _, ⟨k, hk, e⟩ | ⟨hn, e⟩⟩ <;>
      rw [e] at hx <;> simp only [Host.Outcome.next.injEq, reduceCtorEq] at hx <;> subst hx
    · exact hs
    · exact hP.updCtl _ _ (hP.updCtl _ _ hs)
    · exact hb _ (hP.updCtl _ _ hs)
  rcases runWord_cases w s with ⟨_, _, e⟩ | ⟨i, _, e⟩ <;> rw [e] at h
  · exact key (fun _ hu => hu) h
  · refine key (fun u hu => ?_) h
    cases i with
    | rdReg a => exact memRead_keeps hP hu (h1 _) hr fun _ _ hu => hP.updCtl _ _ (hP.updCtl _ _ hu)
    | wrReg a v => exact memWrite_keeps hP (hP.updCtl _ _ hu) (h2 _ _) fun _ hu => hP.updCtl _ _ hu
    | get a o w => exact memRead_keeps hP hu (h1 _) hr fun _ _ hu => hP.updCtl _ _ (hP.updCtl _ _ hu)
    | set a o w v =>
      exact memRead_keeps hP hu (h1 _) hr fun b u hu =>
        memWrite_keeps hP (hP.updCtl _ _ (hP.updCtl _ _ (hP.updCtl _ _ hu))) (h2 _ _) fun _ hu =>
          memRead_keeps hP hu (h1 _) hr fun _ _ hu => hP.updCtl _ _ (hP.updCtl _ _ hu)
    | w1 _ _ => exact hu
    | w2 _ _ _ => exact hu
    | r1 _ => exact hu
    | getEnSbb0 => exact hu
    | setEnSbb0 _ => exact hu
    | getTvLdo => exact hu
    | setTvLdo _ => exact hu

/-- A bus transaction that runs, and what it keeps. -/
theorem runTransaction_keeps {P : State → Prop} (hP : Private P) {x : Transaction} {s t : State}
    (h : runTransaction x s = .next t) (hs : P s) (hreply : ∀ u r, P u → P { u with reply := r })
    (h1 : ∀ d p, x = .write d [p] → ∀ u, P u → P (effectW1 p u).2)
    (hr : ∀ d, x = .read d 1 → ∀ u, P u → P (effectR1 u).2)
    (h2 : ∀ d p v, x = .write d [p, v] → ∀ u, P u → P (effectW2 p v u).2) : P t := by
  have key : ∀ {α : Type} {g : α → Option Byte} {y : Reply α × State}, P y.2 → P (keepReply g y) := by
    intro α g y hy
    rcases y with ⟨_ | _ | _, u⟩ <;> exact hreply _ _ hy
  rcases x with ⟨d, l⟩ | ⟨d, n⟩
  · rcases l with _ | ⟨p, _ | ⟨v, _ | ⟨z, l⟩⟩⟩ <;> simp only [runTransaction, decodeTransaction, reduceCtorEq, exec,
      execW1, execW2, Host.Outcome.next.injEq] at h <;> subst h
    · exact key (issue_keeps hP.sequenced hs (h1 d p rfl))
    · exact key (issue_keeps hP.sequenced hs (h2 d p v rfl))
  · by_cases hn : n = 1
    · subst hn
      simp only [runTransaction, decodeTransaction, if_true, exec, execR1, Host.Outcome.next.injEq] at h
      subst h
      exact key (issue_keeps hP.sequenced hs (hr d rfl))
    · simp [runTransaction, decodeTransaction, hn] at h
/-- What any step keeps: a property that private changes, the pointer, the turns, the reply and each kind of change to a
register keep. -/
theorem step_keeps {P : State → Prop} (hP : Private P) {s t : State} (h : step s = .next t) (hs : P s)
    (hturn : ∀ u i, P u → P (u.turnOf i)) (hag : ∀ u a, P u → P { u with agenda := a })
    (hreply : ∀ u r, P u → P { u with reply := r }) (hptr : ∀ u p, P u → P (State.setPtr u p))
    (hr : ∀ u a, mapped a = true → P u → P (u.setReg a (u.reg a &&& ~~~(readClearMask a))))
    (hw : ∀ u a v, mapped a = true → P u →
      P (u.setReg a ((u.reg a &&& ~~~(writeMask u.params a)) ||| (v &&& writeMask u.params a))))
    (he : ∀ u a b, s.agenda.head? = some (.eventSet a b) → classOf a = some .rc → P u →
      P (u.setReg a (u.reg a ||| (b &&& eventMask u.params a))))
    (hst : ∀ u a b, statusRegister a = true → P u → P (u.setReg a b)) : P t := by
  have hf : ∀ u, P u → P (freePtr u) := fun u hu => hptr _ _ (hP.oracle u u.bus (u.draws + 1) hu)
  have h1 : ∀ p u, P u → P (effectW1 p u).2 := fun p u hu => hptr _ _ hu
  have hr' : ∀ u, P u → P (effectR1 u).2 := by
    intro u hu
    cases hm : mapped u.ptr
    · rw [effectR1_unmapped hm]; exact hf _ (hP.oracle u u.bus _ hu)
    · rw [effectR1_mapped hm]; exact hf _ (hr _ _ hm hu)
  have h2 : ∀ p v u, P u → P (effectW2 p v u).2 := by
    intro p v u hu
    unfold effectW2
    cases hm : mapped p
    · rw [regWrite_unmapped hm]; exact hf _ (hptr _ _ hu)
    · rw [regWrite_mapped hm]; exact hf _ (hw _ _ _ hm (hptr _ _ hu))
  unfold step at h
  cases ha : s.agenda with
  | nil => rw [ha] at h; simp only [Host.Outcome.next.injEq] at h; exact h ▸ hs
  | cons x rest =>
    rw [ha] at h; simp only at h
    have hs' := hag s rest hs
    cases x with
    | command i w => exact runWord_keeps hP h (hturn _ _ hs') h1 hr' h2
    | present i w =>
      simp only [takeTurn, presentCommand] at h
      split at h
      · simp at h
      · split_ifs at h <;> simp only [Host.Outcome.next.injEq] at h <;> subst h
        · exact hP.updCtl _ _ (hturn _ _ hs')
        · exact hturn _ _ hs'
    | phase i => exact sequencerStep_keeps hP.sequenced h (hturn _ _ hs') h1 hr' fun v u c w _ _ _ => h2 _ _ _
    | take i =>
      simp only [takeTurn, takeResult] at h
      split at h
      · simp at h
      · split_ifs at h <;> simp only [Host.Outcome.next.injEq] at h <;> subst h
        · exact hP.updCtl _ _ (hturn _ _ hs')
        · exact hturn _ _ hs'
    | frame x => exact runTransaction_keeps hP h hs' hreply (fun _ p _ => h1 p) (fun _ _ => hr') fun _ p v _ => h2 p v
    | eventSet a b =>
      simp only [takeTurn, eventSet] at h
      split_ifs at h with hc
      simp only [Host.Outcome.next.injEq] at h; subst h
      exact he _ _ _ (by rw [ha]; rfl) hc hs'
    | statusUpd a b =>
      simp only [takeTurn, statusUpd] at h
      split_ifs at h with hc
      simp only [Host.Outcome.next.injEq] at h; subst h
      exact hst _ _ _ hc hs'

end Sys2Proof.Machine
end

