-- ==== Sys2Proof/Laws/Phases.lean ====
section
/-! SUPPORT. What one phase turn of a controller does when its frame succeeds, as one equation for each phase (R27): the next
state written out field by field. -/

namespace Sys2Proof.Machine

/-- The next turn is a phase of controller `i`, which runs the command word `w`; its handle names the register file. -/
structure PhaseTurn (u : State) (i : Nat) (rest : List Turn) (c : Ctl) (w : CmdWord) : Prop where
  agenda : u.agenda = .phase i :: rest
  ctl : u.ctls[i]? = some c
  waiting : c.waiting = false
  cmd : c.cmd = some w
  target : u.params.targetDev.getD i primaryDevAddr = u.params.devAddr

variable {u : State} {i : Nat} {rest : List Turn} {c : Ctl} {w : CmdWord} {bus : List BusDraw}

/-- In a phase of its own a controller's turn is that phase's step, for every outcome. -/
theorem PhaseTurn.step (h : PhaseTurn u i rest c w) (h1 : c.phase ≠ .idle) (h2 : c.phase ≠ .done) :
    step u = phaseWithCommand c.phase w c { u with agenda := rest, cur := i } := by
  rw [Machine.step, h.agenda]
  simp only [takeTurn, State.turnOf, sequencerStep, State.ctl?, h.ctl, h.waiting, h.cmd]
  simp [h1, h2]

/-- The frame of a phase turn whose outcome is fixed as `ok`. -/
theorem PhaseTurn.frame {α : Type} (h : PhaseTurn u i rest c w) (hb : u.bus = .ok :: bus) (effect : State → α × State) :
    issue (State.target { u with agenda := rest, cur := i }) effect { u with agenda := rest, cur := i } =
      (.ok (effect { u with agenda := rest, cur := i, bus := bus }).1,
        (effect { u with agenda := rest, cur := i, bus := bus }).2) :=
  issue_ok (d := State.target { u with agenda := rest, cur := i }) (s := { u with agenda := rest, cur := i }) h.target hb

/-- `IDLE`: the word presented is accepted. -/
theorem step_present (ha : u.agenda = .present i w :: rest) (hc : u.ctls[i]? = some c) (hw : c.waiting = false)
    (hp : c.phase = .idle) : step u = .next { u with
      agenda := rest, cur := i, ctls := u.ctls.set i { Ctl.idle with phase := .check, cmd := some w } } := by
  rw [Machine.step, ha]
  simp only [takeTurn, State.turnOf, presentCommand, State.ctl?, hc, hw, hp]
  simp only [State.accept, State.updCtl, ctls_modify hc]
  rfl

/-- `CHECK` of a command that reads first, its checks passed. -/
theorem PhaseTurn.check (h : PhaseTurn u i rest c w) (hp : c.phase = .check) {j : Instr} (hd : decodeCore w = .ok j)
    (hs : staticCheck u.params j = none) (ho : opcodeOf (cmdOp w) ≠ .wrReg) : Machine.step u = .next { u with
      agenda := rest, cur := i, ctls := u.ctls.set i { c with phase := .rdPtr } } := by
  rw [h.step (by rw [hp]; decide) (by rw [hp]; decide), hp]
  simp only [phaseWithCommand, phaseCheck, hd, hs]
  have e : ∀ v : State, v.ctls[v.cur]? = some c →
      v.enter .rdPtr = { v with ctls := v.ctls.set v.cur { c with phase := .rdPtr } } := fun v hv => by
    simp only [State.enter, State.updCtl, ctls_modify hv]
  cases ho' : opcodeOf (cmdOp w)
  · simp only; rw [e _ h.ctl]
  · exact absurd ho' ho
  · simp only; rw [e _ h.ctl]
  · simp only; rw [e _ h.ctl]

/-- `RD_PTR`. -/
theorem PhaseTurn.rdPtr (h : PhaseTurn u i rest c w) (hb : u.bus = .ok :: bus) (hp : c.phase = .rdPtr)
    (ho : opcodeOf (cmdOp w) ≠ .wrReg) : Machine.step u = .next { u with
      agenda := rest, cur := i, bus := bus, ptr := cmdAddr w, ctls := u.ctls.set i { c with phase := .rdData } } := by
  rw [h.step (by rw [hp]; decide) (by rw [hp]; decide), hp]
  simp only [phaseWithCommand, phaseRdPtr]
  cases ho' : opcodeOf (cmdOp w)
  case wrReg => exact absurd ho' ho
  all_goals
    simp only [frameW1, h.frame hb]
    simp only [phaseFrame, afterFrame, effectW1, State.enter, State.updCtl, State.setPtr, ctls_modify h.ctl]

/-- `RD_DATA` of `RD_REG`. -/
theorem PhaseTurn.rdData_rdReg (h : PhaseTurn u i rest c w) (hb : u.bus = .ok :: bus) (hp : c.phase = .rdData)
    (ho : opcodeOf (cmdOp w) = .rdReg) (hm : mapped u.ptr = true) : Machine.step u = .next { u with
      agenda := rest, cur := i, bus := bus, ptr := Config.freeByte u.draws, draws := u.draws + 1,
      regs := Memory.write u.regs u.ptr.toNat (u.reg u.ptr &&& ~~~(readClearMask u.ptr)),
      ctls := u.ctls.set i
        { c with phase := .done, cur := some (u.reg u.ptr), res := some ⟨.ok, .none, u.reg u.ptr⟩ } } := by
  rw [h.step (by rw [hp]; decide) (by rw [hp]; decide), hp]
  simp only [phaseWithCommand, phaseRdData, ho]
  rw [frameR1, h.frame hb, effectR1_mapped (by exact hm)]
  simp only [phaseFrame, afterFrame, freePtr, drawByte, State.setReg, State.latchCur, State.complete, State.updCtl,
    State.setPtr, ctls_modify h.ctl, ctls_set_modify]
  rfl

/-- `RD_DATA` of `SET`. -/
theorem PhaseTurn.rdData_set (h : PhaseTurn u i rest c w) (hb : u.bus = .ok :: bus) (hp : c.phase = .rdData)
    (ho : opcodeOf (cmdOp w) = .set) (hm : mapped u.ptr = true) : Machine.step u = .next { u with
      agenda := rest, cur := i, bus := bus, ptr := Config.freeByte u.draws, draws := u.draws + 1,
      regs := Memory.write u.regs u.ptr.toNat (u.reg u.ptr &&& ~~~(readClearMask u.ptr)),
      ctls := u.ctls.set i { c with phase := .merge, cur := some (u.reg u.ptr) } } := by
  rw [h.step (by rw [hp]; decide) (by rw [hp]; decide), hp]
  simp only [phaseWithCommand, phaseRdData, ho]
  rw [frameR1, h.frame hb, effectR1_mapped (by exact hm)]
  simp only [phaseFrame, afterFrame, freePtr, drawByte, State.setReg, State.latchCur, State.enter, State.updCtl,
    State.setPtr, ctls_modify h.ctl, ctls_set_modify]
  rfl

/-- `MERGE`. -/
theorem PhaseTurn.merge (h : PhaseTurn u i rest c w) (hp : c.phase = .merge) (ho : opcodeOf (cmdOp w) = .set) {b : Byte}
    (hc : c.cur = some b) (hl : legalField (cmdO w).toNat (cmdWidth w) = true) : Machine.step u = .next { u with
      agenda := rest, cur := i,
      ctls := u.ctls.set i
        { c with phase := .wrFrame, new := some (insertField b (cmdO w).toNat (cmdWidth w) (cmdValue w)) } } := by
  rw [h.step (by rw [hp]; decide) (by rw [hp]; decide), hp]
  simp only [phaseWithCommand, phaseMerge, ho, hc, hl, if_true]
  simp only [State.latchNew, State.enter, State.updCtl, ctls_modify h.ctl, ctls_set_modify, hc]

/-- `WR_FRAME` of `SET`. -/
theorem PhaseTurn.wrFrame_set (h : PhaseTurn u i rest c w) (hb : u.bus = .ok :: bus) (hp : c.phase = .wrFrame)
    (ho : opcodeOf (cmdOp w) = .set) {v : Byte} (hc : c.new = some v) (hm : mapped (cmdAddr w) = true) :
    Machine.step u = .next { u with
      agenda := rest, cur := i, bus := bus, ptr := Config.freeByte u.draws, draws := u.draws + 1,
      regs := Memory.write u.regs (cmdAddr w).toNat
        ((u.reg (cmdAddr w) &&& ~~~(writeMask u.params (cmdAddr w))) ||| (v &&& writeMask u.params (cmdAddr w))),
      ctls := u.ctls.set i { c with phase := .vfPtr } } := by
  rw [h.step (by rw [hp]; decide) (by rw [hp]; decide), hp]
  simp only [phaseWithCommand, phaseWrFrame, ho, hc]
  rw [frameW2, h.frame hb, effectW2, regWrite_mapped hm]
  simp only [phaseFrame, afterFrame, freePtr, drawByte, State.setReg, State.enter, State.updCtl, State.setPtr,
    ctls_modify h.ctl, hc]
  rfl

/-- `VF_PTR`. -/
theorem PhaseTurn.vfPtr (h : PhaseTurn u i rest c w) (hb : u.bus = .ok :: bus) (hp : c.phase = .vfPtr)
    (ho : opcodeOf (cmdOp w) = .set) : Machine.step u = .next { u with
      agenda := rest, cur := i, bus := bus, ptr := cmdAddr w, ctls := u.ctls.set i { c with phase := .vfData } } := by
  rw [h.step (by rw [hp]; decide) (by rw [hp]; decide), hp]
  simp only [phaseWithCommand, phaseVfPtr, ho]
  rw [frameW1, h.frame hb]
  simp only [phaseFrame, afterFrame, effectW1, State.enter, State.updCtl, State.setPtr, ctls_modify h.ctl]

/-- `VF_DATA`. -/
theorem PhaseTurn.vfData (h : PhaseTurn u i rest c w) (hb : u.bus = .ok :: bus) (hp : c.phase = .vfData)
    (ho : opcodeOf (cmdOp w) = .set) (hm : mapped u.ptr = true) (hl : legalField (cmdO w).toNat (cmdWidth w) = true) :
    Machine.step u = .next { u with
      agenda := rest, cur := i, bus := bus, ptr := Config.freeByte u.draws, draws := u.draws + 1,
      regs := Memory.write u.regs u.ptr.toNat (u.reg u.ptr &&& ~~~(readClearMask u.ptr)),
      ctls := u.ctls.set i { c with
        phase := .done, rb := some (u.reg u.ptr),
        res := some (verifyResult (extract (u.reg u.ptr) (cmdO w).toNat (cmdWidth w)) (cmdValue w)) } } := by
  rw [h.step (by rw [hp]; decide) (by rw [hp]; decide), hp]
  simp only [phaseWithCommand, phaseVfData, ho, hl, if_true]
  rw [frameR1, h.frame hb, effectR1_mapped (by exact hm)]
  simp only [phaseFrame, afterFrame, freePtr, drawByte, State.setReg, State.latchRb, State.complete, State.updCtl,
    State.setPtr, ctls_modify h.ctl, ctls_set_modify]
  rfl

end Sys2Proof.Machine
end

