-- ==== Sys2Proof/Laws/Turns.lean ====
section
/-! SUPPORT. Turns among other turns: each step takes one from the agenda; and what a turn that issues no frame can do
(R85), said once: a requester's or a controller's changes its controller and nothing else, the event source's one register
that no bus write can. -/

namespace Sys2Proof.Machine

theorem State.updCtl_id (s : State) : s.updCtl id = s := by
  simp [State.updCtl]

/-- A step takes one turn from the agenda and leaves the others. -/
theorem step_agenda {s t : State} {x : Turn} {rest : List Turn} (ha : s.agenda = x :: rest) (h : step s = .next t) :
    t.agenda = rest := by
  have hP : Private fun u => u.agenda = rest := ⟨fun _ _ h => h, fun _ _ _ h => h⟩
  have hr : ∀ u : State, u.agenda = rest → (effectR1 u).2.agenda = rest := fun u hu => by
    unfold effectR1 regRead
    split_ifs <;> exact hu
  have h2 : ∀ p v (u : State), u.agenda = rest → (effectW2 p v u).2.agenda = rest := fun p v u hu => by
    unfold effectW2 regWrite
    split_ifs <;> exact hu
  rw [step, ha] at h
  cases x <;> simp only [takeTurn] at h
  · exact runWord_keeps hP h rfl (fun _ _ h => h) hr h2
  · simp only [presentCommand] at h
    split at h
    · cases h
    · split_ifs at h <;> cases h <;> rfl
  · exact sequencerStep_keeps hP.sequenced h rfl (fun _ _ h => h) hr fun _ _ _ _ _ _ _ => h2 _ _ _
  · simp only [takeResult] at h
    split at h
    · cases h
    · split_ifs at h <;> cases h <;> rfl
  · exact runTransaction_keeps hP h rfl (fun _ _ h => h) (fun _ _ _ _ h => h) (fun _ _ => hr) fun _ p v _ => h2 p v
  · simp only [eventSet] at h
    split_ifs at h
    cases h
    rfl
  · simp only [statusUpd] at h
    split_ifs at h
    cases h
    rfl

/-- What a whole command does that issues no frame: refused, or not accepted. -/
theorem runWord_withoutFrame {w : CmdWord} {s t : State} {c : Ctl} (hc : s.ctl? = some c)
    (hf : (c.accepts && checksPassed s.params w) = false) (h : runWord w s = .next t) : ∃ f, t = s.updCtl f := by
  by_cases ha : c.accepts
  · have refused : ∀ {k body}, runCommand w (some k) body s = .next t → ∃ f, t = s.updCtl f := by
      intro k body h
      rw [runCommand_accepts hc ha] at h
      cases h
      exact ⟨_, State.updCtl_updCtl s _ _⟩
    rw [ha, Bool.true_and] at hf
    rcases runWord_cases w s with ⟨r, -, e⟩ | ⟨i, hd, e⟩ <;> rw [e] at h
    · exact refused h
    · cases hs : staticCheck s.params i with
      | none => simp [checksPassed, hd, hs] at hf
      | some k => rw [hs] at h; exact refused h
  · have busy := fun failed body => runCommand_busy (w := w) (failed := failed) (body := body) hc (by simpa using ha)
    rcases runWord_cases w s with ⟨r, -, e⟩ | ⟨i, -, e⟩ <;> rw [e, busy] at h <;> cases h <;>
      exact ⟨id, (State.updCtl_id s).symm⟩

/-- What a phase does that issues no frame. -/
theorem sequencerStep_withoutFrame {s t : State} {c : Ctl} (hc : s.ctl? = some c)
    (hf : (!c.waiting && c.phase.issuesFrame) = false) (h : sequencerStep s = .next t) : ∃ f, t = s.updCtl f := by
  have one : ∀ f, ∃ g, s.updCtl f = s.updCtl g := fun f => ⟨f, rfl⟩
  have same : ∃ g, s = s.updCtl g := ⟨id, (State.updCtl_id s).symm⟩
  simp only [sequencerStep, hc] at h
  split_ifs at h with hq
  · cases h; exact same
  · simp only [Bool.or_eq_true, not_or, Bool.not_eq_true] at hq
    rw [hq.1.1, Bool.not_false, Bool.true_and] at hf
    split at h
    · cases h
    · rename_i w _
      cases hp : c.phase <;> rw [hp] at hf h <;> simp only [Phase.issuesFrame, Bool.true_eq_false] at hf <;>
        simp only [phaseWithCommand] at h
      · cases h; exact same
      · cases h
        unfold phaseCheck
        split
        · exact one _
        · split
          · exact one _
          · split
            · exact one _
            · exact one _
            · exact one _
            · exact ⟨_, State.updCtl_updCtl s _ _⟩
      · simp only [phaseMerge] at h
        split at h <;> try cases h
        split at h <;> try cases h
        split_ifs at h
        cases h
        exact ⟨_, State.updCtl_updCtl s _ _⟩
      · cases h; exact same

/-- A requester's or a controller's turn that issues no frame changes its controller, and nothing else. -/
theorem step_withoutFrame {s t : State} {x : Turn} {i : Nat} {rest : List Turn} (ha : s.agenda = x :: rest)
    (hx : x.controller? = some i) (hf : x.issuesFrame s = false) (h : step s = .next t) :
    ∃ f, t = (({ s with agenda := rest } : State).turnOf i).updCtl f := by
  have same : ∀ u : State, ∃ f, u = u.updCtl f := fun u => ⟨id, (State.updCtl_id u).symm⟩
  have hnc : ∀ {u : State}, u.ctl? = none → ∀ w, runWord w u = .refused .noController := by
    intro u hu w
    rcases runWord_cases w u with ⟨r, -, e⟩ | ⟨j, -, e⟩ <;> simp only [e, runCommand, hu]
  rw [step, ha] at h
  cases x <;> simp only [Turn.controller?, Option.some.injEq, reduceCtorEq] at hx <;> subst hx <;>
    simp only [takeTurn] at h
  · rename_i i w
    cases hc : (({ s with agenda := rest } : State).turnOf i).ctl? with
    | none => rw [hnc hc] at h; cases h
    | some c =>
      have hc' : s.ctls[i]? = some c := hc
      exact runWord_withoutFrame hc (by simpa [Turn.issuesFrame, hc'] using hf) h
  · simp only [presentCommand] at h
    split at h
    · cases h
    · split_ifs at h <;> cases h
      · exact ⟨_, rfl⟩
      · exact same _
  · rename_i i
    cases hc : (({ s with agenda := rest } : State).turnOf i).ctl? with
    | none => rw [sequencerStep, hc] at h; cases h
    | some c =>
      have hc' : s.ctls[i]? = some c := hc
      exact sequencerStep_withoutFrame hc (by simpa [Turn.issuesFrame, hc'] using hf) h
  · simp only [takeResult] at h
    split at h
    · cases h
    · split_ifs at h <;> cases h
      · exact ⟨_, rfl⟩
      · exact same _

/-- A turn of no controller that issues no frame is the event source's: one register changes, of class `RC` or `RO`. -/
theorem step_event {s t : State} {x : Turn} {rest : List Turn} (ha : s.agenda = x :: rest) (hx : x.controller? = none)
    (hf : x.issuesFrame s = false) (h : step s = .next t) :
    ∃ a v, classOf a ≠ some .rw ∧ t = ({ s with agenda := rest } : State).setReg a v := by
  rw [step, ha] at h
  cases x <;> simp only [Turn.controller?, reduceCtorEq] at hx <;> simp only [takeTurn] at h
  · simp [Turn.issuesFrame] at hf
  · rename_i a bits
    simp only [eventSet] at h
    split_ifs at h with hc
    cases h
    exact ⟨a, _, by rw [hc]; decide, rfl⟩
  · rename_i a v
    simp only [statusUpd] at h
    split_ifs at h with hc
    cases h
    refine ⟨a, v, ?_, rfl⟩
    simp only [statusRegister, Bool.or_eq_true, beq_iff_eq] at hc
    rcases hc with (rfl | rfl) | rfl <;> decide

/-- In the middle of its command, no turn of a controller but its sequencer's own changes anything. -/
theorem step_busy {s : State} {x : Turn} {i : Nat} {c : Ctl} {rest : List Turn} (ha : s.agenda = x :: rest)
    (hx : x.controller? = some i) (hne : x ≠ .phase i) (hc : s.ctls[i]? = some c) (hb : c.busy = true) :
    step s = .next (({ s with agenda := rest } : State).turnOf i) := by
  have hc' : (({ s with agenda := rest } : State).turnOf i).ctl? = some c := hc
  simp only [Ctl.busy, Bool.and_eq_true, bne_iff_ne, ne_eq] at hb
  have hacc : c.accepts = false := by simp [Ctl.accepts, hb.1, hb.2]
  rw [step, ha]
  cases x <;> simp only [Turn.controller?, Option.some.injEq, reduceCtorEq] at hx <;> subst hx <;> simp only [takeTurn]
  · rename_i w
    rcases runWord_cases w (({ s with agenda := rest } : State).turnOf _) with ⟨_, -, e⟩ | ⟨_, -, e⟩ <;>
      rw [e, runCommand_busy hc' hacc]
  · simp [presentCommand, hc', hb.1]
  · exact absurd rfl hne
  · simp [takeResult, hc', hb.2]

/-- In a serialized run no other controller issues a frame while a command is under way (R85). -/
theorem Serialized.quiet {s : State} {n i j : Nat} {c : Ctl} {x : Turn} {rest : List Turn} (h : Serialized (n + 1) s)
    (ha : s.agenda = x :: rest) (hc : s.ctls[i]? = some c) (hb : c.busy = true) (hx : x.controller? = some j)
    (hji : j ≠ i) : x.issuesFrame s = false := by
  have hlt := (List.getElem?_eq_some_iff.mp hc).1
  have hk := h.1
  simp only [State.keepsLock, ha, hx, Bool.or_eq_true, Bool.not_eq_true', List.all_eq_true, List.mem_range] at hk
  rcases hk with hk | hk
  · exact hk
  · have := hk i hlt
    simp [hc, hb] at this
    exact absurd this.symm hji

/-- `Serialized` as a check that can be run. -/
def serializedCheck : Nat → State → Bool
  | 0, _ => true
  | n + 1, s =>
    s.keepsLock &&
      match step s with
      | .next t => serializedCheck n t
      | .fault _ => true
      | .refused _ => true

theorem serialized_of_check {n : Nat} {s : State} (h : serializedCheck n s = true) : Serialized n s := by
  induction n generalizing s with
  | zero => trivial
  | succ n ih =>
    simp only [serializedCheck, Bool.and_eq_true] at h
    exact ⟨h.1, fun t e => ih (by simpa only [e] using h.2)⟩

end Sys2Proof.Machine
end

