-- ==== Sys2Proof/Tests/Slice0.lean ====
section
/-! SUPPORT. Tests on small states. Expected values are those of `spec/95_test_vectors.md`, whose row a test names, or
worked by hand from the rule it names. The second part has, for each obligation with hypotheses, a concrete state and
operands that meet all of them, at the ends of their ranges where there are several cases. -/

namespace Sys2Proof.Tests

open Sys2Proof.Machine

/-! ## Well-formedness -/

/-- R91: a field has at least one bit. -/
theorem test_wf_width_zero : widthPositive 0 = false ∧ Instr.wellFormed (.get 0x2A 0 0) = false := by decide

/-- R100 (a), word 0xB22A00 of 2.1: offset 6 and width 3 leave the byte. -/
theorem test_wf_leaves_byte : fieldInByte 6 3 = false ∧ Instr.wellFormed (.set 0x2A 6 3 0x01) = false := by decide

/-- R100: `o + w = 8` is legal. -/
theorem test_wf_boundary : Instr.wellFormed (.get 0x2A 7 1) = true ∧ Instr.wellFormed (.set 0x2A 0 8 0) = true := by
  decide

/-! ## Decoding: words written out field by field (R90), `op`, `o`, `wm1`, `addr`, `value`, from the rows of 2.1 -/

theorem test_decode_rdReg : decodeCommand (0b00#2 ++ 0b000#3 ++ 0b111#3 ++ 0b00010001#8 ++ 0b00000000#8) =
    .ok (.rdReg 0x11) := by rfl

theorem test_decode_wrReg : decodeCommand (0b01#2 ++ 0b000#3 ++ 0b111#3 ++ 0b00000110#8 ++ 0b11111111#8) =
    .ok (.wrReg 0x06 0xFF) := by rfl

theorem test_decode_get : decodeCommand (0b10#2 ++ 0b111#3 ++ 0b000#3 ++ 0b00101010#8 ++ 0b00000000#8) =
    .ok (.get 0x2A 7 1) := by rfl

theorem test_decode_set : decodeCommand (0b11#2 ++ 0b010#3 ++ 0b010#3 ++ 0b00011001#8 ++ 0b00000101#8) =
    .ok (.set 0x19 2 3 0x05) := by rfl

theorem test_decode_getEnSbb0 : decodeCommand (0b10#2 ++ 0b000#3 ++ 0b010#3 ++ 0b00101010#8 ++ 0b00000000#8) =
    .ok .getEnSbb0 := by rfl

theorem test_decode_setEnSbb0 : decodeCommand (0b11#2 ++ 0b000#3 ++ 0b010#3 ++ 0b00101010#8 ++ 0b00000101#8) =
    .ok (.setEnSbb0 0x05) := by rfl

theorem test_decode_getTvLdo : decodeCommand (0b10#2 ++ 0b000#3 ++ 0b110#3 ++ 0b00111000#8 ++ 0b00000000#8) =
    .ok .getTvLdo := by rfl

theorem test_decode_setTvLdo : decodeCommand (0b11#2 ++ 0b000#3 ++ 0b110#3 ++ 0b00111000#8 ++ 0b11111111#8) =
    .ok (.setTvLdo 0xFF) := by rfl

/-- R102: the bytes of the three frames. -/
theorem test_decode_frames :
    decodeTransaction (.write 0x48 [0b00101010]) = .ok (.w1 0x48 0x2A) ∧
    decodeTransaction (.write 0x48 [0b00101010, 0b00000101]) = .ok (.w2 0x48 0x2A 0x05) ∧
    decodeTransaction (.read 0x48 1) = .ok (.r1 0x48) := ⟨rfl, rfl, rfl⟩

/-- The illegal words of 2.1, by the clause of R100, at the ends of the clauses' ranges. -/
theorem test_decode_illegal :
    decodeCommand 0xB22A00 = .error .fieldLeavesByte ∧ decodeCommand 0xFA2A01 = .error .fieldLeavesByte ∧
    decodeCommand 0x060000 = .error .notWholeByte ∧ decodeCommand 0x7F06FF = .error .notWholeByte ∧
    decodeCommand 0x070001 = .error .valueNotZero ∧ decodeCommand 0x822A01 = .error .valueNotZero :=
  ⟨rfl, rfl, rfl, rfl, rfl, rfl⟩

/-- R61: a write of no byte or of three, a read of two: no frame. -/
theorem test_decode_frame_lengths :
    decodeTransaction (.write 0x48 []) = .error .frameLength ∧
    decodeTransaction (.write 0x48 [1, 2, 3]) = .error .frameLength ∧
    decodeTransaction (.read 0x48 2) = .error .frameLength := ⟨rfl, rfl, rfl⟩

/-- The rows of the opcode table, each with its operands zero (log 14 for the frames). -/
theorem test_table_rows :
    decodeTableWord 24 0x070000 = some (.rdReg 0) ∧ decodeTableWord 24 0x470000 = some (.wrReg 0 0) ∧
    decodeTableWord 24 0x800000 = some (.get 0 0 1) ∧ decodeTableWord 24 0xC00000 = some (.set 0 0 1 0) ∧
    decodeTableWord 24 0x822A00 = some .getEnSbb0 ∧ decodeTableWord 24 0xC22A00 = some (.setEnSbb0 0) ∧
    decodeTableWord 24 0x863800 = some .getTvLdo ∧ decodeTableWord 24 0xC63800 = some (.setTvLdo 0) ∧
    decodeTableWord 8 0x2A = some (.w1 0x48 0x2A) ∧ decodeTableWord 16 0x052A = some (.w2 0x48 0x2A 0x05) ∧
    decodeTableWord 0 0 = some (.r1 0x48) := by decide

/-! ## One step, on small states -/

/-- A state with the registers, the frame outcomes and the turns given, one controller in `IDLE` and the defaults of R8. -/
def at0 (regs : List Host.Cell) (bus : List BusDraw) (agenda : List Turn) : State :=
  { State.reset with regs := regs, bus := bus, agenda := agenda }

/-- The same with two controllers. -/
def at2 (regs : List Host.Cell) (bus : List BusDraw) (agenda : List Turn) : State :=
  { at0 regs bus agenda with
    ctls := [Ctl.idle, Ctl.idle]
    params := { defaultParams with targetDev := [0x48, 0x48] } }

/-- The result word of controller 0 and a register, after a step that answers a next state. -/
def seen (r : Byte) : Answer → Option (Option ResWord × Byte)
  | .next s => some ((s.ctls[0]?.bind Ctl.res).map Result.word, s.reg r)
  | .fault _ => none
  | .refused _ => none

/-- A3: a read of a read-clear register. -/
theorem test_rdReg_readClear : seen 0x00 (step (at0 [(0x00, 0x28)] [.ok, .ok] [.command 0 0x070000])) =
    some (some 0x0028, 0x00) := by decide

/-- A5: the second frame fails, its effect not applied. -/
theorem test_rdReg_fails : seen 0x00 (step (at0 [(0x00, 0x28)] [.ok, .fail false] [.command 0 0x070000])) =
    some (some 0x0900, 0x28) := by decide

/-- A11 -/
theorem test_wrReg : seen 0x2A (step (at0 [(0x2A, 0xA5)] [.ok] [.command 0 0x472A00])) =
    some (some 0x0000, 0x00) := by decide

/-- A14: a bit that `WMASK` does not let a write change. -/
theorem test_wrReg_mask : seen 0x18 (step { at0 [(0x18, 0x80)] [.ok] [.command 0 0x47187F] with
    params := { defaultParams with wmask := [(0x18, 0x7F)] } }) = some (some 0x0000, 0xFF) := by decide

/-- G6 -/
theorem test_get_top : seen 0x40 (step (at0 [(0x40, 0xDF)] [.ok, .ok] [.command 0 0xAA4000])) =
    some (some 0x0006, 0xDF) := by decide

/-- G10: a getter of one bit clears the whole read-clear register. -/
theorem test_get_readClear : seen 0x00 (step (at0 [(0x00, 0x28)] [.ok, .ok] [.command 0 0x980000])) =
    some (some 0x0001, 0x00) := by decide

/-- T4 -/
theorem test_set : seen 0x2A (step (at0 [(0x2A, 0xA5)] [.ok, .ok, .ok, .ok, .ok] [.command 0 0xE12A03])) =
    some (some 0x0003, 0xB5) := by decide

/-- T35: the pointer frame of the verify read fails: the byte was written. -/
theorem test_set_fails : seen 0x2A (step (at0 [(0x2A, 0xA5)] [.ok, .ok, .ok, .fail false] [.command 0 0xE12A03])) =
    some (some 0x0B00, 0xB5) := by decide

/-- G3 -/
theorem test_getEnSbb0 : seen 0x2A (exec .getEnSbb0 (at0 [(0x2A, 0xFF)] [.ok, .ok] [])) =
    some (some 0x0007, 0xFF) := by decide

/-- T2 -/
theorem test_setEnSbb0 : seen 0x2A (exec (.setEnSbb0 0x05) (at0 [(0x2A, 0xF8)] [.ok, .ok, .ok, .ok, .ok] [])) =
    some (some 0x0005, 0xFD) := by decide

/-- G4 -/
theorem test_getTvLdo : seen 0x38 (exec .getTvLdo (at0 [(0x38, 0xD0)] [.ok, .ok] [])) =
    some (some 0x0050, 0xD0) := by decide

/-- T14: truncated, and the requested value is not what reads back (S3). -/
theorem test_setTvLdo_truncates : seen 0x38 (exec (.setTvLdo 0xFF) (at0 [] [.ok, .ok, .ok, .ok, .ok] [])) =
    some (some 0x047F, 0x7F) := by decide

/-- T15: the same under `REJECT`; no outcome is fixed and none is needed. -/
theorem test_setTvLdo_rejects : seen 0x38 (exec (.setTvLdo 0xFF) { at0 [] [] [] with
    params := { defaultParams with rangePolicy := .reject } }) = some (some 0x0C00, 0x00) := by decide

/-- What a bare frame replied, with the pointer, after a step that answers a next state. -/
def replied : Answer → Option (Option (Reply (Option Byte)) × Byte)
  | .next s => some (s.reply, s.ptr)
  | .fault _ => none
  | .refused _ => none

/-- F1, F2 -/
theorem test_w1 : replied (step (at0 [] [.ok] [.frame (.write 0x48 [0x2A])])) = some (some (.ok none), 0x2A) ∧
    replied (step (at0 [] [.ok] [.frame (.write 0x40 [0x2A])])) = some (some .fail, 0x00) := by decide

/-- F3, F6 -/
theorem test_w2 : seen 0x2A (exec (.w2 0x48 0x2A 0x05) (at0 [] [.ok] [])) = some (none, 0x05) ∧
    seen 0x11 (exec (.w2 0x48 0x11 0x00) (at0 [(0x11, 0x7A)] [.ok] [])) = some (none, 0x7A) := by decide

/-- F9: the byte, and the read-clear effect. -/
theorem test_r1 : seen 0x00 (exec (.r1 0x48) (at0 [(0x00, 0x28)] [.ok] [])) = some (none, 0x00) ∧
    (match exec (.r1 0x48) (at0 [(0x00, 0x28)] [.ok] []) with
      | .next s => s.reply
      | .fault _ => none
      | .refused _ => none) = some (.ok (some 0x28)) := by decide

/-- K1, K2, K5, K7: the first failing check in R225's order decides. -/
theorem test_check_order :
    seen 0x2A (step (at0 [] [] [.command 0 0xFA0802])) = some (some 0x1400, 0x00) ∧
    seen 0x2A (step (at0 [] [] [.command 0 0xFA0002])) = some (some 0x1400, 0x00) ∧
    seen 0x2A (step { at0 [] [] [.command 0 0xC00002] with
      params := { defaultParams with rangePolicy := .reject } }) = some (some 0x1000, 0x00) ∧
    seen 0x2A (step { at0 [] [] [.command 0 0xC02A02] with
      params := { defaultParams with rangePolicy := .reject } }) = some (some 0x0C00, 0x00) := by decide

/-- R204 by hand: `0x05 | (0x82 & 0xFF)`; R205: the byte replaced. -/
theorem test_events : seen 0x00 (step (at0 [(0x00, 0x05)] [] [.eventSet 0x00 0x82])) = some (none, 0x87) ∧
    seen 0x02 (step (at0 [(0x02, 0x05)] [] [.statusUpd 0x02 0x80])) = some (none, 0x80) := by decide

/-- Inputs that the spec does not admit are refused by name (R61, R204, R205, R243). -/
theorem test_refusals :
    step (at0 [] [] [.eventSet 0x06 0x01]) = .refused .eventNotAdmitted ∧
    step (at0 [] [] [.statusUpd 0x11 0x01]) = .refused .statusNotAdmitted ∧
    step (at0 [] [] [.frame (.read 0x48 2)]) = .refused .frameLength ∧
    step (at0 [] [] [.command 1 0x071100]) = .refused .noController := ⟨rfl, rfl, rfl, rfl⟩

/-- R27: the first two arrows of `RD_REG`. -/
theorem test_phases : (match stepN 3 (at0 [] [.ok] [.present 0 0x071100, .phase 0, .phase 0]) with
      | .next s => (s.ctls.map Ctl.phase, s.ptr)
      | .fault _ => ([], 0)
      | .refused _ => ([], 0)) = ([.rdData], 0x11) := by decide

/-- R27, D4: the result of a read taken in `DONE`: `IDLE`, every latch empty; the register file untouched. -/
theorem test_take : (match stepN 2 (at0 [] [.ok, .ok] [.command 0 0x071100, .take 0]) with
      | .next s => s.ctls
      | .fault _ => []
      | .refused _ => []) = [Ctl.idle] := by decide

/-- R180: `set_F` exists for a writable kind on an `RW` register; a row that calls an `RC` or `RO` register writable has
none. -/
theorem test_setterOf :
    setterOf ⟨"EN_SBB0", 0x2A, some 0, some 3, some .rw⟩ 0x05 = some (.set 0x2A 0 3 0x05) ∧
    setterOf ⟨"EVENT", 0x00, some 0, some 1, some .rw⟩ 0x01 = none ∧
    setterOf ⟨"STATUS", 0x02, some 0, some 1, some .rw⟩ 0x01 = none := by decide

/-- The instruction of a table word is what the first step after reset runs. -/
theorem test_fetch :
    step (State.reset.withFetchWord 24 0x071100) = exec (.rdReg 0x11) State.reset ∧
    step (State.reset.withFetchWord 24 0xC63850) = exec (.setTvLdo 0x50) State.reset ∧
    step (State.reset.withFetchWord 8 0x2A) = exec (.w1 0x48 0x2A) State.reset ∧
    step (State.reset.withFetchWord 0 0) = exec (.r1 0x48) State.reset := ⟨rfl, rfl, rfl, rfl⟩

/-! ## Hypotheses that can be met: one witness for each obligation that has any -/

theorem witness_DecodeOfEncodeIsTheInstruction :
    Instr.wellFormed (.get 0x2A 7 1) = true ∧ Instr.wellFormed (.set 0x38 0 8 0xFF) = true := by decide

theorem witness_EveryWordSpellsAtMostOneCommand : decodeCore 0xB82A00 = .ok (.get 0x2A 7 1) := by rfl

theorem witness_CommandWordsAsNumbers : descriptorLegal 7 1 = true ∧ descriptorLegal 0 8 = true := by decide

theorem witness_ExtractAfterInsert : legalField 7 1 = true ∧ legalField 0 8 = true ∧ (0x01 : Byte) ≤ maskGen 1 := by
  decide

/-- Two disjoint fields that touch, and two that overlap. -/
theorem witness_InsertPreservesOutsideTheField :
    legalField 0 3 = true ∧ legalField 3 5 = true ∧ fieldMask 3 5 &&& fieldMask 0 3 = 0 ∧
    legalField 2 6 = true ∧ fieldMask 2 6 &&& fieldMask 0 3 ≠ 0 := by decide

theorem witness_InsertDependsOnTruncatedValue : legalField 7 1 = true ∧ legalField 0 8 = true := by decide

theorem witness_InsertIdempotentAndLastWins : legalField 7 1 = true ∧ legalField 0 8 = true := by decide

theorem witness_DisjointInsertsCommute :
    legalField 0 7 = true ∧ legalField 7 1 = true ∧ fieldMask 0 7 &&& fieldMask 7 1 = 0 := by decide

theorem witness_ByteIsPreservedPartAndField : legalField 7 1 = true ∧ legalField 0 8 = true := by decide

theorem witness_InRangeMeansUnchangedByTheMask : 1 ≤ 1 ∧ 1 ≤ 8 ∧ 1 ≤ 8 ∧ 8 ≤ 8 := by decide

theorem witness_FrameToAnotherDeviceFails : (0x40 : DevAddr) ≠ (at0 [] [] []).params.devAddr := by decide

theorem witness_PointerFrameSetsPointer :
    (0x48 : DevAddr) = (at0 [] [.ok] []).params.devAddr ∧ (at0 [] [.ok] []).bus = [.ok] := ⟨rfl, rfl⟩

theorem witness_WriteFrameWritesUnderTheMask :
    (0x48 : DevAddr) = (at0 [] [.ok] []).params.devAddr ∧ (at0 [] [.ok] []).bus = [.ok] ∧
    mapped 0x2A = true ∧ mapped 0x08 = false := ⟨rfl, rfl, rfl, rfl⟩

/-- A mapped pointer, and an unmapped one. -/
theorem witness_ReadFrameDeliversAndClears :
    (0x48 : DevAddr) = (at0 [] [.ok] []).params.devAddr ∧ (at0 [] [.ok] []).bus = [.ok] ∧
    mapped (at0 [] [.ok] []).ptr = true ∧ mapped ((at0 [] [.ok] []).setPtr 0x08).ptr = false := ⟨rfl, rfl, rfl, rfl⟩

theorem witness_UnsuccessfulFrameIsAllOrNothing :
    (0x48 : DevAddr) = (at0 [] [] []).params.devAddr ∧
    (∃ t, exec (.w1 0x48 0x2A) { at0 [] [] [] with bus := [.ok] } = .next t) ∧
    (∃ t, exec (.w2 0x48 0x2A 0x05) { at0 [] [] [] with bus := [.ok] } = .next t) ∧
    (∃ t, exec (.r1 0x48) { at0 [] [] [] with bus := [.ok] } = .next t) := ⟨rfl, ⟨_, rfl⟩, ⟨_, rfl⟩, ⟨_, rfl⟩⟩

/-- With an address to which each of the last two clauses applies. -/
theorem witness_FramesChangeOnlyTheAddressedRegister :
    (∃ t, exec (.w1 0x48 0x2A) (at0 [] [.ok] []) = .next t) ∧
    (∃ t, exec (.w2 0x48 0x2A 0x05) (at0 [] [.ok] []) = .next t) ∧
    (∃ t, exec (.r1 0x48) (at0 [] [.ok] []) = .next t) ∧
    ((0x2B : Byte) ≠ 0x2A ∨ classOf 0x2B ≠ some .rw) ∧ ((0x11 : Byte) ≠ 0x11 ∨ classOf 0x11 ≠ some .rw) ∧
    ((0x01 : Byte) ≠ (at0 [] [.ok] []).ptr ∨ classOf 0x01 ≠ some .rc) :=
  ⟨⟨_, rfl⟩, ⟨_, rfl⟩, ⟨_, rfl⟩, by decide, by decide, by decide⟩

/-- What a command needs to run to its end, with `n` successes to come. -/
theorem serves_at0 (regs : List Host.Cell) (n : Nat) (rest : List BusDraw) :
    (at0 regs (List.replicate n .ok ++ rest) []).Serves n rest := ⟨⟨Ctl.idle, rfl, rfl⟩, rfl, rfl⟩

theorem witness_RdRegReturnsTheRegister :
    (at0 [] [.ok, .ok] []).Serves 2 [] ∧ mapped 0x00 = true ∧ mapped 0x46 = true := ⟨serves_at0 [] 2 [], rfl, rfl⟩

theorem witness_WrRegWritesTheRegister :
    (at0 [] [.ok] []).Serves 1 [] ∧ mapped 0x00 = true ∧ mapped 0x46 = true := ⟨serves_at0 [] 1 [], rfl, rfl⟩

theorem witness_GetReturnsTheField :
    (at0 [] [.ok, .ok] []).Serves 2 [] ∧ mapped 0x46 = true ∧ 1 ≤ 1 ∧ 7 + 1 ≤ 8 :=
  ⟨serves_at0 [] 2 [], rfl, by decide, by decide⟩

theorem witness_SetInsertsWritesAndVerifies :
    (at0 [] [.ok, .ok, .ok, .ok, .ok] []).Serves 5 [] ∧ classOf 0x2A = some .rw ∧ 1 ≤ 1 ∧ 7 + 1 ≤ 8 ∧
    (at0 [] [.ok, .ok, .ok, .ok, .ok] []).params.rangePolicy = .truncate ∧ (0x01 : Byte) ≤ maskGen 1 :=
  ⟨serves_at0 [] 5 [], rfl, by decide, by decide, rfl, by decide⟩

/-- A row whose position is known, and one whose position is not (R40). -/
theorem witness_NamedGettersReturnTheirFields :
    getterOf ⟨"EN_SBB0", 0x2A, some 0, some 3, some .rw⟩ = some (.get 0x2A 0 3) ∧
    getterOf ⟨"CHG_EN", 0x19, none, none, some .rw⟩ = none ∧ (at0 [] [.ok, .ok] []).Serves 2 [] :=
  ⟨rfl, rfl, serves_at0 [] 2 []⟩

theorem witness_NamedSettersSetTheirFields :
    setterOf ⟨"TV_LDO", 0x38, some 0, some 7, some .rw⟩ 0x7F = some (.set 0x38 0 7 0x7F) ∧
    (at0 [] [.ok, .ok, .ok, .ok, .ok] []).Serves 5 [] ∧
    (at0 [] [.ok, .ok, .ok, .ok, .ok] []).params.rangePolicy = .truncate ∧ (0x07 : Byte) ≤ 0x07 ∧ (0x7F : Byte) ≤ 0x7F :=
  ⟨rfl, serves_at0 [] 5 [], rfl, by decide, by decide⟩

/-- A state under `REJECT`, and for each clause an address and a descriptor. -/
theorem witness_StaticChecksRefuseInOrder :
    let s := { at0 [] [] [] with params := { defaultParams with rangePolicy := .reject } }
    s.ctl? = some Ctl.idle ∧ Ctl.idle.accepts = true ∧ mapped 0x08 = false ∧ mapped 0x46 = true ∧ mapped 0x47 = false ∧
    ¬ (1 ≤ 0 ∧ 0 + 0 ≤ 8) ∧ ¬ (1 ≤ 2 ∧ 7 + 2 ≤ 8) ∧ (1 ≤ 1 ∧ 7 + 1 ≤ 8) ∧ classOf 0x11 = some .ro ∧
    classOf 0x04 = some .rc ∧ classOf 0x2A = some .rw ∧ s.params.rangePolicy = .reject ∧ maskGen 1 < (0x02 : Byte) :=
  ⟨rfl, rfl, rfl, rfl, rfl, by decide, by decide, by decide, rfl, rfl, rfl, rfl, by decide⟩

theorem witness_IllegalWordCompletesWithInvalidDescriptor :
    (at0 [] [] [.command 0 0xB22A00]).ctls[0]? = some Ctl.idle ∧ Ctl.idle.accepts = true ∧
    decodeCore 0xB22A00 = .error .fieldLeavesByte ∧
    (at0 [] [] [.command 0 0xB22A00]).agenda = [.command 0 0xB22A00] := ⟨rfl, rfl, rfl, rfl⟩

/-- The first and the last frame that can fail, for each clause, and of `SET` the last of each register access. -/
theorem witness_FirstFailedFrameEndsTheCommand :
    (∀ k < 5, (at0 [] (List.replicate k .ok ++ [.fail true]) []).Serves k [.fail true]) ∧ 1 ≤ 1 ∧ 7 + 1 ≤ 8 ∧
    mapped 0x46 = true ∧ readsOnly 0x46 (.rdReg 0x46) ∧ readsOnly 0x46 (.get 0x46 7 1) ∧ classOf 0x46 = some .rw ∧
    (at0 [] [] []).params.rangePolicy = .truncate :=
  ⟨fun k _ => serves_at0 [] k [.fail true], by decide, by decide, rfl, .inl rfl, .inr ⟨7, 1, rfl, rfl⟩, rfl, rfl⟩

/-- R176 by hand: at `k = 1` the first read failed and `SET` has latched nothing; at `k = 2` the write failed, with the
byte of the first read (0xA5) in `CUR` and the merged byte (0xA7) in `NEW`. -/
theorem test_set_fails_latches :
    (match exec (.set 0x2A 1 1 1) (at0 [(0x2A, 0xA5)] [.ok, .fail true] []) with
      | .next s => s.ctls.map fun c => (c.phase, c.cur, c.new, c.rb)
      | .fault _ => []
      | .refused _ => []) = [(.done, none, none, none)] ∧
    (match exec (.set 0x2A 1 1 1) (at0 [(0x2A, 0xA5)] [.ok, .ok, .fail true] []) with
      | .next s => s.ctls.map fun c => (c.phase, c.cur, c.new, c.rb)
      | .fault _ => []
      | .refused _ => []) = [(.done, some 0xA5, some 0xA7, none)] := by decide

theorem witness_WrongDeviceHandleFailsEveryCommand :
    let s := { at0 [] [] [] with params := { defaultParams with targetDev := [0x40] } }
    s.ctl? = some Ctl.idle ∧ Ctl.idle.accepts = true ∧ s.target ≠ s.params.devAddr ∧ mapped 0x46 = true ∧ 1 ≤ 1 ∧
    7 + 1 ≤ 8 ∧ classOf 0x46 = some .rw ∧ s.params.rangePolicy = .truncate :=
  ⟨rfl, rfl, by decide, rfl, by decide, by decide, rfl, rfl⟩

/-- The first and the last frame that can hang, for each clause; and in the last clause, a controller whose read of 0x11
never completes, at each of the four kinds of turn that are its own. -/
theorem witness_FrameThatNeverCompletesHoldsTheController :
    (∀ k < 5, (at0 [] (List.replicate k .ok ++ [.never true]) []).Serves k [.never true]) ∧ 1 ≤ 1 ∧ 7 + 1 ≤ 8 ∧
    mapped 0x11 = true ∧ readsOnly 0x11 (.rdReg 0x11) ∧ readsOnly 0x11 (.get 0x11 7 1) ∧ classOf 0x2A = some .rw ∧
    (at0 [] [] []).params.rangePolicy = .truncate ∧
    ∀ t ∈ [Turn.command 0 0x071100, .present 0 0x071100, .phase 0, .take 0],
      let c : Ctl := { Ctl.idle with phase := .rdPtr, cmd := some 0x071100, waiting := true }
      let s := { at0 [] [] [t] with ctls := [c] }
      s.ctls[0]? = some c ∧ c.waiting = true ∧ t.controller? = some 0 ∧ s.agenda = [t] :=
  ⟨fun k _ => serves_at0 [] k [.never true], by decide, by decide, rfl, .inl rfl, .inr ⟨7, 1, rfl, rfl⟩, rfl, rfl,
    by decide⟩

theorem witness_BusyControllerAcceptsNothing :
    let c : Ctl := { Ctl.idle with phase := .check, cmd := some 0x071100 }
    ({ at0 [] [] [] with ctls := [c] } : State).ctl? = some c ∧ c.accepts = false ∧ registerOf (.rdReg 0x11) ≠ none :=
  ⟨rfl, rfl, by decide⟩

/-- A frame that fails at its second byte is among the runs. -/
theorem witness_CommandsChangeOnlyTheNamedRegister :
    registerOf (.set 0x2A 0 3 5) = some 0x2A ∧
    (∃ t, exec (.set 0x2A 0 3 5) (at0 [] [.ok, .fail true] []) = .next t) ∧ registerOf .getTvLdo = some 0x38 ∧
    ∃ t, exec .getTvLdo (at0 [] [.ok, .ok] []) = .next t := ⟨rfl, ⟨_, rfl⟩, rfl, ⟨_, rfl⟩⟩

/-- An `RO`, an `RW` and an `RC` register, the last read by both commands. -/
theorem witness_ReadsChangeOnlyReadClearRegisters :
    classOf 0x11 = some .ro ∧ classOf 0x2A = some .rw ∧ classOf 0x04 = some .rc ∧
    readsOnly 0x04 (.rdReg 0x04) ∧ (∃ t, exec (.rdReg 0x04) (at0 [(0x04, 0x28)] [.ok, .ok] []) = .next t) ∧
    readsOnly 0x04 (.get 0x04 3 1) ∧ (∃ t, exec (.get 0x04 3 1) (at0 [(0x04, 0x28)] [.ok, .ok] []) = .next t) ∧
    readsOnly 0x11 (.rdReg 0x11) ∧ (∃ t, exec (.rdReg 0x11) (at0 [] [.ok, .ok] []) = .next t) ∧
    readsOnly 0x2A (.get 0x2A 0 8) ∧ ∃ t, exec (.get 0x2A 0 8) (at0 [] [.ok, .ok] []) = .next t :=
  ⟨rfl, rfl, rfl, .inl rfl, ⟨_, rfl⟩, .inr ⟨3, 1, rfl, rfl⟩, ⟨_, rfl⟩, .inl rfl, ⟨_, rfl⟩, .inr ⟨0, 8, rfl, rfl⟩,
    ⟨_, rfl⟩⟩

/-- The last address of each list. -/
theorem witness_WriteToProtectedRegisterIsIgnored :
    (at0 [] [.ok] []).Serves 1 [] ∧
    ((0x04 : Byte) = 0x00 ∨ (0x04 : Byte) = 0x01 ∨ (0x04 : Byte) = 0x04) ∧
    ((0x11 : Byte) = 0x02 ∨ (0x11 : Byte) = 0x03 ∨ (0x11 : Byte) = 0x05 ∨ (0x11 : Byte) = 0x11) :=
  ⟨serves_at0 [] 1 [], by decide, by decide⟩

theorem witness_SetPreservesOtherFields :
    legalField 0 3 = true ∧
    (∃ t, exec (.set 0x2A 0 3 5) (at0 [] [.ok, .ok, .ok, .ok, .ok] []) = .next t) ∧ legalField 3 5 = true ∧
    fieldMask 3 5 &&& fieldMask 0 3 = 0 := ⟨rfl, ⟨_, rfl⟩, rfl, by decide⟩

/-- A run for each result that a clause is about, by the kind and the step of the word seen. -/
theorem witness_SetLeavesOldOrNewByteByResult :
    (at0 [] [] []).ctl? = some Ctl.idle ∧ Ctl.idle.accepts = true ∧
    seen 0x11 (exec (.set 0x11 0 8 0xAA) (at0 [] [] [])) = some (some 0x1000, 0x00) ∧
    seen 0x2A (exec (.set 0x2A 0 3 5) (at0 [] [.fail false] [])) = some (some 0x0900, 0x00) ∧
    seen 0x2A (exec (.set 0x2A 0 3 5) (at0 [] [.ok, .ok, .fail true] [])) = some (some 0x0A00, 0x05) ∧
    seen 0x2A (exec (.set 0x2A 0 3 5) (at0 [] [.ok, .ok, .ok, .fail true] [])) = some (some 0x0B00, 0x05) ∧
    seen 0x2A (exec (.set 0x2A 0 3 9) (at0 [] [.ok, .ok, .ok, .ok, .ok] [])) = some (some 0x0401, 0x01) ∧
    seen 0x2A (exec (.set 0x2A 0 3 5) (at0 [] [.ok, .ok, .ok, .ok, .ok] [])) = some (some 0x0005, 0x05) := by
  refine ⟨rfl, rfl, ?_, ?_, ?_, ?_, ?_, ?_⟩ <;> decide

theorem witness_SetNeverConsumesEvents :
    classOf 0x00 = some .rc ∧ (∃ t, exec (.set 0x00 3 1 0) (at0 [(0x00, 0x28)] [] []) = .next t) ∧
    ∃ t, exec (.set 0x2A 0 3 5) (at0 [(0x00, 0x28)] [.ok, .ok, .ok, .ok, .ok] []) = .next t :=
  ⟨rfl, ⟨_, rfl⟩, ⟨_, rfl⟩⟩

theorem witness_SetThenGetReturnsTheValue :
    let s := at0 [] [.ok, .ok, .ok, .ok, .ok, .ok, .ok] []
    s.Serves 7 [] ∧ classOf 0x2A = some .rw ∧ legalField 7 1 = true ∧
    fieldMask 7 1 &&& ~~~(writeMask s.params 0x2A) = 0 ∧ (0x01 : Byte) ≤ maskGen 1 :=
  ⟨serves_at0 [] 7 [], rfl, rfl, by decide, by decide⟩

theorem witness_SecondReadOfReadClearIsZero :
    (at0 [(0x04, 0x28)] [.ok, .ok, .ok, .ok] []).Serves 4 [] ∧
    ((0x04 : Byte) = 0x00 ∨ (0x04 : Byte) = 0x01 ∨ (0x04 : Byte) = 0x04) ∧
    readsOnly 0x04 (.rdReg 0x04) ∧ readsOnly 0x04 (.get 0x04 3 1) :=
  ⟨serves_at0 _ 4 [], by decide, .inl rfl, .inr ⟨3, 1, rfl, rfl⟩⟩

theorem witness_EventSetOrsBits :
    (at0 [] [] [.eventSet 0x04 0x80]).agenda = [.eventSet 0x04 0x80] ∧
    ((0x04 : Byte) = 0x00 ∨ (0x04 : Byte) = 0x01 ∨ (0x04 : Byte) = 0x04) := ⟨rfl, by decide⟩

theorem witness_StatusUpdReplacesTheByte :
    (at0 [] [] [.statusUpd 0x05 0x80]).agenda = [.statusUpd 0x05 0x80] ∧
    ((0x05 : Byte) = 0x02 ∨ (0x05 : Byte) = 0x03 ∨ (0x05 : Byte) = 0x05) := ⟨rfl, .inr (.inr rfl)⟩

theorem witness_OnlyEventSetRaisesEventBits :
    ∃ t, step (at0 [] [] [.eventSet 0x00 0x80]) = .next t ∧ classOf 0x00 = some .rc ∧
      ((at0 [] [] [.eventSet 0x00 0x80]).reg 0x00).getLsbD 7 = false ∧ (t.reg 0x00).getLsbD 7 = true :=
  ⟨_, rfl, rfl, by decide, by decide⟩

/-- A write to the Chip ID register, and an `RO` register that changes. -/
theorem witness_ChipIdNeverChanges :
    (∃ t, step (at0 [(0x11, 0x7A)] [.ok] [.command 0 0x471100]) = .next t) ∧
    ∃ t, step (at0 [] [] [.statusUpd 0x05 0x80]) = .next t ∧ classOf 0x05 = some .ro ∧
      t.reg 0x05 ≠ (at0 [] [] [.statusUpd 0x05 0x80]).reg 0x05 := ⟨⟨_, rfl⟩, _, rfl, rfl, by decide⟩

/-- A change by a command, one by a phase, and one by a bare frame. -/
theorem witness_ConfigurationChangesOnlyByBusWrites :
    (∃ t, step (at0 [] [.ok] [.command 0 0x4706FF]) = .next t ∧ classOf 0x06 = some .rw ∧
      t.reg 0x06 ≠ (at0 [] [.ok] [.command 0 0x4706FF]).reg 0x06) ∧
    ∃ t, step (at0 [] [.ok] [.frame (.write 0x48 [0x06, 0xFF])]) = .next t ∧
      t.reg 0x06 ≠ (at0 [] [.ok] [.frame (.write 0x48 [0x06, 0xFF])]).reg 0x06 :=
  ⟨⟨_, rfl, rfl, by decide⟩, ⟨_, rfl, by decide⟩⟩

theorem witness_StepRunsTheDecodedInstruction :
    (at0 [] [] [.command 0 0x071100]).agenda = [.command 0 0x071100] ∧
    decodeCommand 0x071100 = .ok (.rdReg 0x11) ∧
    (at0 [] [] [.frame (.read 0x48 1)]).agenda = [.frame (.read 0x48 1)] ∧
    decodeTransaction (.read 0x48 1) = .ok (.r1 0x48) := ⟨rfl, rfl, rfl, rfl⟩

theorem witness_PhaseByPhaseIsTheWholeCommand :
    let s := at0 [] [] (.present 0 0xC22A05 :: (List.replicate 7 (.phase 0) ++ []))
    s.ctls[0]? = some Ctl.idle ∧ Ctl.idle.phase = .idle ∧ Ctl.idle.waiting = false ∧
    s.agenda = .present 0 0xC22A05 :: (List.replicate 7 (.phase 0) ++ []) := ⟨rfl, rfl, rfl, rfl⟩

/-- An idle controller to which a word is presented, one in `WR_FRAME` of a `SET` at its phase, one in `DONE` whose result
is taken. -/
theorem witness_PhaseTurnFollowsTheTable :
    let c : Ctl := { Ctl.idle with phase := .wrFrame, cmd := some 0xC22A05, cur := some 0xF8, new := some 0xFD }
    let d : Ctl := { Ctl.idle with phase := .done, cmd := some 0x071100, cur := some 0x7A, res := some ⟨.ok, .none, 0x7A⟩ }
    let s := { at0 [] [] [.phase 0] with ctls := [c] }
    let u := { at0 [] [] [.take 0] with ctls := [d] }
    s.ctls[0]? = some c ∧ c.consistent s.params = true ∧ s.agenda = [.phase 0] ∧
    (at0 [] [] [.present 0 0x071100]).ctls[0]? = some Ctl.idle ∧ Ctl.idle.consistent defaultParams = true ∧
    (at0 [] [] [.present 0 0x071100]).agenda = [.present 0 0x071100] ∧
    u.ctls[0]? = some d ∧ d.consistent u.params = true ∧ u.agenda = [.take 0] :=
  ⟨rfl, by decide, rfl, rfl, by decide, rfl, rfl, by decide, rfl⟩

/-- A turn of controller 0 beside controller 1, and a turn of no controller. -/
theorem witness_ControllersShareNoState :
    (∃ t, step (at2 [] [.ok, .ok] [.command 0 0x071100]) = .next t) ∧ (Turn.command 0 0x071100).controller? ≠ some 1 ∧
    (∃ t, step (at2 [] [] [.eventSet 0x00 0x01]) = .next t) ∧ (Turn.eventSet 0x00 0x01).controller? ≠ some 0 :=
  ⟨⟨_, rfl⟩, by decide, ⟨_, rfl⟩, by decide⟩

theorem witness_ParametersNeverChange : ∃ t, step (at0 [] [.ok] [.command 0 0x4706FF]) = .next t := ⟨_, rfl⟩

theorem witness_ResetLeavesTheResetValues : Memory.wf ({ defaultParams with reset := [(0x11, 0x7A)] } : Params).reset := by
  decide

theorem witness_ResetMeetsTheInvariant :
    legalParams { defaultParams with reset := [(0x11, 0x7A)], targetDev := [0x48, 0x40] } = true := by decide

theorem witness_EveryStepKeepsTheInvariant :
    State.Inv (at0 [(0x2A, 0xA5)] [] [.present 0 0xC22A05]) ∧ ∃ t, step (at0 [(0x2A, 0xA5)] [] [.present 0 0xC22A05]) = .next t :=
  ⟨⟨by decide, by decide, by decide, by decide, by decide⟩, ⟨_, rfl⟩⟩

theorem witness_NoFaultUnderTheInvariant :
    State.Inv (at0 [(0x2A, 0xA5)] [] [.present 0 0xC22A05]) ∧
    (at0 [(0x2A, 0xA5)] [] [.present 0 0xC22A05]).agenda.head? = some (.present 0 0xC22A05) ∧
    (Turn.present 0 0xC22A05).admitted (at0 [(0x2A, 0xA5)] [] [.present 0 0xC22A05]).ctls.length = true :=
  ⟨⟨by decide, by decide, by decide, by decide, by decide⟩, rfl, rfl⟩

/-- The turns of a serialized run: before, between and after the phases the other controller accepts an illegal word,
refuses it, and its result is taken; its requester has another refused at once; controller 0 is presented a word it does
not accept; and the event source steps. -/
def serializedTurns : List Turn :=
  [.eventSet 0x00 0x01, .present 1 0x000000, .phase 0, .phase 1, .phase 0, .take 1, .phase 0, .phase 0,
    .command 1 0x070800, .present 0 0x071100, .phase 0, .phase 0, .statusUpd 0x02 0xFF]

/-- The state in which that run begins. -/
def serializedStart : State :=
  at2 [(0x2A, 0xA5)] (List.replicate 5 .ok ++ [])
    (.present 0 (encodeSet 0x2A 7 1 0x01) :: (serializedTurns ++ .phase 0 :: []))

theorem witness_SerializedSetSucceedsAmongEvents :
    serializedStart.Inv ∧ serializedStart.ctls[0]? = some Ctl.idle ∧ Ctl.idle.phase = .idle ∧
    serializedStart.params.targetDev.getD 0 primaryDevAddr = serializedStart.params.devAddr ∧
    serializedStart.bus = List.replicate 5 .ok ++ [] ∧ classOf 0x2A = some .rw ∧ legalField 7 1 = true ∧
    fieldMask 7 1 &&& ~~~(writeMask serializedStart.params 0x2A) = 0 ∧ (0x01 : Byte) ≤ maskGen 1 ∧
    serializedStart.agenda = .present 0 (encodeSet 0x2A 7 1 0x01) :: (serializedTurns ++ .phase 0 :: []) ∧
    (∀ x ∈ serializedTurns, x.admitted serializedStart.ctls.length = true) ∧
    (∀ x, Turn.frame x ∉ serializedTurns) ∧ serializedTurns.count (.phase 0) = 6 ∧ Serialized (serializedTurns.length + 2) serializedStart := by
  refine ⟨⟨by decide, by decide, by decide, by decide, by decide⟩, rfl, rfl, rfl, rfl, rfl, rfl, by decide, by decide, rfl,
    by decide, by simp [serializedTurns], by decide, serialized_of_check ?_⟩
  decide

/-- The second clause: one controller; and a run that the premise excludes, another's frame in the middle of a command. -/
theorem witness_SerializedSetSucceedsAmongEvents_one :
    (at0 [] [] [.command 0 0x071100]).ctls.length = 1 ∧
    (at2 [] [.ok] [.present 0 0x071100, .command 1 0x071100]).keepsLock = true ∧
    ¬ Serialized 2 (at2 [] [.ok] [.present 0 0x071100, .command 1 0x071100]) :=
  ⟨rfl, by decide, fun h => absurd (h.2 _ rfl).1 (by decide)⟩

theorem witness_ResultWords : (0x00 : Byte) ≠ 0xFF := by decide

/-- Two fields that touch: bits 4 to 2 and bits 1 to 0. -/
theorem witness_LostUpdateBetweenTwoSetters :
    let s := at2 [] (List.replicate 10 .ok ++ []) [.present 1 (encodeSet 0x19 0 2 0x03), .phase 1, .phase 1, .phase 1,
      .command 0 (encodeSet 0x19 2 3 0x05), .phase 1, .phase 1, .phase 1, .phase 1]
    s.ctls = [Ctl.idle, Ctl.idle] ∧ s.params.targetDev = [s.params.devAddr, s.params.devAddr] ∧
    s.bus = List.replicate 10 .ok ++ [] ∧ classOf 0x19 = some .rw ∧ writeMask s.params 0x19 = 0xFF ∧
    legalField 2 3 = true ∧ legalField 0 2 = true ∧ fieldMask 2 3 &&& fieldMask 0 2 = 0 ∧
    (0x05 : Byte) ≤ maskGen 3 ∧ (0x03 : Byte) ≤ maskGen 2 ∧
    s.agenda = [.present 1 (encodeSet 0x19 0 2 0x03), .phase 1, .phase 1, .phase 1,
      .command 0 (encodeSet 0x19 2 3 0x05), .phase 1, .phase 1, .phase 1, .phase 1] :=
  ⟨rfl, rfl, rfl, rfl, rfl, rfl, rfl, by decide, by decide, by decide, rfl⟩

/-- The spec's numbers. -/
theorem witness_FalseMismatchFromConcurrentWriter :
    let turns : List Turn := [.present 1 (encodeSet 0x19 0 1 0x01), .phase 1, .phase 1, .phase 1,
      .present 0 (encodeSet 0x19 2 3 0x05), .phase 0, .phase 0, .phase 0, .phase 0, .phase 0, .phase 1, .phase 1, .phase 0,
      .phase 0, .phase 1, .phase 1]
    let s := at2 [] (List.replicate 10 .ok ++ []) turns
    encodeSet 0x19 0 1 0x01 = 0xC01901 ∧ encodeSet 0x19 2 3 0x05 = 0xD21905 ∧
    s.ctls = [Ctl.idle, Ctl.idle] ∧ s.params.targetDev = [s.params.devAddr, s.params.devAddr] ∧
    s.bus = List.replicate 10 .ok ++ [] ∧ classOf 0x19 = some .rw ∧ writeMask s.params 0x19 = 0xFF ∧
    legalField 2 3 = true ∧ legalField 0 1 = true ∧ fieldMask 2 3 &&& fieldMask 0 1 = 0 ∧
    (0x05 : Byte) ≤ maskGen 3 ∧ (0x01 : Byte) ≤ maskGen 1 ∧ extract (s.reg 0x19) 2 3 ≠ 0x05 ∧ s.agenda = turns :=
  ⟨rfl, rfl, rfl, rfl, rfl, rfl, rfl, rfl, rfl, by decide, by decide, by decide, by decide, rfl⟩

/-- The spec's numbers, for the clause of a read-clear register; and 0x06, for that of another. -/
theorem witness_PointerInterleavingReadsTheWrongRegister :
    ∀ b ∈ [(0x00 : Byte), 0x06],
    let turns : List Turn := [.present 0 (encodeRdReg 0x2A), .phase 0, .phase 0, .present 1 (encodeRdReg b), .phase 1,
      .phase 1, .phase 0, .phase 1]
    let s := at2 [(0x00, 0x28)] (List.replicate 4 .ok ++ []) turns
    s.ctls = [Ctl.idle, Ctl.idle] ∧ s.params.targetDev = [s.params.devAddr, s.params.devAddr] ∧
    s.bus = List.replicate 4 .ok ++ [] ∧ mapped 0x2A = true ∧ mapped b = true ∧ s.agenda = turns := by decide

end Sys2Proof.Tests
end

section
/-! SUPPORT. What a frame may change, and what one phase turn does to the controller that takes it (R27, R32): one lemma for
each phase, then one for the sequencer. The phase table and the invariant on controllers both follow from it. -/

namespace Sys2Proof.Machine

/-! Frames -/

/-- What the effect of a frame on the register file leaves as it was. -/
structure RegisterChange (s t : State) : Prop where
  ctls : t.ctls = s.ctls
  cur : t.cur = s.cur
  bus : t.bus = s.bus

/-- What a frame leaves as it was; of the outcomes fixed for frames it uses up at most one (R74). -/
structure FrameChange (s t : State) : Prop where
  ctls : t.ctls = s.ctls
  cur : t.cur = s.cur
  bus : t.bus = s.bus ∨ t.bus = s.bus.tail

theorem effectW1_change (p : Byte) (s : State) : RegisterChange s (effectW1 p s).2 := ⟨rfl, rfl, rfl⟩

theorem effectW2_change (p v : Byte) (s : State) : RegisterChange s (effectW2 p v s).2 := by
  unfold effectW2 regWrite
  split <;> exact ⟨rfl, rfl, rfl⟩

theorem effectR1_change (s : State) : RegisterChange s (effectR1 s).2 := by
  unfold effectR1 regRead
  split_ifs <;> exact ⟨rfl, rfl, rfl⟩

theorem drawOutcome_change (s : State) : FrameChange s (drawOutcome s).2 := by
  unfold drawOutcome
  split
  case h_1 d rest h => exact ⟨rfl, rfl, .inr (by simp [h])⟩
  case h_2 h => exact ⟨rfl, rfl, .inl rfl⟩

theorem FrameChange.register {s t u : State} (h : FrameChange s t) (hr : RegisterChange t u) : FrameChange s u :=
  ⟨hr.ctls.trans h.ctls, hr.cur.trans h.cur, hr.bus ▸ h.bus⟩

theorem FrameChange.ctl? {s t : State} (h : FrameChange s t) : t.ctl? = s.ctl? := by
  rw [State.ctl?, h.ctls, h.cur, State.ctl?]

/-- A frame, whatever its outcome, touches no controller (R63 to R75). -/
theorem issue_change {α : Type} {effect : State → α × State} (he : ∀ u, RegisterChange u (effect u).2) (d : DevAddr)
    (s : State) : FrameChange s (issue d effect s).2 := by
  unfold issue
  split_ifs
  · have hd := drawOutcome_change s
    generalize drawOutcome s = x at hd
    rcases x with ⟨_ | applied | applied, u⟩
    · exact hd.register (he u)
    · cases applied
      · exact hd
      · exact hd.register (he u)
    · cases applied
      · exact hd
      · exact hd.register (he u)
  · exact ⟨rfl, rfl, .inl rfl⟩

theorem frameW1_change (d : DevAddr) (p : Byte) (s : State) : FrameChange s (frameW1 d p s).2 :=
  issue_change (effectW1_change p) d s

theorem frameW2_change (d : DevAddr) (p v : Byte) (s : State) : FrameChange s (frameW2 d p v s).2 :=
  issue_change (effectW2_change p v) d s

theorem frameR1_change (d : DevAddr) (s : State) : FrameChange s (frameR1 d s).2 := issue_change effectR1_change d s

/-- A bare frame touches no controller (R60). -/
theorem runTransaction_controllers {x : Transaction} {s t : State} (h : runTransaction x s = .next t) :
    t.ctls = s.ctls ∧ t.cur = s.cur := by
  have kept : ∀ {α : Type} {g : α → Option Byte} {y : Reply α × State}, FrameChange s y.2 →
      (keepReply g y).ctls = s.ctls ∧ (keepReply g y).cur = s.cur := by
    intro α g y hy
    rcases y with ⟨_ | _ | _, u⟩ <;> exact ⟨hy.ctls, hy.cur⟩
  unfold runTransaction at h
  split at h
  case h_2 => cases h
  case h_1 i hi =>
    unfold decodeTransaction at hi
    split at hi
    · cases hi; cases h; exact kept (frameW1_change _ _ _)
    · cases hi; cases h; exact kept (frameW2_change _ _ _ _)
    · cases hi
    · split_ifs at hi
      cases hi; cases h; exact kept (frameR1_change _ _)

/-! The controller read back after an update -/

@[simp] theorem State.latchCur_ctl? (s : State) (b : Byte) :
    (s.latchCur b).ctl? = s.ctl?.map fun c => { c with cur := some b } := State.updCtl_ctl? s _

@[simp] theorem State.latchNew_ctl? (s : State) (b : Byte) :
    (s.latchNew b).ctl? = s.ctl?.map fun c => { c with new := some b } := State.updCtl_ctl? s _

@[simp] theorem State.latchRb_ctl? (s : State) (b : Byte) :
    (s.latchRb b).ctl? = s.ctl?.map fun c => { c with rb := some b } := State.updCtl_ctl? s _

@[simp] theorem State.raise_ctl? (s : State) (k : ResultKind) (n : ResultStep) :
    (s.raise k n).ctl? = s.ctl?.map fun c => { c with phase := .done, res := some (errorResult k n) } :=
  State.complete_ctl? s _

@[simp] theorem State.hang_ctl? (s : State) : s.hang.ctl? = s.ctl?.map fun c => { c with waiting := true } :=
  State.updCtl_ctl? s _

/-! What a consistent controller's command is -/

theorem running_iff (P : Params) (ops : List Opcode) (cmd : Option CmdWord) :
    running P ops cmd = true ↔ ∃ w, cmd = some w ∧ checksPassed P w = true ∧ opcodeOf (cmdOp w) ∈ ops := by
  cases cmd <;> simp [running]

/-- A word that passed `CHECK` and whose command has a field names a legal one (R100). -/
theorem checksPassed_legalField {P : Params} {w : CmdWord} (h : checksPassed P w = true)
    (ho : opcodeOf (cmdOp w) = .get ∨ opcodeOf (cmdOp w) = .set) : legalField (cmdO w).toNat (cmdWidth w) = true := by
  unfold checksPassed at h
  split at h
  case h_2 => simp at h
  case h_1 i hi =>
    rcases decodeCore_ok hi with ⟨hop, -⟩ | ⟨hop, -⟩ | ⟨-, hl, -⟩ | ⟨-, hl, -⟩
    · simp [hop] at ho
    · simp [hop] at ho
    · exact hl
    · exact hl

/-- In a phase that issues a frame the arrow to `DONE` is one of the table's (R27, R222). -/
theorem Ctl.consistent_arrow_done {P : Params} {c : Ctl} (h : c.consistent P = true) (hp : c.phase.issuesFrame = true) :
    ∃ w, c.cmd = some w ∧ phaseArrow (opcodeOf (cmdOp w)) c.phase .done = true := by
  have of_running : ∀ ops, running P ops c.cmd = true → (∀ o ∈ ops, phaseArrow o c.phase .done = true) →
      ∃ w, c.cmd = some w ∧ phaseArrow (opcodeOf (cmdOp w)) c.phase .done = true := by
    intro ops hr ha
    obtain ⟨w, hw, -, ho⟩ := (running_iff _ _ _).mp hr
    exact ⟨w, hw, ha _ ho⟩
  unfold Ctl.consistent at h
  cases hph : c.phase <;> simp only [hph, Phase.issuesFrame, Bool.false_eq_true] at hp <;>
    rw [hph] at of_running <;> simp only [hph, Bool.and_eq_true, Bool.or_eq_true] at h
  case rdPtr | rdData | vfPtr | vfData =>
    obtain ⟨⟨⟨⟨hr, -⟩, -⟩, -⟩, -⟩ := h
    exact of_running _ hr (by decide)
  case wrFrame =>
    obtain ⟨⟨⟨⟨hr, -⟩ | ⟨hr, -⟩, -⟩, -⟩, -⟩ := h
    · exact of_running _ hr (by decide)
    · exact of_running _ hr (by decide)

/-- A frame that never completes leaves the controller consistent in its phase (R233). -/
theorem Ctl.consistent_waiting (P : Params) (c : Ctl) (hp : c.phase.issuesFrame = true) :
    Ctl.consistent P { c with waiting := true } = c.consistent P := by
  unfold Ctl.consistent
  cases hph : c.phase <;> simp only [hph, Phase.issuesFrame, Bool.false_eq_true] at hp <;> rfl

/-- In `IDLE` and in `DONE` no frame is outstanding. -/
theorem Ctl.consistent_notWaiting {P : Params} {c : Ctl} (h : c.consistent P = true)
    (hp : c.phase = .idle ∨ c.phase = .done) : c.waiting = false := by
  rcases hp with hp | hp
  · simp only [Ctl.consistent, hp, beq_iff_eq] at h
    rw [h]
    rfl
  · simp only [Ctl.consistent, hp, Bool.and_eq_true, Bool.not_eq_true'] at h
    exact h.2

/-! What one phase does -/

/-- A phase turn takes a controller from `c` to `c'` (R27): consistent again, `CMD` as before, and an arrow of the table
followed, or none because there is none to follow. -/
structure Ctl.Moved (P : Params) (c c' : Ctl) : Prop where
  consistent : c'.consistent P = true
  cmd : c'.cmd = c.cmd
  arrow : (c'.phase = c.phase ∧ (c.phase = .idle ∨ c.phase = .done ∨ c'.waiting = true)) ∨
    ∃ w, c.cmd = some w ∧ phaseArrow (opcodeOf (cmdOp w)) c.phase c'.phase = true

/-- The answer is a next state in which the controller whose turn it is has moved from `c`, at most one fixed frame outcome
used up. -/
def Moves (s : State) (c : Ctl) (x : Answer) : Prop :=
  ∃ t c', x = .next t ∧ t.ctl? = some c' ∧ (t.bus = s.bus ∨ t.bus = s.bus.tail) ∧ c.Moved s.params c'

/-- The result of a failure is one that R221 lists: a step with a transport failure, and only then. -/
theorem errorResult_listed {kind : ResultKind} {step : ResultStep} (h : kind = .transportFailure ↔ step ≠ .none) :
    (errorResult kind step).listed = true := by
  cases kind <;> cases step <;> simp [errorResult, Result.listed] at h ⊢

/-- An update of the controller's own that moves it. -/
theorem Moves.of_map {s t : State} {c : Ctl} {f : Ctl → Ctl} (hc : s.ctl? = some c) (ht : t.ctl? = s.ctl?.map f)
    (hb : t.bus = s.bus ∨ t.bus = s.bus.tail) (hm : c.Moved s.params (f c)) : Moves s c (.next t) :=
  ⟨t, f c, rfl, by rw [ht, hc]; rfl, hb, hm⟩

/-- Completing with a listed result by an arrow of the table leaves a consistent controller in `DONE` (R27, R221). -/
theorem Ctl.moved_done {P : Params} {c c' : Ctl} {w : CmdWord} {r : Result} (hw : c.cmd = some w)
    (ha : phaseArrow (opcodeOf (cmdOp w)) c.phase .done = true) (hcmd : c'.cmd = c.cmd) (hn : c'.waiting = false)
    (hp : c'.phase = .done) (hres : c'.res = some r) (hr : r.listed = true) : c.Moved P c' :=
  ⟨by simp [Ctl.consistent, hp, hcmd, hw, hn, hres, hr], hcmd, .inr ⟨w, hw, hp ▸ ha⟩⟩

/-- A phase that issues a frame moves its controller for every outcome, if what it goes on with does. -/
theorem phaseFrame_moves {α : Type} {s : State} {c : Ctl} {x : Reply α × State} {st : ResultStep} {go : α → State → State}
    {f : α → Ctl → Ctl} (hc : s.ctl? = some c) (h : c.consistent s.params = true) (hn : c.waiting = false)
    (hp : c.phase.issuesFrame = true) (hst : st ≠ .none) (hx : FrameChange s x.2)
    (hgo : ∀ a u, (go a u).ctl? = u.ctl?.map (f a) ∧ (go a u).bus = u.bus) (hm : ∀ a, c.Moved s.params (f a c)) :
    Moves s c (phaseFrame st go x) := by
  obtain ⟨w, hw, ha⟩ := c.consistent_arrow_done h hp
  rcases x with ⟨a | _ | _, u⟩ <;> simp only [phaseFrame, afterFrame]
  · obtain ⟨hctl, hbus⟩ := hgo a u
    exact .of_map hc (hx.ctl? ▸ hctl) (hbus ▸ hx.bus) (hm a)
  · exact .of_map hc (hx.ctl? ▸ State.raise_ctl? u _ _) hx.bus
      (Ctl.moved_done hw ha rfl hn rfl rfl (errorResult_listed (iff_of_true rfl hst)))
  · exact .of_map hc (hx.ctl? ▸ State.hang_ctl? u) hx.bus
      ⟨(c.consistent_waiting _ hp).trans h, rfl, .inl ⟨rfl, .inr (.inr rfl)⟩⟩

theorem verifyResult_listed (f value : Byte) : (verifyResult f value).listed = true := by
  unfold verifyResult
  split <;> rfl

/-- No static check answers with a transport failure (R225). -/
theorem staticCheck_kind {P : Params} {i : Instr} {kind : ResultKind} (h : staticCheck P i = some kind) :
    kind ≠ .transportFailure := by
  rintro rfl
  cases i <;> simp only [staticCheck, checkGet, checkSet, checkAddress, reduceCtorEq] at h <;> split_ifs at h <;> cases h

section
variable {s : State} {c : Ctl} {w : CmdWord} (hc : s.ctl? = some c) (h : c.consistent s.params = true)
  (hw : c.cmd = some w) (hn : c.waiting = false)
include hc h hw hn

/-- `CHECK`: refused, or on to the first frame's phase (R225). -/
theorem phaseCheck_moves (hp : c.phase = .check) : Moves s c (.next (phaseCheck w s)) := by
  simp only [Ctl.consistent, hp, Bool.and_eq_true, Option.isNone_iff_eq_none] at h
  obtain ⟨⟨⟨⟨⟨-, hcur⟩, hnew⟩, hrb⟩, hres⟩, -⟩ := h
  have refused : ∀ kind, kind ≠ .transportFailure → Moves s c (.next (s.raise kind .none)) := fun kind hk =>
    .of_map hc (State.raise_ctl? s _ _) (.inl rfl)
      (Ctl.moved_done hw (by rw [hp]; rfl) rfl hn rfl rfl (errorResult_listed (iff_of_false hk (by simp))))
  unfold phaseCheck
  cases hd : decodeCore w with
  | error r => exact refused _ (by decide)
  | ok i =>
    simp only
    cases hs : staticCheck s.params i with
    | some kind => exact refused kind (staticCheck_kind hs)
    | none =>
      have hpass : checksPassed s.params w = true := by simp [checksPassed, hd, hs]
      have reads : ∀ o ∈ [Opcode.rdReg, .get, .set], opcodeOf (cmdOp w) = o → Moves s c (.next (s.enter .rdPtr)) :=
        fun o ho he => .of_map hc (State.enter_ctl? s _) (.inl rfl)
          ⟨by simp [Ctl.consistent, running, hw, hpass, hcur, hnew, hrb, hres, he, ho], rfl,
            .inr ⟨w, hw, by
              rw [he, hp]
              exact (by decide : ∀ o ∈ [Opcode.rdReg, .get, .set], phaseArrow o .check .rdPtr = true) o ho⟩⟩
      cases ho : opcodeOf (cmdOp w) with
      | rdReg => exact reads .rdReg (by decide) ho
      | get => exact reads .get (by decide) ho
      | set => exact reads .set (by decide) ho
      | wrReg =>
        refine .of_map (f := fun c => { c with phase := .wrFrame, new := some (cmdValue w) }) hc (by simp [hc])
          (.inl rfl) ⟨?_, rfl, .inr ⟨w, hw, by rw [ho, hp]; rfl⟩⟩
        simp [Ctl.consistent, running, Ctl.newRight, byteToWrite, hw, hpass, hcur, hrb, hres, ho]

/-- `RD_PTR`. -/
theorem phaseRdPtr_moves (hp : c.phase = .rdPtr) : Moves s c (phaseRdPtr w s) := by
  have hr := h
  simp only [Ctl.consistent, hp, Bool.and_eq_true, running_iff, hw, Option.some.injEq, exists_eq_left'] at hr
  obtain ⟨⟨⟨⟨⟨-, ho⟩, -⟩, -⟩, -⟩, -⟩ := hr
  have frame : Moves s c (phaseFrame .firstRead (fun _ s => s.enter .rdData) (frameW1 s.target (cmdAddr w) s)) := by
    refine phaseFrame_moves hc h hn (by rw [hp]; rfl) (by simp) (frameW1_change _ _ _)
      (fun _ u => ⟨State.enter_ctl? u _, rfl⟩) fun _ => ⟨?_, rfl, .inr ⟨w, hw, ?_⟩⟩
    · simpa [Ctl.consistent, hp] using h
    · rw [hp]
      exact (by decide : ∀ o ∈ [Opcode.rdReg, .get, .set], phaseArrow o .rdPtr .rdData = true) _ ho
  unfold phaseRdPtr
  simp only [List.mem_cons, List.not_mem_nil, or_false] at ho
  rcases ho with ho | ho | ho <;> rw [ho] <;> exact frame

/-- `RD_DATA`. -/
theorem phaseRdData_moves (hp : c.phase = .rdData) : Moves s c (phaseRdData w s) := by
  have hr := h
  simp only [Ctl.consistent, hp, Bool.and_eq_true, running_iff, hw, Option.some.injEq, exists_eq_left',
    Option.isNone_iff_eq_none] at hr
  obtain ⟨⟨⟨⟨⟨hpass, ho⟩, -⟩, hnew⟩, hrb⟩, hres⟩ := hr
  have last : ∀ g : Byte → Byte, phaseArrow (opcodeOf (cmdOp w)) c.phase .done = true →
      Moves s c (phaseFrame .firstRead (fun b s => (s.latchCur b).complete (okResult (g b))) (frameR1 s.target s)) :=
    fun g ha => phaseFrame_moves (f := fun b c => { c with cur := some b, phase := .done, res := some (okResult (g b)) })
      hc h hn (by rw [hp]; rfl) (by simp) (frameR1_change _ _) (fun _ u => ⟨by simp [Function.comp_def], rfl⟩)
      fun _ => Ctl.moved_done hw ha rfl hn rfl rfl rfl
  unfold phaseRdData
  simp only [List.mem_cons, List.not_mem_nil, or_false] at ho
  rcases ho with ho | ho | ho
  · rw [ho]
    exact last id (by rw [ho, hp]; rfl)
  · rw [ho]
    simp only [checksPassed_legalField hpass (.inl ho), if_true]
    exact last _ (by rw [ho, hp]; rfl)
  · rw [ho]
    refine phaseFrame_moves (f := fun b c => { c with cur := some b, phase := .merge })
      hc h hn (by rw [hp]; rfl) (by simp) (frameR1_change _ _) (fun _ u => ⟨by simp [Function.comp_def], rfl⟩)
      fun _ => ⟨?_, rfl, .inr ⟨w, hw, by rw [ho, hp]; rfl⟩⟩
    simp [Ctl.consistent, running, hw, hpass, ho, hnew, hrb, hres, hn]

omit hn in
/-- `MERGE`. -/
theorem phaseMerge_moves (hp : c.phase = .merge) : Moves s c (phaseMerge w c s) := by
  simp only [Ctl.consistent, hp, Bool.and_eq_true, running_iff, hw, Option.some.injEq, exists_eq_left',
    Option.isNone_iff_eq_none, Option.isSome_iff_exists, List.mem_singleton] at h
  obtain ⟨⟨⟨⟨⟨⟨hpass, ho⟩, b, hcur⟩, -⟩, hrb⟩, hres⟩, -⟩ := h
  have hl := checksPassed_legalField hpass (.inr ho)
  simp only [phaseMerge, ho, hcur, hl, if_true]
  refine .of_map (f := fun c => { c with
      phase := .wrFrame, new := some (insertField b (cmdO w).toNat (cmdWidth w) (cmdValue w)) })
    hc (by simp [hc]) (.inl rfl) ⟨?_, rfl, .inr ⟨w, hw, by rw [ho, hp]; rfl⟩⟩
  simp [Ctl.consistent, running, Ctl.newRight, byteToWrite, hw, hpass, ho, hcur, hrb, hres]

/-- `WR_FRAME`. -/
theorem phaseWrFrame_moves (hp : c.phase = .wrFrame) : Moves s c (phaseWrFrame w c s) := by
  have hr := h
  simp only [Ctl.consistent, hp, Bool.and_eq_true, Bool.or_eq_true, running_iff, hw, Option.some.injEq, exists_eq_left',
    Option.isNone_iff_eq_none, List.mem_singleton] at hr
  obtain ⟨⟨⟨hkind, hnew⟩, hrb⟩, hres⟩ := hr
  obtain ⟨v, hv⟩ : ∃ v, c.new = some v := by
    simp only [Ctl.newRight, hw, Bool.and_eq_true] at hnew
    exact Option.isSome_iff_exists.mp hnew.1
  rcases hkind with ⟨⟨-, ho⟩, -⟩ | ⟨⟨hpass, ho⟩, hcur⟩
  · simp only [phaseWrFrame, ho, hv]
    exact phaseFrame_moves hc h hn (by rw [hp]; rfl) (by simp) (frameW2_change _ _ _ _)
      (fun _ u => ⟨State.complete_ctl? u _, rfl⟩) fun _ =>
      Ctl.moved_done hw (by rw [ho, hp]; rfl) rfl hn rfl rfl rfl
  · simp only [phaseWrFrame, ho, hv]
    refine phaseFrame_moves hc h hn (by rw [hp]; rfl) (by simp) (frameW2_change _ _ _ _)
      (fun _ u => ⟨State.enter_ctl? u _, rfl⟩) fun _ => ⟨?_, rfl, .inr ⟨w, hw, by rw [ho, hp]; rfl⟩⟩
    simpa [Ctl.consistent, Ctl.newRight, running, hw, hpass, ho, hcur, hrb, hres] using hnew

/-- `VF_PTR`. -/
theorem phaseVfPtr_moves (hp : c.phase = .vfPtr) : Moves s c (phaseVfPtr w s) := by
  have hr := h
  simp only [Ctl.consistent, hp, Bool.and_eq_true, running_iff, hw, Option.some.injEq, exists_eq_left',
    List.mem_singleton] at hr
  obtain ⟨⟨⟨⟨⟨-, ho⟩, -⟩, -⟩, -⟩, -⟩ := hr
  simp only [phaseVfPtr, ho]
  refine phaseFrame_moves hc h hn (by rw [hp]; rfl) (by simp) (frameW1_change _ _ _)
    (fun _ u => ⟨State.enter_ctl? u _, rfl⟩) fun _ => ⟨?_, rfl, .inr ⟨w, hw, by rw [ho, hp]; rfl⟩⟩
  simpa [Ctl.consistent, Ctl.newRight, hp] using h

/-- `VF_DATA`. -/
theorem phaseVfData_moves (hp : c.phase = .vfData) : Moves s c (phaseVfData w s) := by
  have hr := h
  simp only [Ctl.consistent, hp, Bool.and_eq_true, running_iff, hw, Option.some.injEq, exists_eq_left',
    List.mem_singleton] at hr
  obtain ⟨⟨⟨⟨⟨hpass, ho⟩, -⟩, -⟩, -⟩, -⟩ := hr
  simp only [phaseVfData, ho, checksPassed_legalField hpass (.inr ho), if_true]
  exact phaseFrame_moves (f := fun b c => { c with
      rb := some b, phase := .done,
      res := some (verifyResult (extract b (cmdO w).toNat (cmdWidth w)) (cmdValue w)) })
    hc h hn (by rw [hp]; rfl) (by simp) (frameR1_change _ _) (fun _ u => ⟨by simp [Function.comp_def], rfl⟩)
    fun _ => Ctl.moved_done hw (by rw [ho, hp]; rfl) rfl hn rfl rfl (verifyResult_listed _ _)

end

/-- A consistent controller that is not idle holds a command. -/
theorem Ctl.consistent_cmd {P : Params} {c : Ctl} (h : c.consistent P = true) (hi : c.phase ≠ .idle) :
    ∃ w, c.cmd = some w := by
  rw [← Option.ne_none_iff_exists']
  intro hw
  unfold Ctl.consistent at h
  cases hp : c.phase <;> simp [hp, hw, running] at h
  exact hi hp

/-- In a phase of its own a controller's step is that phase's (R27). -/
theorem sequencerStep_phase {s : State} {c : Ctl} {w : CmdWord} (hc : s.ctl? = some c) (hw : c.cmd = some w)
    (hn : c.waiting = false) (hi : c.phase ≠ .idle) (hd : c.phase ≠ .done) :
    sequencerStep s = phaseWithCommand c.phase w c s := by
  simp [sequencerStep, hc, hw, hn, hi, hd]

/-- With nothing to do, or a frame outstanding, the sequencer stays (R233, R245). -/
theorem sequencerStep_settled {s : State} {c : Ctl} (hc : s.ctl? = some c)
    (h : c.waiting = true ∨ c.phase = .idle ∨ c.phase = .done) : sequencerStep s = .next s := by
  simp [sequencerStep, hc, or_assoc, h]

/-- A phase turn of a consistent controller moves it, whatever the phase and the outcome of its frame. -/
theorem sequencerStep_moves {s : State} {c : Ctl} (hc : s.ctl? = some c) (h : c.consistent s.params = true) :
    Moves s c (sequencerStep s) := by
  by_cases hq : c.waiting = true ∨ c.phase = .idle ∨ c.phase = .done
  · rw [sequencerStep_settled hc hq]
    exact ⟨s, c, rfl, hc, .inl rfl, h, rfl, .inl ⟨rfl, by tauto⟩⟩
  · obtain ⟨hn, hi, hd⟩ : c.waiting = false ∧ c.phase ≠ .idle ∧ c.phase ≠ .done := by simpa using hq
    obtain ⟨w, hw⟩ := c.consistent_cmd h hi
    rw [sequencerStep_phase hc hw hn hi hd]
    cases hp : c.phase with
    | idle => exact absurd hp hi
    | check => exact phaseCheck_moves hc h hw hn hp
    | rdPtr => exact phaseRdPtr_moves hc h hw hn hp
    | rdData => exact phaseRdData_moves hc h hw hn hp
    | merge => exact phaseMerge_moves hc h hw hp
    | wrFrame => exact phaseWrFrame_moves hc h hw hn hp
    | vfPtr => exact phaseVfPtr_moves hc h hw hn hp
    | vfData => exact phaseVfData_moves hc h hw hn hp
    | done => exact absurd hp hd

end Sys2Proof.Machine
end

section
/-! SUPPORT. A whole command is its phases, one after the other: the bodies written from the pseudocode (R125, R126, R160,
R170) against the sequencer written from the table (R27), for every outcome of every frame. -/

namespace Sys2Proof.Machine

/-- `n` phases of the controller whose turn it is, no other agent between. -/
def sequencerRun : Nat → State → Answer
  | 0, s => .next s
  | n + 1, s =>
    match sequencerStep s with
    | .next t => sequencerRun n t
    | .fault r => .fault r
    | .refused r => .refused r

theorem sequencerRun_succ {s t : State} (h : sequencerStep s = .next t) (n : Nat) :
    sequencerRun (n + 1) s = sequencerRun n t := by
  simp [sequencerRun, h]

/-- A controller that has nothing to do, or a frame outstanding, stays so. -/
theorem sequencerRun_settled {s : State} {c : Ctl} (hc : s.ctl? = some c)
    (h : c.waiting = true ∨ c.phase = .idle ∨ c.phase = .done) (n : Nat) : sequencerRun n s = .next s := by
  induction n with
  | zero => rfl
  | succ n ih => rw [sequencerRun_succ (sequencerStep_settled hc h), ih]

/-- A completed command stays in `DONE`. -/
theorem sequencerRun_complete {s : State} {c : Ctl} (hc : s.ctl? = some c) (r : Result) (n : Nat) :
    sequencerRun n (s.complete r) = .next (s.complete r) :=
  sequencerRun_settled (by rw [State.complete_ctl?, hc]; rfl) (.inr (.inr rfl)) n

/-- What every phase keeps, a run of phases keeps. -/
theorem sequencerRun_keeps {P : State → Prop} (hP : ∀ s t, P s → sequencerStep s = .next t → P t) {n : Nat} {s t : State}
    (h : sequencerRun n s = .next t) (hs : P s) : P t := by
  induction n generalizing s with
  | zero => cases h; exact hs
  | succ n ih =>
    unfold sequencerRun at h
    split at h
    case h_1 u hu => exact ih h (hP s u hs hu)
    all_goals cases h

/-- A phase with a frame, and the phases after it: if these do `go'` after a success, all together do what a command does
after the frame, whose failure or hanging ends the run at once (R222, R233). -/
theorem sequencerRun_frame {α : Type} {s : State} {c : Ctl} {st : ResultStep} {go go' : α → State → State}
    {x : Reply α × State} {n : Nat} (hc : s.ctl? = some c) (h : sequencerStep s = phaseFrame st go x)
    (hx : FrameChange s x.2) (hgo : ∀ a u, u.ctl? = some c → sequencerRun n (go a u) = .next (go' a u)) :
    sequencerRun (n + 1) s = .next (afterFrame st go' x) := by
  have hxc : x.2.ctl? = some c := hx.ctl?.trans hc
  rw [sequencerRun_succ h]
  rcases x with ⟨a | _ | _, u⟩ <;> simp only [afterFrame]
  · exact hgo a u hxc
  · exact sequencerRun_complete hxc _ n
  · exact sequencerRun_settled (by rw [State.hang_ctl?, hxc]; rfl) (.inl rfl) n

/-- The two phases of a register read are `memRead` (R123). -/
theorem sequencerRun_memRead {s : State} {c : Ctl} {pointer data : Phase} {st : ResultStep} {a : Byte}
    {go go' : Byte → State → State} {n : Nat} (hc : s.ctl? = some c)
    (h1 : ∀ u, u.ctl? = some { c with phase := pointer } →
      sequencerStep u = phaseFrame st (fun _ u => u.enter data) (frameW1 u.target a u))
    (h2 : ∀ u, u.ctl? = some { c with phase := data } → sequencerStep u = phaseFrame st go (frameR1 u.target u))
    (hgo : ∀ b u, u.ctl? = some { c with phase := data } → sequencerRun n (go b u) = .next (go' b u)) :
    sequencerRun (n + 2) (s.enter pointer) = .next (memRead pointer data st a go' s) := by
  have hs : (s.enter pointer).ctl? = some { c with phase := pointer } := by rw [State.enter_ctl?, hc]; rfl
  refine sequencerRun_frame hs (h1 _ hs) (frameW1_change _ _ _) fun _ u hu => ?_
  have hu' : (u.enter data).ctl? = some { c with phase := data } := by rw [State.enter_ctl?, hu]; rfl
  exact sequencerRun_frame hu' (h2 _ hu') (frameR1_change _ _) hgo

/-- The phase of a register write is `memWrite` (R124). -/
theorem sequencerRun_memWrite {s : State} {c : Ctl} {a v : Byte} {go go' : State → State} {n : Nat}
    (hc : s.ctl? = some c)
    (h : ∀ u, u.ctl? = some { c with phase := .wrFrame } →
      sequencerStep u = phaseFrame .write (fun _ u => go u) (frameW2 u.target a v u))
    (hgo : ∀ u, u.ctl? = some { c with phase := .wrFrame } → sequencerRun n (go u) = .next (go' u)) :
    sequencerRun (n + 1) (s.enter .wrFrame) = .next (memWrite a v go' s) := by
  have hs : (s.enter .wrFrame).ctl? = some { c with phase := .wrFrame } := by rw [State.enter_ctl?, hc]; rfl
  exact sequencerRun_frame hs (h _ hs) (frameW2_change _ _ _ _) fun _ => hgo

section
variable {s : State} {c : Ctl} {w : CmdWord} (hc : s.ctl? = some c) (hw : c.cmd = some w) (hn : c.waiting = false)
  (n : Nat)
include hc hw hn

/-- The phases of `RD_REG` after `CHECK` are its body (R125). -/
theorem sequencerRun_bodyRdReg (ho : opcodeOf (cmdOp w) = .rdReg) :
    sequencerRun (n + 2) (s.enter .rdPtr) = .next (bodyRdReg (cmdAddr w) s) := by
  refine sequencerRun_memRead hc (fun u hu => ?_) (fun u hu => ?_) fun b u hu =>
    sequencerRun_complete (by rw [State.latchCur_ctl?, hu]; rfl) _ n
  · rw [sequencerStep_phase hu hw hn (by simp) (by simp)]
    simp only [phaseWithCommand, phaseRdPtr, ho]
  · rw [sequencerStep_phase hu hw hn (by simp) (by simp)]
    simp only [phaseWithCommand, phaseRdData, ho]

/-- The phases of `GET` after `CHECK` are its body (R160). -/
theorem sequencerRun_bodyGet (ho : opcodeOf (cmdOp w) = .get) (hl : legalField (cmdO w).toNat (cmdWidth w) = true) :
    sequencerRun (n + 2) (s.enter .rdPtr) = .next (bodyGet (cmdAddr w) (cmdO w).toNat (cmdWidth w) s) := by
  refine sequencerRun_memRead hc (fun u hu => ?_) (fun u hu => ?_) fun b u hu =>
    sequencerRun_complete (by rw [State.latchCur_ctl?, hu]; rfl) _ n
  · rw [sequencerStep_phase hu hw hn (by simp) (by simp)]
    simp only [phaseWithCommand, phaseRdPtr, ho]
  · rw [sequencerStep_phase hu hw hn (by simp) (by simp)]
    simp only [phaseWithCommand, phaseRdData, ho, hl, if_true]

/-- The phase of `WR_REG` after `CHECK` is its body (R126). -/
theorem sequencerRun_bodyWrReg (ho : opcodeOf (cmdOp w) = .wrReg) :
    sequencerRun (n + 1) ((s.latchNew (cmdValue w)).enter .wrFrame) = .next (bodyWrReg (cmdAddr w) (cmdValue w) s) := by
  refine sequencerRun_memWrite (c := { c with new := some (cmdValue w) }) (by rw [State.latchNew_ctl?, hc]; rfl)
    (fun u hu => ?_) fun u hu => sequencerRun_complete hu _ n
  rw [sequencerStep_phase hu hw hn (by simp) (by simp)]
  simp only [phaseWithCommand, phaseWrFrame, ho]

/-- The last two phases of `SET` are the verify read (R175). -/
theorem sequencerRun_bodySetVerify (ho : opcodeOf (cmdOp w) = .set)
    (hl : legalField (cmdO w).toNat (cmdWidth w) = true) :
    sequencerRun (n + 2) (s.enter .vfPtr) =
      .next (bodySetVerify (cmdAddr w) (cmdO w).toNat (cmdWidth w) (cmdValue w) s) := by
  refine sequencerRun_memRead hc (fun u hu => ?_) (fun u hu => ?_) fun b u hu =>
    sequencerRun_complete (by rw [State.latchRb_ctl?, hu]; rfl) _ n
  · rw [sequencerStep_phase hu hw hn (by simp) (by simp)]
    simp only [phaseWithCommand, phaseVfPtr, ho]
  · rw [sequencerStep_phase hu hw hn (by simp) (by simp)]
    simp only [phaseWithCommand, phaseVfData, ho, hl, if_true]

/-- The phases of `SET` from `MERGE` on are steps 2 to 5 (R173 to R175). -/
theorem sequencerRun_bodySetWrite (ho : opcodeOf (cmdOp w) = .set)
    (hl : legalField (cmdO w).toNat (cmdWidth w) = true) {b : Byte} (hb : c.cur = some b) :
    sequencerRun (n + 4) (s.enter .merge) =
      .next (bodySetWrite (cmdAddr w) (cmdO w).toNat (cmdWidth w) (cmdValue w) b s) := by
  have hm : (s.enter .merge).ctl? = some { c with phase := .merge } := by rw [State.enter_ctl?, hc]; rfl
  have merge : sequencerStep (s.enter .merge) = .next (((s.enter .merge).latchNew
      (insertField b (cmdO w).toNat (cmdWidth w) (cmdValue w))).enter .wrFrame) := by
    rw [sequencerStep_phase hm hw hn (by simp) (by simp)]
    simp only [phaseWithCommand, phaseMerge, ho, hb, hl, if_true]
  rw [sequencerRun_succ merge]
  refine sequencerRun_memWrite (c := { c with
      phase := .merge, new := some (insertField b (cmdO w).toNat (cmdWidth w) (cmdValue w)) })
    (by rw [State.latchNew_ctl?, hm]; rfl) (fun u hu => ?_)
    fun u hu => sequencerRun_bodySetVerify hu hw hn n ho hl
  rw [sequencerStep_phase hu hw hn (by simp) (by simp)]
  simp only [phaseWithCommand, phaseWrFrame, ho]

/-- The phases of `SET` after `CHECK` are its body (R170). -/
theorem sequencerRun_bodySet (ho : opcodeOf (cmdOp w) = .set) (hl : legalField (cmdO w).toNat (cmdWidth w) = true) :
    sequencerRun (n + 6) (s.enter .rdPtr) =
      .next (bodySet (cmdAddr w) (cmdO w).toNat (cmdWidth w) (cmdValue w) s) := by
  refine sequencerRun_memRead (go := fun b u => (u.latchCur b).enter .merge) hc (fun u hu => ?_) (fun u hu => ?_)
    fun b u hu => ?_
  · rw [sequencerStep_phase hu hw hn (by simp) (by simp)]
    simp only [phaseWithCommand, phaseRdPtr, ho]
  · rw [sequencerStep_phase hu hw hn (by simp) (by simp)]
    simp only [phaseWithCommand, phaseRdData, ho]
  · exact sequencerRun_bodySetWrite (c := { c with phase := .rdData, cur := some b })
      (by rw [State.latchCur_ctl?, hu]; rfl) hw hn n ho hl rfl

/-- From `CHECK` the phases do what the whole command does: it is refused, or its body runs. -/
theorem sequencerRun_check (hp : c.phase = .check) {i : Instr} (hd : decodeCore w = .ok i) :
    sequencerRun 7 s = .next (match staticCheck s.params i with
      | some kind => s.raise kind .none
      | none => bodyOf i s) := by
  have check : sequencerStep s = .next (phaseCheck w s) := by
    rw [sequencerStep_phase hc hw hn (by simp [hp]) (by simp [hp]), hp, phaseWithCommand]
  rw [sequencerRun_succ check]
  cases hs : staticCheck s.params i with
  | some kind =>
    simp only [phaseCheck, hd, hs]
    exact sequencerRun_complete hc _ 6
  | none =>
    rcases decodeCore_ok hd with ⟨ho, hi, -⟩ | ⟨ho, hi, -⟩ | ⟨ho, hl, hi, -⟩ | ⟨ho, hl, hi, -⟩ <;>
      simp only [phaseCheck, hd, hs, ho] <;> subst hi
    · exact sequencerRun_bodyRdReg hc hw hn 4 ho
    · exact sequencerRun_bodyWrReg hc hw hn 5 ho
    · exact sequencerRun_bodyGet hc hw hn 4 ho hl
    · exact sequencerRun_bodySet hc hw hn 0 ho hl

/-- From `CHECK` with an illegal word the phases complete with `INVALID_DESCRIPTOR` (R100). -/
theorem sequencerRun_check_illegal (hp : c.phase = .check) {r : Reject} (hd : decodeCore w = .error r) :
    sequencerRun 7 s = .next (s.raise .invalidDescriptor .none) := by
  have check : sequencerStep s = .next (phaseCheck w s) := by
    rw [sequencerStep_phase hc hw hn (by simp [hp]) (by simp [hp]), hp, phaseWithCommand]
  rw [sequencerRun_succ check]
  simp only [phaseCheck, hd]
  exact sequencerRun_complete hc _ 6

end

/-- A whole command that is accepted is its seven phases at most, one after the other, legal word or not. -/
theorem runWord_eq_phases {s : State} {c : Ctl} (hc : s.ctl? = some c) (ha : c.accepts = true) (w : CmdWord) :
    runWord w s = sequencerRun 7 (s.accept w) := by
  have hacc : (s.accept w).ctl? = some { Ctl.idle with phase := .check, cmd := some w } := by
    rw [State.accept_ctl?, hc]; rfl
  rcases runWord_cases w s with ⟨r, hd, e⟩ | ⟨i, hd, e⟩
  · rw [e, runCommand_accepts hc ha, sequencerRun_check_illegal hacc rfl rfl rfl hd]
  · rw [e, runCommand_accepts hc ha, sequencerRun_check hacc rfl rfl rfl hd]
    rfl

/-- A whole command on a controller that is not ready (R26, log 10). -/
theorem runWord_busy {s : State} {c : Ctl} (hc : s.ctl? = some c) (ha : c.accepts = false) (w : CmdWord) :
    runWord w s = .next s := by
  rcases runWord_cases w s with ⟨_, -, e⟩ | ⟨_, -, e⟩ <;> rw [e, runCommand_busy hc ha]

theorem runWord_noController {s : State} (hc : s.ctl? = none) (w : CmdWord) :
    runWord w s = .refused .noController := by
  rcases runWord_cases w s with ⟨_, -, e⟩ | ⟨_, -, e⟩ <;> simp only [e, runCommand, hc]

/-! The sequencer does not look at the turns to come -/

/-- The state with other turns to come. -/
def State.withAgenda (s : State) (l : List Turn) : State := { s with agenda := l }

/-- An answer with its next state changed. -/
def onNext (f : State → State) : Answer → Answer
  | .next s => .next (f s)
  | .fault r => .fault r
  | .refused r => .refused r

theorem issue_withAgenda {α : Type} {effect : State → α × State} {l : List Turn}
    (he : ∀ u, effect (u.withAgenda l) = ((effect u).1, (effect u).2.withAgenda l)) (d : DevAddr) (s : State) :
    issue d effect (s.withAgenda l) = ((issue d effect s).1, (issue d effect s).2.withAgenda l) := by
  have hd : drawOutcome (s.withAgenda l) = ((drawOutcome s).1, (drawOutcome s).2.withAgenda l) := by
    cases s with | mk regs ptr ctls params bus draws cur agenda reply => cases bus <;> rfl
  unfold issue
  rw [hd]
  generalize drawOutcome s = x
  by_cases h : d = s.params.devAddr
  · have h' : d = (s.withAgenda l).params.devAddr := h
    simp only [if_pos h, if_pos h']
    rcases x with ⟨_ | applied | applied, u⟩
    · simp only [he]
    · cases applied <;> simp [he]
    · cases applied <;> simp [he]
  · have h' : ¬ d = (s.withAgenda l).params.devAddr := h
    simp only [if_neg h, if_neg h']

theorem effectW1_withAgenda (p : Byte) (s : State) (l : List Turn) :
    effectW1 p (s.withAgenda l) = ((effectW1 p s).1, (effectW1 p s).2.withAgenda l) := rfl

theorem effectW2_withAgenda (p v : Byte) (s : State) (l : List Turn) :
    effectW2 p v (s.withAgenda l) = ((effectW2 p v s).1, (effectW2 p v s).2.withAgenda l) := by
  unfold effectW2 regWrite
  split <;> rfl

theorem effectR1_withAgenda (s : State) (l : List Turn) :
    effectR1 (s.withAgenda l) = ((effectR1 s).1, (effectR1 s).2.withAgenda l) := by
  cases hm : mapped s.ptr
  · rw [effectR1_unmapped hm, effectR1_unmapped (s := s.withAgenda l) hm]
    rfl
  · rw [effectR1_mapped hm, effectR1_mapped (s := s.withAgenda l) hm]
    rfl

theorem phaseFrame_withAgenda {α : Type} {effect : State → α × State} {st : ResultStep} {go : α → State → State}
    {l : List Turn} (he : ∀ u, effect (u.withAgenda l) = ((effect u).1, (effect u).2.withAgenda l))
    (hgo : ∀ a u, go a (u.withAgenda l) = (go a u).withAgenda l) (d : DevAddr) (s : State) :
    phaseFrame st go (issue d effect (s.withAgenda l)) = onNext (·.withAgenda l) (phaseFrame st go (issue d effect s)) := by
  rw [issue_withAgenda he]
  rcases issue d effect s with ⟨a | _ | _, u⟩
  · simp only [phaseFrame, afterFrame, onNext, hgo]
  · rfl
  · rfl

theorem phaseCheck_withAgenda (w : CmdWord) (s : State) (l : List Turn) :
    phaseCheck w (s.withAgenda l) = (phaseCheck w s).withAgenda l := by
  have hP : (s.withAgenda l).params = s.params := rfl
  unfold phaseCheck
  cases decodeCore w with
  | error r => rfl
  | ok i =>
    simp only [hP]
    cases staticCheck s.params i with
    | some kind => rfl
    | none => cases opcodeOf (cmdOp w) <;> rfl

theorem phaseWithCommand_withAgenda (p : Phase) (w : CmdWord) (c : Ctl) (s : State) (l : List Turn) :
    phaseWithCommand p w c (s.withAgenda l) = onNext (·.withAgenda l) (phaseWithCommand p w c s) := by
  have pointer : ∀ {st next}, phaseFrame st (fun _ u => u.enter next)
      (frameW1 (s.withAgenda l).target (cmdAddr w) (s.withAgenda l)) =
      onNext (·.withAgenda l) (phaseFrame st (fun _ u => u.enter next) (frameW1 s.target (cmdAddr w) s)) :=
    phaseFrame_withAgenda (effectW1_withAgenda _ · l) (fun _ _ => rfl) _ s
  cases p with
  | idle => rfl
  | check => exact congrArg _ (phaseCheck_withAgenda w s l)
  | rdPtr =>
    simp only [phaseWithCommand, phaseRdPtr]
    cases opcodeOf (cmdOp w) with
    | wrReg => rfl
    | rdReg | get | set => exact pointer
  | rdData =>
    simp only [phaseWithCommand, phaseRdData]
    cases opcodeOf (cmdOp w) with
    | wrReg => rfl
    | get =>
      simp only
      split_ifs
      · exact phaseFrame_withAgenda (effectR1_withAgenda · l) (fun _ _ => rfl) _ s
      · rfl
    | rdReg | set => exact phaseFrame_withAgenda (effectR1_withAgenda · l) (fun _ _ => rfl) _ s
  | merge =>
    simp only [phaseWithCommand, phaseMerge]
    cases opcodeOf (cmdOp w) with
    | rdReg | wrReg | get => rfl
    | set =>
      simp only
      cases c.cur with
      | none => rfl
      | some b =>
        simp only
        split_ifs <;> rfl
  | wrFrame =>
    simp only [phaseWithCommand, phaseWrFrame]
    cases opcodeOf (cmdOp w) with
    | rdReg | get => rfl
    | wrReg | set =>
      simp only
      cases c.new with
      | none => rfl
      | some v => exact phaseFrame_withAgenda (effectW2_withAgenda _ _ · l) (fun _ _ => rfl) _ s
  | vfPtr =>
    simp only [phaseWithCommand, phaseVfPtr]
    cases opcodeOf (cmdOp w) with
    | rdReg | wrReg | get => rfl
    | set => exact pointer
  | vfData =>
    simp only [phaseWithCommand, phaseVfData]
    cases opcodeOf (cmdOp w) with
    | rdReg | wrReg | get => rfl
    | set =>
      simp only
      split_ifs
      · exact phaseFrame_withAgenda (effectR1_withAgenda · l) (fun _ _ => rfl) _ s
      · rfl
  | done => rfl

/-- A phase does the same whatever the turns to come are, and leaves them. -/
theorem sequencerStep_withAgenda (s : State) (l : List Turn) :
    sequencerStep (s.withAgenda l) = onNext (·.withAgenda l) (sequencerStep s) := by
  have hl : (s.withAgenda l).ctl? = s.ctl? := rfl
  unfold sequencerStep
  rw [hl]
  cases s.ctl? with
  | none => rfl
  | some c =>
    simp only
    split_ifs
    · rfl
    · cases c.cmd with
      | none => rfl
      | some w => exact phaseWithCommand_withAgenda c.phase w c s l

/-- A phase leaves the parameters, the turns to come and whose turn it is. -/
theorem sequencerStep_turns {s t : State} (h : sequencerStep s = .next t) :
    t.params = s.params ∧ t.agenda = s.agenda ∧ t.cur = s.cur := by
  refine sequencerStep_keeps (P := fun u => u.params = s.params ∧ u.agenda = s.agenda ∧ u.cur = s.cur)
    ⟨fun _ _ _ h => h, fun _ _ _ h => h⟩ h ⟨rfl, rfl, rfl⟩ (fun _ _ h => h) (fun u hu => ?_) fun v u c w _ _ _ hu => ?_
  · unfold effectR1 regRead
    split_ifs <;> exact hu
  · unfold effectW2 regWrite
    split_ifs <;> exact hu

/-- A run of phases, taken from the agenda turn by turn. -/
theorem stepN_phases {s : State} {i : Nat} (hi : s.cur = i) (n : Nat) :
    stepN n (s.withAgenda (List.replicate n (.phase i) ++ s.agenda)) = sequencerRun n s := by
  induction n generalizing s with
  | zero => rfl
  | succ n ih =>
    have turn : step (s.withAgenda (List.replicate (n + 1) (.phase i) ++ s.agenda)) =
        sequencerStep (s.withAgenda (List.replicate n (.phase i) ++ s.agenda)) := by
      subst hi; rfl
    rw [stepN, turn, sequencerStep_withAgenda, sequencerRun]
    cases h : sequencerStep s with
    | fault r => rfl
    | refused r => rfl
    | next t =>
      obtain ⟨-, hag, hcur⟩ := sequencerStep_turns h
      simp only [onNext]
      rw [← hag]
      exact ih (hcur.trans hi)

end Sys2Proof.Machine
end

section
/-! SUPPORT. Whose state a turn may change: the controller it belongs to, and no other (R26, R243); and the invariant over
every turn (R232 to R234). -/

namespace Sys2Proof.Machine

/-! Turns of no controller -/

/-- A bare frame and a step of the event source touch no controller (R60, R204, R205). -/
theorem step_noController {s t : State} {x : Turn} {rest : List Turn} (ha : s.agenda = x :: rest)
    (hx : x.controller? = none) (h : step s = .next t) : t.ctls = s.ctls ∧ t.cur = s.cur := by
  cases hf : x.issuesFrame s with
  | false =>
    obtain ⟨a, v, -, rfl⟩ := step_event ha hx hf h
    exact ⟨rfl, rfl⟩
  | true =>
    cases x with
    | frame x =>
      rw [step, ha] at h
      exact runTransaction_controllers (s := { s with agenda := rest }) h
    | command _ _ | present _ _ | phase _ | take _ => simp [Turn.controller?] at hx
    | eventSet _ _ | statusUpd _ _ => simp [Turn.issuesFrame] at hf

/-! Turns of a controller -/

theorem presentCommand_next {w : CmdWord} {s t : State} (h : presentCommand w s = .next t) :
    t = s.accept w ∨ t = s := by
  unfold presentCommand at h
  split at h
  · cases h
  · split_ifs at h <;> cases h
    · exact .inl rfl
    · exact .inr rfl

theorem takeResult_next {s t : State} (h : takeResult s = .next t) : t = s.release ∨ t = s := by
  unfold takeResult at h
  split at h
  · cases h
  · split_ifs at h <;> cases h
    · exact .inl rfl
    · exact .inr rfl

/-- A word presented outside `IDLE` is a turn spent (log 10). -/
theorem step_present_notIdle {s : State} {i : Nat} {c : Ctl} {w : CmdWord} {rest : List Turn}
    (ha : s.agenda = .present i w :: rest) (hc : s.ctls[i]? = some c) (hp : c.phase ≠ .idle) :
    step s = .next { s with agenda := rest, cur := i } := by
  rw [step, ha]
  simp [takeTurn, presentCommand, State.ctl?, State.turnOf, hc, hp]

/-- The result taken in `DONE`: the controller is idle (R27, D4). -/
theorem step_take {s : State} {i : Nat} {c : Ctl} {rest : List Turn} (ha : s.agenda = .take i :: rest)
    (hc : s.ctls[i]? = some c) (hn : c.waiting = false) (hp : c.phase = .done) :
    step s = .next { s with agenda := rest, cur := i, ctls := s.ctls.set i Ctl.idle } := by
  rw [step, ha]
  simp [takeTurn, takeResult, State.ctl?, State.turnOf, hc, hn, hp, State.release, State.updCtl, ctls_modify hc]

/-- A take outside `DONE` is a turn spent (log 10). -/
theorem step_take_notDone {s : State} {i : Nat} {c : Ctl} {rest : List Turn} (ha : s.agenda = .take i :: rest)
    (hc : s.ctls[i]? = some c) (hp : c.phase ≠ .done) : step s = .next { s with agenda := rest, cur := i } := by
  rw [step, ha]
  simp [takeTurn, takeResult, State.ctl?, State.turnOf, hc, hp]

/-- What holds of controller `i` when its turn comes and is kept by its own updates and by frames, holds after the turn. -/
theorem step_controller_keeps {P : State → Prop} {s t : State} {x : Turn} {i : Nat} {rest : List Turn}
    (hP : Private P) (ha : s.agenda = x :: rest) (hx : x.controller? = some i) (h : step s = .next t)
    (hs : P { s with agenda := rest, cur := i }) (hf : ∀ u v, RegisterChange u v → P u → P v) : P t := by
  have h1 : ∀ p u, P u → P (effectW1 p u).2 := fun p u => hf _ _ (effectW1_change p u)
  have hr : ∀ u, P u → P (effectR1 u).2 := fun u => hf _ _ (effectR1_change u)
  have h2 : ∀ p v u, P u → P (effectW2 p v u).2 := fun p v u => hf _ _ (effectW2_change p v u)
  rw [step, ha] at h
  cases x <;> simp only [Turn.controller?, Option.some.injEq, reduceCtorEq] at hx <;> subst hx <;> simp only [takeTurn] at h
  case command w => exact runWord_keeps hP h hs h1 hr h2
  case present w =>
    rcases presentCommand_next h with rfl | rfl
    · exact hP.updCtl _ _ hs
    · exact hs
  case phase => exact sequencerStep_keeps hP.sequenced h hs h1 hr fun v u c w _ _ _ => h2 _ _ _
  case take =>
    rcases takeResult_next h with rfl | rfl
    · exact hP.updCtl _ _ hs
    · exact hs

theorem step_cur {s t : State} {x : Turn} {i : Nat} {rest : List Turn} (ha : s.agenda = x :: rest)
    (hx : x.controller? = some i) (h : step s = .next t) : t.cur = i :=
  step_controller_keeps (P := fun u => u.cur = i) ⟨fun _ _ hu => hu, fun _ _ _ hu => hu⟩ ha hx h rfl fun _ _ hv hu => hv.cur.trans hu

/-- A turn of controller `i` leaves every other controller as it was. -/
theorem step_otherController {s t : State} {x : Turn} {i j : Nat} {rest : List Turn} (ha : s.agenda = x :: rest)
    (hx : x.controller? = some i) (hij : i ≠ j) (h : step s = .next t) : t.ctls[j]? = s.ctls[j]? := by
  suffices ht : t.cur = i ∧ t.ctls[j]? = s.ctls[j]? from ht.2
  refine step_controller_keeps (P := fun u => u.cur = i ∧ u.ctls[j]? = s.ctls[j]?) ⟨?_, fun _ _ _ h => h⟩ ha hx h
    ⟨rfl, rfl⟩ ?_
  · rintro u f ⟨hcur, hu⟩
    refine ⟨hcur, ?_⟩
    rw [State.updCtl_ctls, List.getElem?_modify_ne _ _ (hcur ▸ hij), hu]
  · rintro u v hv ⟨hcur, hu⟩
    exact ⟨hv.cur.trans hcur, hv.ctls ▸ hu⟩

/-- Every command and pseudo-instruction, but no bare frame, is one `runCommand` (R26). -/
theorem exec_eq_runCommand {i : Instr} (hi : registerOf i ≠ none) (s : State) :
    ∃ w failed body, exec i s = runCommand w failed body s := by
  cases i with
  | w1 _ _ | w2 _ _ _ | r1 _ => exact absurd rfl hi
  | rdReg _ | wrReg _ _ | get _ _ _ | set _ _ _ _ | setEnSbb0 _ | setTvLdo _ => exact ⟨_, _, _, rfl⟩
  | getEnSbb0 => exact ⟨encodeGet 0x2A 0 3, checkGet 0x2A 0 3, bodyGet 0x2A 0 3, rfl⟩
  | getTvLdo => exact ⟨encodeGet 0x38 0 7, checkGet 0x38 0 7, bodyGet 0x38 0 7, rfl⟩

/-! The invariant -/

/-- The controller whose turn it is exists and is consistent. -/
def State.CurConsistent (s : State) : Prop := ∃ c, s.ctl? = some c ∧ c.consistent s.params = true

theorem sequencerStep_curConsistent {s t : State} (hs : s.CurConsistent) (h : sequencerStep s = .next t) :
    t.CurConsistent := by
  obtain ⟨c, hc, hcons⟩ := hs
  obtain ⟨t', c', e, hc', -, hm⟩ := sequencerStep_moves hc hcons
  rw [e] at h
  cases h
  exact ⟨c', hc', (sequencerStep_turns e).1 ▸ hm.consistent⟩

/-- An accepted word is all that a controller in `CHECK` holds (R27, R32). -/
theorem State.accept_curConsistent {s : State} {c : Ctl} (hc : s.ctl? = some c) (w : CmdWord) :
    (s.accept w).CurConsistent :=
  ⟨_, by rw [State.accept_ctl?, hc]; rfl, rfl⟩

theorem State.release_curConsistent {s : State} {c : Ctl} (hc : s.ctl? = some c) : s.release.CurConsistent :=
  ⟨Ctl.idle, by rw [State.release, State.updCtl_ctl?, hc]; rfl, by simp [Ctl.consistent, Ctl.idle]⟩

/-- A whole command ends with its controller consistent, since each of its phases does. -/
theorem runWord_curConsistent {s t : State} {w : CmdWord} (hs : s.CurConsistent) (h : runWord w s = .next t) :
    t.CurConsistent := by
  obtain ⟨c, hc, hcons⟩ := hs
  cases ha : c.accepts with
  | false =>
    rw [runWord_busy hc ha] at h
    cases h
    exact ⟨c, hc, hcons⟩
  | true =>
    rw [runWord_eq_phases hc ha] at h
    exact sequencerRun_keeps (fun _ _ => sequencerStep_curConsistent) h (State.accept_curConsistent hc w)

/-- A turn of a controller that does not exist is refused (R243). -/
theorem step_controller_exists {s t : State} {x : Turn} {i : Nat} {rest : List Turn} (ha : s.agenda = x :: rest)
    (hx : x.controller? = some i) (h : step s = .next t) : ∃ c, s.ctls[i]? = some c := by
  rw [← Option.ne_none_iff_exists']
  intro hnone
  have hc : (({ s with agenda := rest } : State).turnOf i).ctl? = none := hnone
  rw [step, ha] at h
  cases x <;> simp only [Turn.controller?, Option.some.injEq, reduceCtorEq] at hx <;> subst hx <;>
    simp only [takeTurn, runWord_noController hc, presentCommand, sequencerStep, takeResult, hc, reduceCtorEq] at h

/-- A turn of a consistent controller leaves it consistent. -/
theorem step_curConsistent {s t : State} {x : Turn} {i : Nat} {rest : List Turn} (ha : s.agenda = x :: rest)
    (hx : x.controller? = some i) (h : step s = .next t) (hcons : ∀ c ∈ s.ctls, c.consistent s.params = true) :
    t.CurConsistent := by
  obtain ⟨c, hc⟩ := step_controller_exists ha hx h
  have hc' : (({ s with agenda := rest } : State).turnOf i).ctl? = some c := hc
  have hu : (({ s with agenda := rest } : State).turnOf i).CurConsistent := ⟨c, hc', hcons c (List.mem_of_getElem? hc)⟩
  rw [step, ha] at h
  cases x <;> simp only [Turn.controller?, Option.some.injEq, reduceCtorEq] at hx <;> subst hx <;>
    simp only [takeTurn] at h
  case command w => exact runWord_curConsistent hu h
  case present w =>
    rcases presentCommand_next h with rfl | rfl
    · exact State.accept_curConsistent hc' w
    · exact hu
  case phase => exact sequencerStep_curConsistent hu h
  case take =>
    rcases takeResult_next h with rfl | rfl
    · exact State.release_curConsistent hc'
    · exact hu

theorem mapped_of_statusRegister {a : Byte} (h : statusRegister a = true) : mapped a = true := by
  simp only [statusRegister, Bool.or_eq_true, beq_iff_eq] at h
  rcases h with (rfl | rfl) | rfl <;> decide

/-- No step breaks the canonical form, changes a parameter, or makes or removes a controller (R21, R82, R243). -/
theorem step_keeps_form {s t : State} (h : step s = .next t) (hs : Memory.wf s.regs) :
    Memory.wf t.regs ∧ t.params = s.params ∧ t.ctls.length = s.ctls.length := by
  refine step_keeps (P := fun u => Memory.wf u.regs ∧ u.params = s.params ∧ u.ctls.length = s.ctls.length)
    ⟨fun u f hu => ?_, fun _ _ _ hu => hu⟩ h ⟨hs, rfl, rfl⟩ (fun _ _ hu => hu) (fun _ _ hu => hu) (fun _ _ hu => hu)
    (fun _ _ hu => hu) (fun u a ha hu => ?_) (fun u a v ha hu => ?_) (fun u a b _ ha hu => ?_) fun u a b ha hu => ?_
  · obtain ⟨hwf, hp, hl⟩ := hu
    exact ⟨hwf, hp, by simpa using hl⟩
  all_goals obtain ⟨hwf, hp, hl⟩ := hu
  · exact ⟨Memory.wf_write hwf ha _, hp, hl⟩
  · exact ⟨Memory.wf_write hwf ha _, hp, hl⟩
  · exact ⟨Memory.wf_write hwf (mapped_of_classOf ha) _, hp, hl⟩
  · exact ⟨Memory.wf_write hwf (mapped_of_statusRegister ha) _, hp, hl⟩

end Sys2Proof.Machine
end

section
/-! SUPPORT. The configuration registers: which they are (R36), and what can change one. -/

namespace Sys2Proof.Machine

/-- The `RW` registers are those that a row of class `RW` of the register map names (R33, R36). -/
theorem classOf_rw_iff (a : Byte) : classOf a = some .rw ↔ a ∈ readWriteRegisters := by
  have rows : ∀ r ∈ registerMap, r.cls = .rw → r.addr ∈ readWriteRegisters := by decide
  have listed : ∀ b ∈ readWriteRegisters, classOf b = some .rw := by decide
  refine ⟨fun h => ?_, listed a⟩
  obtain ⟨r, hr, hc⟩ := Option.map_eq_some_iff.mp h
  have ha : r.addr = a := by simpa using List.find?_some hr
  exact ha ▸ rows r (List.mem_of_find?_eq_some hr) hc

/-- A bus read leaves an `RW` register as it is (R68, R200). -/
theorem effectR1_reg {a : Byte} (ha : classOf a = some .rw) (s : State) : (effectR1 s).2.reg a = s.reg a := by
  cases hm : mapped s.ptr
  · rw [effectR1_unmapped hm]; rfl
  · rw [effectR1_mapped hm, freePtr_reg, State.setReg_reg]
    split_ifs with he
    · rw [← he, read_keeps (by simp [ha])]
    · rfl

/-- A bus write changes no register but the one it names (R66). -/
theorem effectW2_reg {a p : Byte} (hp : p ≠ a) (v : Byte) (s : State) : (effectW2 p v s).2.reg a = s.reg a := by
  cases hm : mapped p
  · simp [effectW2, regWrite_unmapped hm]
  · simp [effectW2, regWrite_mapped hm, hp.symm]

/-- `REG[a]` holds `b`, which controllers' own updates and the oracle's draws keep. -/
theorem Private.reg (a b : Byte) : Private fun u => u.reg a = b := ⟨fun _ _ h => h, fun _ _ _ h => h⟩

/-- What a whole command keeps, if its body does. -/
theorem runCommand_keeps {P : State → Prop} (hP : Private P) {w : CmdWord} {failed : Option ResultKind}
    {body : State → State} {s t : State} (h : runCommand w failed body s = .next t) (hs : P s)
    (hb : ∀ u, P u → P (body u)) : P t := by
  rcases runCommand_cases w failed body s with ⟨-, e⟩ | ⟨_, -, -, e⟩ | ⟨_, -, -, ⟨_, -, e⟩ | ⟨-, e⟩⟩ <;> rw [e] at h <;>
    cases h
  · exact hs
  · exact hP.updCtl _ _ (hP.updCtl _ _ hs)
  · exact hb _ (hP.updCtl _ _ hs)

/-- A whole command changes an `RW` register only if it is a `WR_REG` or a `SET` of it. -/
theorem runWord_changes_rw {w : CmdWord} {s t : State} {a : Byte} (h : runWord w s = .next t)
    (ha : classOf a = some .rw) (hne : t.reg a ≠ s.reg a) :
    cmdAddr w = a ∧ (opcodeOf (cmdOp w) = .wrReg ∨ opcodeOf (cmdOp w) = .set) := by
  have hP := Private.reg a (s.reg a)
  have read : ∀ {p d st x u} {go : Byte → State → State}, u.reg a = s.reg a →
      (∀ b v, v.reg a = s.reg a → (go b v).reg a = s.reg a) → (memRead p d st x go u).reg a = s.reg a :=
    fun hu hgo => memRead_keeps hP hu (fun _ hu => hu) (fun v hv => (effectR1_reg ha v).trans hv) hgo
  have write : ∀ {v u} {go : State → State}, cmdAddr w ≠ a → u.reg a = s.reg a →
      (∀ v, v.reg a = s.reg a → (go v).reg a = s.reg a) → (memWrite (cmdAddr w) v go u).reg a = s.reg a :=
    fun hp hu hgo => memWrite_keeps hP hu (fun v hv => (effectW2_reg hp _ v).trans hv) hgo
  by_contra hno
  apply hne
  rcases runWord_cases w s with ⟨_, -, e⟩ | ⟨i, hd, e⟩ <;> rw [e] at h
  · exact runCommand_keeps hP h rfl fun _ hu => hu
  · refine runCommand_keeps hP h rfl fun u hu => ?_
    rcases decodeCore_ok hd with ⟨-, rfl, -⟩ | ⟨ho, rfl, -⟩ | ⟨-, -, rfl, -⟩ | ⟨ho, -, rfl, -⟩
    · exact read hu fun _ _ hv => hv
    · exact write (fun hp => hno ⟨hp, .inl ho⟩) hu fun _ hv => hv
    · exact read hu fun _ _ hv => hv
    · exact read hu fun _ _ hv => write (fun hp => hno ⟨hp, .inr ho⟩) hv fun _ hx => read hx fun _ _ hy => hy

/-- A phase changes an `RW` register only in `WR_FRAME` of a command that names it. -/
theorem sequencerStep_changes_rw {s t : State} {a : Byte} (h : sequencerStep s = .next t) (ha : classOf a = some .rw)
    (hne : t.reg a ≠ s.reg a) :
    ∃ c w, s.ctl? = some c ∧ c.phase = .wrFrame ∧ c.cmd = some w ∧ cmdAddr w = a := by
  by_contra hno
  refine hne (sequencerStep_keeps (Private.reg a (s.reg a)).sequenced h rfl (fun _ _ hu => hu)
    (fun u hu => (effectR1_reg ha u).trans hu) fun v u c w hc hp hw hu => ?_)
  exact (effectW2_reg (fun e => hno ⟨c, w, hc, hp, hw, e⟩) v u).trans hu

/-- A bus transaction changes an `RW` register only if it is a two-byte write to it. -/
theorem runTransaction_changes_rw {x : Transaction} {s t : State} {a : Byte} (h : runTransaction x s = .next t)
    (ha : classOf a = some .rw) (hne : t.reg a ≠ s.reg a) : ∃ d v, x = .write d [a, v] := by
  by_contra hno
  refine hne (runTransaction_keeps (Private.reg a (s.reg a)) h rfl (fun _ _ hu => hu) (fun _ _ _ _ hu => hu)
    (fun _ _ u hu => (effectR1_reg ha u).trans hu) fun d p v hx u hu => ?_)
  exact (effectW2_reg (fun e => hno ⟨d, v, by rw [hx, e]⟩) v u).trans hu

end Sys2Proof.Machine
end

section
/-! The statements of the state's family: who may change what, and what every step keeps (10_state.md, R26 to R41). -/

namespace Sys2Proof.Machine

/-- Settles O54: the controller of the turn by its phases (`step_curConsistent`), every other controller because it is
as before, the rest of the state by `step_keeps_form`. -/
theorem everyStepKeepsTheInvariant : Obligations.EveryStepKeepsTheInvariant := by
  intro s t hs h
  obtain ⟨hwf, hparams, hlen⟩ := step_keeps_form h hs.regsWf
  suffices hctl : t.cur < t.ctls.length ∧ ∀ c ∈ t.ctls, c.consistent s.params = true by
    exact ⟨hwf, hparams ▸ hs.paramsLegal, hlen.trans (hparams ▸ hs.controllers), hctl.1, hparams ▸ hctl.2⟩
  cases ha : s.agenda with
  | nil =>
    rw [step, ha] at h
    cases h
    exact ⟨hs.curExists, hs.consistent⟩
  | cons x rest =>
    cases hx : x.controller? with
    | none =>
      obtain ⟨hctls, hcur⟩ := step_noController ha hx h
      rw [hctls, hcur]
      exact ⟨hs.curExists, hs.consistent⟩
    | some i =>
      obtain ⟨c, hc, hcons⟩ := step_curConsistent ha hx h hs.consistent
      rw [State.ctl?, step_cur ha hx h] at hc
      rw [step_cur ha hx h]
      refine ⟨(List.getElem?_eq_some_iff.mp hc).1, fun d hd => ?_⟩
      obtain ⟨j, hj⟩ := List.mem_iff_getElem?.mp hd
      by_cases hij : i = j
      · subst hij
        rw [hc] at hj
        cases hj
        exact hparams ▸ hcons
      · rw [step_otherController ha hx hij h] at hj
        exact hs.consistent d (List.mem_of_getElem? hj)

/-- Settles O46: each kind of turn by its own `_changes_rw` lemma, or because it issues no frame. -/
theorem configurationChangesOnlyByBusWrites : Obligations.ConfigurationChangesOnlyByBusWrites := by
  refine ⟨classOf_rw_iff, fun s t a h ha hne => ?_⟩
  cases hag : s.agenda with
  | nil =>
    rw [step, hag] at h
    cases h
    exact absurd rfl hne
  | cons x rest =>
    have hstep : takeTurn x { s with agenda := rest } = .next t := by rwa [step, hag] at h
    cases x with
    | command i w => exact .inl ⟨i, w, rfl, runWord_changes_rw hstep ha hne⟩
    | phase i =>
      obtain ⟨c, w, hc, hp, hw, hx⟩ := sequencerStep_changes_rw hstep ha hne
      exact .inr (.inl ⟨i, c, w, rfl, hc, hp, hw, hx⟩)
    | frame x =>
      obtain ⟨d, v, rfl⟩ := runTransaction_changes_rw hstep ha hne
      exact .inr (.inr ⟨d, v, rfl⟩)
    | present i w =>
      obtain ⟨f, rfl⟩ := step_withoutFrame hag rfl rfl h
      exact absurd rfl hne
    | take i =>
      obtain ⟨f, rfl⟩ := step_withoutFrame hag rfl rfl h
      exact absurd rfl hne
    | eventSet b bits | statusUpd b v =>
      obtain ⟨b, v, hb, rfl⟩ := step_event hag rfl rfl h
      have hab : a ≠ b := fun e => hb (e ▸ ha)
      exact absurd ((State.setReg_reg _ _ _ _).trans (if_neg hab)) hne

/-- Settles O48: with the phases' turns taken one by one, the run is that of the sequencer (`stepN_phases`), and that run
is the whole command (`runWord_eq_phases`). -/
theorem phaseByPhaseIsTheWholeCommand : Obligations.PhaseByPhaseIsTheWholeCommand := by
  intro s i c w rest hc hp hn ha
  let u : State := { s with agenda := rest, cur := i }
  have hu : u.ctl? = some c := hc
  have present : step s = .next ((u.accept w).withAgenda (List.replicate 7 (.phase i) ++ rest)) := by
    rw [step, ha]
    simp only [takeTurn, presentCommand, State.ctl?, State.turnOf, hc, hn, hp]
    rfl
  calc stepN 8 s = stepN 7 ((u.accept w).withAgenda (List.replicate 7 (.phase i) ++ rest)) := by rw [stepN, present]
    _ = sequencerRun 7 (u.accept w) := stepN_phases (s := u.accept w) rfl 7
    _ = runWord w u := (runWord_eq_phases hu (by simp [Ctl.accepts, hn, hp]) w).symm
    _ = step { s with agenda := .command i w :: rest } := rfl

/-- Settles O49: a phase turn by `sequencerStep_moves`, the requester's two moves by their equations. -/
theorem phaseTurnFollowsTheTable : Obligations.PhaseTurnFollowsTheTable := by
  intro s i c rest hc h
  refine ⟨fun ha => ?_, fun w ha => ?_, fun ha => ?_⟩
  · let u : State := { s with agenda := rest, cur := i }
    have hstep : step s = sequencerStep u := by rw [step, ha]; rfl
    obtain ⟨t, c', ht, hc', hb, hm⟩ := sequencerStep_moves (s := u) hc h
    obtain ⟨-, -, hcur⟩ := sequencerStep_turns ht
    refine ⟨t, c', hstep.trans ht, ?_, hm.cmd, hb, hm.arrow⟩
    rw [State.ctl?, hcur] at hc'
    exact hc'
  · by_cases hp : c.phase = .idle
    · rw [step_present ha hc (c.consistent_notWaiting h (.inl hp)) hp, if_pos hp]
      rfl
    · rw [step_present_notIdle ha hc hp, if_neg hp]
  · by_cases hp : c.phase = .done
    · rw [step_take ha hc (c.consistent_notWaiting h (.inr hp)) hp, if_pos hp]
      rfl
    · rw [step_take_notDone ha hc hp, if_neg hp]

/-- Settles O50, by whether the turn is a controller's or not. -/
theorem controllersShareNoState : Obligations.ControllersShareNoState := by
  intro s t x rest ha h j hj
  cases hx : x.controller? with
  | none => rw [(step_noController ha hx h).1]
  | some i => exact step_otherController ha hx (fun e => hj (hx.trans (congrArg some e))) h

/-- Settles O32: every command is one `runCommand`, which a controller that is not ready does not accept. -/
theorem busyControllerAcceptsNothing : Obligations.BusyControllerAcceptsNothing := by
  intro s c i hc ha hi
  obtain ⟨w, failed, body, e⟩ := exec_eq_runCommand hi s
  rw [e, runCommand_busy hc ha]

end Sys2Proof.Machine
end

section
/-! SUPPORT. A bare frame, one of the three instructions of the register file: what it is (R120 to R122), and what it leaves
for each outcome (R63, R74, R75). -/

namespace Sys2Proof.Machine

theorem exec_w1 (d : DevAddr) (p : Byte) (s : State) :
    exec (.w1 d p) s = .next (keepReply (fun _ => none) (issue d (effectW1 p) s)) := rfl

theorem exec_w2 (d : DevAddr) (p v : Byte) (s : State) :
    exec (.w2 d p v) s = .next (keepReply (fun _ => none) (issue d (effectW2 p v) s)) := rfl

theorem exec_r1 (d : DevAddr) (s : State) : exec (.r1 d) s = .next (keepReply some (issue d effectR1 s)) := rfl

/-- A bare frame to another device address is answered `fail`, and nothing else happens (R63). -/
theorem keepReply_otherDevice {α : Type} {g : α → Option Byte} {d : DevAddr} {effect : State → α × State} {s : State}
    (h : d ≠ s.params.devAddr) : keepReply g (issue d effect s) = { s with reply := some .fail } := by
  rw [issue_otherDevice h]
  rfl

/-- The outcomes without success against success: the same state but for the reply, or the state before but for the reply
and the outcome used up (R75). -/
theorem keepReply_allOrNothing {α : Type} {g : α → Option Byte} {d : DevAddr} {effect : State → α × State} {s : State}
    {rest : List BusDraw} (hd : d = s.params.devAddr) :
    let t := keepReply g (issue d effect { s with bus := .ok :: rest })
    keepReply g (issue d effect { s with bus := .fail true :: rest }) = { t with reply := some .fail } ∧
    keepReply g (issue d effect { s with bus := .fail false :: rest }) = { s with bus := rest, reply := some .fail } ∧
    keepReply g (issue d effect { s with bus := .never true :: rest }) = { t with reply := some .never } ∧
    keepReply g (issue d effect { s with bus := .never false :: rest }) = { s with bus := rest, reply := some .never } := by
  have fails := fun applied => issue_fail (effect := effect) (s := { s with bus := .fail applied :: rest }) hd rfl
  have hangs := fun applied => issue_never (effect := effect) (s := { s with bus := .never applied :: rest }) hd rfl
  have succeeds := issue_ok (effect := effect) (s := { s with bus := .ok :: rest }) hd rfl
  rw [fails, fails, hangs, hangs, succeeds]
  exact ⟨rfl, rfl, rfl, rfl⟩

/-- What holds of the state before with any draw of the oracle, and of that with the frame's effect, holds after a bare
frame, whatever its outcome. -/
theorem keepReply_post {α : Type} {Q : State → Prop} (g : α → Option Byte) (d : DevAddr) {effect : State → α × State}
    {s : State} (hreply : ∀ u r, Q u → Q { u with reply := r })
    (hdraw : ∀ bus draws, Q { s with bus := bus, draws := draws })
    (heffect : ∀ bus draws, Q (effect { s with bus := bus, draws := draws }).2) :
    Q (keepReply g (issue d effect s)) := by
  rcases issue_cases d effect s with ⟨-, h⟩ | ⟨-, b, n, t, rfl, h | h | h | h | h⟩ <;> rw [h] <;> apply hreply
  · exact hdraw s.bus s.draws
  · exact heffect b n
  · exact heffect b n
  · exact hdraw b n
  · exact heffect b n
  · exact hdraw b n

/-- What no frame on the register file changes: the controllers, the parameters, whose turn it is, the turns to come. -/
def SameAgents (s t : State) : Prop :=
  t.ctls = s.ctls ∧ t.params = s.params ∧ t.cur = s.cur ∧ t.agenda = s.agenda

theorem effectW2_sameAgents (p v : Byte) (s : State) : SameAgents s (effectW2 p v s).2 := by
  cases hm : mapped p
  · rw [effectW2, regWrite_unmapped hm]
    exact ⟨rfl, rfl, rfl, rfl⟩
  · rw [effectW2, regWrite_mapped hm]
    exact ⟨rfl, rfl, rfl, rfl⟩

theorem effectR1_sameAgents (s : State) : SameAgents s (effectR1 s).2 := by
  cases hm : mapped s.ptr
  · rw [effectR1_unmapped hm]
    exact ⟨rfl, rfl, rfl, rfl⟩
  · rw [effectR1_mapped hm]
    exact ⟨rfl, rfl, rfl, rfl⟩

/-- A bus write to a register that takes none leaves it (R35, R37, R66). -/
theorem effectW2_reg_protected {a : Byte} (ha : classOf a ≠ some .rw) (p v : Byte) (s : State) :
    (effectW2 p v s).2.reg a = s.reg a := by
  by_cases hp : p = a
  · subst hp
    cases hm : mapped p
    · simp [effectW2, regWrite_unmapped hm]
    · simp [effectW2, regWrite_mapped hm, write_protected ha]
  · exact effectW2_reg hp v s

/-- A bus read leaves every register but a read-clear one at the pointer (R68, R200). -/
theorem effectR1_reg_kept {s : State} {a : Byte} (ha : a ≠ s.ptr ∨ classOf a ≠ some .rc) :
    (effectR1 s).2.reg a = s.reg a := by
  cases hm : mapped s.ptr
  · rw [effectR1_unmapped hm]
    rfl
  · rw [effectR1_mapped hm, freePtr_reg, State.setReg_reg]
    split_ifs with he
    · rw [← he, read_keeps (ha.resolve_left (fun hne => hne he))]
    · rfl

/-- `W1` for every outcome: it changes no register (R64). -/
theorem frameW1_post (d : DevAddr) (p : Byte) (s : State) :
    let t := keepReply (fun _ => none) (frameW1 d p s)
    SameAgents s t ∧ t.regs = s.regs :=
  keepReply_post (Q := fun t => SameAgents s t ∧ t.regs = s.regs) _ d (fun _ _ hu => hu)
    (fun _ _ => ⟨⟨rfl, rfl, rfl, rfl⟩, rfl⟩) fun _ _ => ⟨⟨rfl, rfl, rfl, rfl⟩, rfl⟩

/-- `W2` for every outcome: no register but the `RW` register it names (R65, R66). -/
theorem frameW2_post (d : DevAddr) (p v : Byte) (s : State) :
    let t := keepReply (fun _ => none) (frameW2 d p v s)
    SameAgents s t ∧ ∀ a, a ≠ p ∨ classOf a ≠ some .rw → t.reg a = s.reg a := by
  refine keepReply_post (Q := fun t => SameAgents s t ∧ ∀ a, a ≠ p ∨ classOf a ≠ some .rw → t.reg a = s.reg a) _ d
    (fun _ _ hu => hu) (fun _ _ => ⟨⟨rfl, rfl, rfl, rfl⟩, fun _ _ => rfl⟩) fun _ _ =>
    ⟨effectW2_sameAgents p v _, fun a ha => ?_⟩
  rcases ha with ha | ha
  · exact effectW2_reg ha.symm v _
  · exact effectW2_reg_protected ha p v _

/-- `R1` for every outcome: no register but the read-clear one the pointer names (R67, R68). -/
theorem frameR1_post (d : DevAddr) (s : State) :
    let t := keepReply some (frameR1 d s)
    SameAgents s t ∧ ∀ a, a ≠ s.ptr ∨ classOf a ≠ some .rc → t.reg a = s.reg a :=
  keepReply_post (Q := fun t => SameAgents s t ∧ ∀ a, a ≠ s.ptr ∨ classOf a ≠ some .rc → t.reg a = s.reg a) _ d
    (fun _ _ hu => hu) (fun _ _ => ⟨⟨rfl, rfl, rfl, rfl⟩, fun _ _ => rfl⟩) fun _ _ =>
    ⟨effectR1_sameAgents _, fun _ ha => effectR1_reg_kept ha⟩

end Sys2Proof.Machine
end

section
/-! SUPPORT. A command among whose frames one never completes (R74, R233): the frames before it succeed, and the controller
stays in the phase of that frame. First the commands that pass their checks, as the register accesses they begin with. -/

namespace Sys2Proof.Machine

/-! A command that is accepted and passes its checks -/

/-- The static checks of `SET` pass (R225): a legal field of an `RW` register, and under `REJECT` a value in range. -/
theorem checkSet_eq_none {P : Params} {a : Byte} {o w : Nat} {v : Byte} (hl : legalField o w = true)
    (ha : classOf a = some .rw) (hv : P.rangePolicy = .truncate ∨ v ≤ maskGen w) : checkSet P a o w v = none := by
  have hrange : ¬ (P.rangePolicy = .reject ∧ inRange v w = false) := by
    rintro ⟨hp, hr⟩
    rcases hv with hv | hv
    · simp [hv] at hp
    · simp [inRange, hv] at hr
  simp [checkSet, hl, mapped_of_classOf ha, ha, hrange]

section
variable {s : State} {c : Ctl} {a : Byte} (hc : s.ctl? = some c) (hacc : c.accepts = true)
include hc hacc

/-- `RD_REG` and `GET` of a mapped register are one read access (R125, R160). -/
theorem exec_readsOnly (ha : mapped a = true) {i : Instr} (hi : readsOnly a i) :
    ∃ w go, exec i s = .next (memRead .rdPtr .rdData .firstRead a go (s.accept w)) := by
  have hcheck : checkAddress a = none := by simp [checkAddress, ha]
  rcases hi with rfl | ⟨o, w, hl, rfl⟩
  · exact ⟨_, _, (runCommand_accepts hc hacc).trans (by rw [hcheck]; rfl)⟩
  · exact ⟨_, _, (runCommand_accepts hc hacc).trans (by rw [checkGet, if_pos hl, hcheck]; rfl)⟩

theorem exec_wrReg_runs (ha : mapped a = true) (v : Byte) :
    exec (.wrReg a v) s = .next (bodyWrReg a v (s.accept (encodeWrReg a v))) :=
  (runCommand_accepts hc hacc).trans (by rw [checkAddress, if_pos ha])

theorem exec_set_runs {o w : Nat} {v : Byte} (hl : legalField o w = true) (ha : classOf a = some .rw)
    (hv : s.params.rangePolicy = .truncate ∨ v ≤ maskGen w) :
    exec (.set a o w v) s = .next (bodySet a o w v (s.accept (encodeSet a o w v))) :=
  (runCommand_accepts hc hacc).trans (by rw [checkSet_eq_none hl ha hv])

end

/-! A frame that never completes -/

/-- The controller whose turn it is is `c`, its handle names the register file (R252), and the outcomes `bus` are fixed for
the frames to come. -/
structure State.Faces (s : State) (bus : List BusDraw) (c : Ctl) : Prop where
  target : s.target = s.params.devAddr
  bus : s.bus = bus
  ctl : s.ctl? = some c

/-- A controller that accepts a word faces the outcomes that were fixed (R27). -/
theorem State.Serves.accept {s : State} {k : Nat} {rest : List BusDraw} (h : s.Serves k rest) (w : CmdWord) :
    (s.accept w).Faces (List.replicate k .ok ++ rest) { Ctl.idle with phase := .check, cmd := some w } := by
  obtain ⟨⟨c, hc, -⟩, ht, hb⟩ := h
  exact ⟨ht, hb, by rw [State.accept_ctl?, hc]; rfl⟩

/-- The controller has become `c` with a frame outstanding that never completes; `rest` of the fixed outcomes are left. -/
def State.HangsAs (s : State) (rest : List BusDraw) (c : Ctl) : Prop :=
  s.bus = rest ∧ s.ctl? = some { c with waiting := true }

section
variable {s : State} {c : Ctl} {applied : Bool} {rest : List BusDraw}

theorem State.hang_hangsAs (hb : s.bus = rest) (hc : s.ctl? = some c) : s.hang.HangsAs rest c :=
  ⟨hb, by rw [State.hang_ctl?, hc]; rfl⟩

theorem State.Faces.enter {bus : List BusDraw} (h : s.Faces bus c) (p : Phase) :
    (s.enter p).Faces bus { c with phase := p } :=
  ⟨h.target, h.bus, by rw [State.enter_ctl?, h.ctl]; rfl⟩

theorem State.Faces.latchCur {bus : List BusDraw} (h : s.Faces bus c) (b : Byte) :
    (s.latchCur b).Faces bus { c with cur := some b } :=
  ⟨h.target, h.bus, by rw [State.latchCur_ctl?, h.ctl]; rfl⟩

theorem State.Faces.latchNew {bus : List BusDraw} (h : s.Faces bus c) (b : Byte) :
    (s.latchNew b).Faces bus { c with new := some b } :=
  ⟨h.target, h.bus, by rw [State.latchNew_ctl?, h.ctl]; rfl⟩

theorem State.Faces.withBus {bus : List BusDraw} (h : s.Faces bus c) (bus' : List BusDraw) :
    ({ s with bus := bus' } : State).Faces bus' c := ⟨h.target, rfl, h.ctl⟩

/-- Whether the effect of a frame that never completes was applied or not, its issuer hangs (R75, R233). -/
theorem afterFrame_never {α : Type} {effect : State → α × State} {st : ResultStep} {go : α → State → State}
    (he : ∀ u, RegisterChange u (effect u).2) (h : s.Faces (.never applied :: rest) c) :
    (afterFrame st go (issue s.target effect s)).HangsAs rest c := by
  rw [issue_never h.target h.bus]
  cases applied with
  | false => exact State.hang_hangsAs rfl h.ctl
  | true =>
    obtain ⟨hctls, hcur, hbus⟩ := he { s with bus := rest }
    refine State.hang_hangsAs hbus ?_
    rw [if_pos rfl, State.ctl?, hctls, hcur]
    exact h.ctl

variable {a : Byte}

section
variable {pointer data : Phase} {st : ResultStep} {go : Byte → State → State}

theorem memRead_never_pointer (h : s.Faces (.never applied :: rest) c) :
    (memRead pointer data st a go s).HangsAs rest { c with phase := pointer } :=
  afterFrame_never (effectW1_change a) (h.enter pointer)

theorem memRead_never_data (h : s.Faces (.ok :: .never applied :: rest) c) :
    (memRead pointer data st a go s).HangsAs rest { c with phase := data } := by
  obtain ⟨ht, hb, hc⟩ := h.enter pointer
  have pointed : ({ s.enter pointer with bus := .never applied :: rest }.setPtr a).Faces (.never applied :: rest)
      { c with phase := pointer } := ⟨ht, rfl, hc⟩
  simp only [memRead, frameW1, issue_ok ht hb, afterFrame]
  exact afterFrame_never effectR1_change (pointed.enter data)

end

theorem memWrite_never {v : Byte} {go : State → State} (h : s.Faces (.never applied :: rest) c) :
    (memWrite a v go s).HangsAs rest { c with phase := .wrFrame } :=
  afterFrame_never (effectW2_change a v) (h.enter .wrFrame)

/-- After a register read whose two frames succeed the controller is in the phase of the second, and faces the rest. -/
theorem memRead_ok_faces {pointer data : Phase} {st : ResultStep} {go : Byte → State → State} {bus : List BusDraw}
    (h : s.Faces (.ok :: .ok :: bus) c) (ha : mapped a = true) :
    ∃ u, memRead pointer data st a go s = go (s.reg a) u ∧ u.Faces bus { c with phase := data } := by
  obtain ⟨ht, -, hc⟩ := ((h.withBus bus).enter pointer).enter data
  exact ⟨_, memRead_ok h.target ha h.bus, ht, rfl, hc⟩

/-- The same after a register write whose frame succeeds. -/
theorem memWrite_ok_faces {v : Byte} {go : State → State} {bus : List BusDraw} (h : s.Faces (.ok :: bus) c)
    (ha : mapped a = true) : ∃ u, memWrite a v go s = go u ∧ u.Faces bus { c with phase := .wrFrame } := by
  obtain ⟨ht, -, hc⟩ := (h.withBus bus).enter .wrFrame
  have e := memWrite_ok (a := a) (v := v) (go := go) h.target h.bus
  rw [regWrite_mapped ha] at e
  exact ⟨_, e, ht, rfl, hc⟩

/-- The read access that `RD_REG`, `GET` and `SET` begin with hangs in the phase of its first or of its second frame. -/
theorem firstRead_never {k : Nat} (h : s.Faces (List.replicate k .ok ++ .never applied :: rest) c) (hk : k < 2)
    (go : Byte → State → State) : ∃ p, setFramePhases[k]? = some p ∧
      (memRead .rdPtr .rdData .firstRead a go s).HangsAs rest { c with phase := p } := by
  match k, hk with
  | 0, _ => exact ⟨.rdPtr, rfl, memRead_never_pointer h⟩
  | 1, _ => exact ⟨.rdData, rfl, memRead_never_data h⟩

/-- The verify read of a `SET` hangs in the phase of its first or of its second frame (R175). -/
theorem bodySetVerify_never {o w k : Nat} {v : Byte} (h : s.Faces (List.replicate k .ok ++ .never applied :: rest) c)
    (hk : k < 2) : ∃ p, setFramePhases[k + 3]? = some p ∧
      (bodySetVerify a o w v s).HangsAs rest { c with phase := p } := by
  match k, hk with
  | 0, _ => exact ⟨.vfPtr, rfl, memRead_never_pointer h⟩
  | 1, _ => exact ⟨.vfData, rfl, memRead_never_data h⟩

/-- Steps 2 to 5 of a `SET` hang in the phase of the write or of a frame of the verify read (R173 to R175). -/
theorem bodySetWrite_never {o w k : Nat} {v b : Byte} (h : s.Faces (List.replicate k .ok ++ .never applied :: rest) c)
    (ha : mapped a = true) (hk : k < 3) : ∃ p, setFramePhases[k + 2]? = some p ∧
      (bodySetWrite a o w v b s).HangsAs rest { c with phase := p, new := some (insertField b o w v) } := by
  have hmerged := (h.enter .merge).latchNew (insertField b o w v)
  match k, hk with
  | 0, _ => exact ⟨.wrFrame, rfl, memWrite_never hmerged⟩
  | k + 1, hk =>
    obtain ⟨u, e, hu⟩ := memWrite_ok_faces hmerged ha
    rw [bodySetWrite, e]
    exact bodySetVerify_never hu (by omega)

/-- A `SET` hangs in the phase of any of its five frames (R170, R181), with nothing latched before the first data byte. -/
theorem bodySet_never {o w k : Nat} {v : Byte} (h : s.Faces (List.replicate k .ok ++ .never applied :: rest) c)
    (ha : mapped a = true) (hk : k < 5) : ∃ c', setFramePhases[k]? = some c'.phase ∧
      (bodySet a o w v s).HangsAs rest c' ∧ c'.rb = c.rb ∧ c'.res = c.res ∧
      (k < 2 → c'.cur = c.cur ∧ c'.new = c.new) := by
  by_cases hk2 : k < 2
  · obtain ⟨p, hp, hh⟩ := firstRead_never (a := a) h hk2 fun b s => bodySetWrite a o w v b (s.latchCur b)
    exact ⟨_, hp, hh, rfl, rfl, fun _ => ⟨rfl, rfl⟩⟩
  · obtain ⟨k, rfl⟩ := Nat.exists_eq_add_of_le' (Nat.le_of_not_lt hk2)
    obtain ⟨u, e, hu⟩ := memRead_ok_faces h ha
    obtain ⟨p, hp, hh⟩ := bodySetWrite_never (hu.latchCur (s.reg a)) ha (show k < 3 by omega)
    rw [bodySet, e]
    exact ⟨_, hp, hh, rfl, rfl, fun hlt => absurd hlt (by omega)⟩

end

/-- Any turn of a controller with a frame outstanding, or of its requester, is spent (R233, log 10, log 11). -/
theorem step_waiting {s : State} {i : Nat} {c : Ctl} {x : Turn} {rest : List Turn} (ha : s.agenda = x :: rest)
    (hx : x.controller? = some i) (hc : s.ctls[i]? = some c) (hw : c.waiting = true) :
    step s = .next { s with agenda := rest, cur := i } := by
  have hc' : (({ s with agenda := rest } : State).turnOf i).ctl? = some c := hc
  have spent : (({ s with agenda := rest } : State).turnOf i) = { s with agenda := rest, cur := i } := rfl
  rw [step, ha, ← spent]
  cases x <;> simp only [Turn.controller?, Option.some.injEq, reduceCtorEq] at hx <;> subst hx <;> simp only [takeTurn]
  case command w => exact runWord_busy hc' (by simp [Ctl.accepts, hw]) w
  case present w => simp [presentCommand, hc', hw]
  case phase => exact sequencerStep_settled hc' (.inl hw)
  case take => simp [takeResult, hc', hw]

end Sys2Proof.Machine
end

section
/-! SUPPORT. A `SET` phase by phase among the turns of others (R84, R85): the datapath of an in-range value in a fully writable
field; that an admitted turn answers a next state; what holds in each phase of the `SET`, which its own phases carry forward
and every other turn of a serialized run leaves; and the run by induction on its turns. -/

namespace Sys2Proof.Machine

/-! The field of an in-range value -/

/-- A value in range has no bit at or above the field's width (R154). -/
theorem bit_of_le_maskGen {v : Byte} {w j : Nat} (hv : v ≤ maskGen w) (hw : w ≤ 8) (hj : w ≤ j) : v.getLsbD j = false := by
  have bound : ∀ w : Fin 9, (maskGen w).toNat < 2 ^ w.val := by decide
  exact Nat.testBit_lt_two_pow
    (calc v.toNat ≤ (maskGen w).toNat := hv
      _ < 2 ^ w := bound ⟨w, by omega⟩
      _ ≤ 2 ^ j := Nat.pow_le_pow_right (by decide) hj)

/-- The field reads back as the value inserted, if that is in range (R148). -/
theorem extract_insertField {o w : Nat} {v : Byte} (hl : legalField o w = true) (hv : v ≤ maskGen w) (b : Byte) :
    extract (insertField b o w v) o w = v := by
  have hw := (legalField_iff o w).mp hl
  refine byte_ext fun j _ => ?_
  rw [extract_bit hl, insertField_bit hl]
  by_cases hj : j < w
  · simp [hj]
  · simp [hj, bit_of_le_maskGen hv (by omega) (Nat.le_of_not_lt hj)]

/-- Outside the field the byte is as before (R149). -/
theorem insertField_outside {o w : Nat} (hl : legalField o w = true) (b v : Byte) :
    insertField b o w v &&& ~~~(fieldMask o w) = b &&& ~~~(fieldMask o w) := by
  refine byte_ext fun j hj => ?_
  rw [BitVec.getLsbD_and, BitVec.getLsbD_and, BitVec.getLsbD_not, fieldMask_bit hl, insertField_bit hl]
  by_cases hf : o ≤ j ∧ j < o + w <;> simp [hf]

/-- A write to a register whose field is fully writable leaves the byte with the field inserted: the bits that the write
does not reach are outside the field, where the byte written is the byte held (R66, R183). -/
theorem write_insertField {o w : Nat} {m : Byte} (hl : legalField o w = true) (hm : fieldMask o w &&& ~~~m = 0)
    (b v : Byte) : (b &&& ~~~m) ||| (insertField b o w v &&& m) = insertField b o w v := by
  refine byte_ext fun j hj => ?_
  have hbit : (fieldMask o w &&& ~~~m).getLsbD j = false := by rw [hm]; exact BitVec.getLsbD_zero
  rw [BitVec.getLsbD_and, BitVec.getLsbD_not, fieldMask_bit hl] at hbit
  rw [BitVec.getLsbD_or, BitVec.getLsbD_and, BitVec.getLsbD_and, BitVec.getLsbD_not, insertField_bit hl]
  cases hmj : m.getLsbD j with
  | true => simp
  | false =>
    have hf : ¬ (o ≤ j ∧ j < o + w) := fun hf => by
      rw [hmj, decide_eq_true hf] at hbit
      simp [hj] at hbit
    rw [if_neg hf]
    simp [hj]

/-! The word of a `SET` -/

/-- The fields of a `SET`'s word are its operands (R96). -/
theorem encodeSet_fields {o w : Nat} (hl : legalField o w = true) (a v : Byte) :
    opcodeOf (cmdOp (encodeSet a o w v)) = .set ∧ cmdAddr (encodeSet a o w v) = a ∧
    (cmdO (encodeSet a o w v)).toNat = o ∧ cmdWidth (encodeSet a o w v) = w ∧ cmdValue (encodeSet a o w v) = v := by
  have hd : descriptorLegal o w = true := (descriptorLegal_iff o w).mpr ((legalField_iff o w).mp hl)
  simp only [encodeSet, cmdOp_cmdWord, opcodeOf_bits, cmdAddr_cmdWord, cmdO_cmdWord, cmdWidth_cmdWord, cmdValue_cmdWord,
    descriptorLegal_offset hd, descriptorLegal_width hd, and_self]

/-! Admitted turns -/

/-- A whole command of a controller that exists answers a next state. -/
theorem runCommand_next {s : State} {c : Ctl} (hc : s.ctl? = some c) (w : CmdWord) (failed : Option ResultKind)
    (body : State → State) : ∃ t, runCommand w failed body s = .next t := by
  rcases runCommand_cases w failed body s with ⟨hn, -⟩ | ⟨_, -, -, e⟩ | ⟨_, -, -, ⟨_, -, e⟩ | ⟨-, e⟩⟩
  · rw [hc] at hn; cases hn
  · exact ⟨_, e⟩
  · exact ⟨_, e⟩
  · exact ⟨_, e⟩

theorem runTransaction_next {x : Transaction} {i : Instr} (hx : decodeTransaction x = .ok i) (s : State) :
    ∃ t, runTransaction x s = .next t := by
  simp only [runTransaction, hx]
  unfold decodeTransaction at hx
  split at hx
  · cases hx; exact ⟨_, rfl⟩
  · cases hx; exact ⟨_, rfl⟩
  · cases hx
  · split_ifs at hx
    cases hx; exact ⟨_, rfl⟩

/-- Under the invariant a turn that the spec admits answers a next state (R232 to R234, R243). -/
theorem step_admitted {s : State} {x : Turn} {rest : List Turn} (hs : s.Inv) (ha : s.agenda = x :: rest)
    (hx : x.admitted s.ctls.length = true) : ∃ t, step s = .next t := by
  have found : ∀ {i}, i < s.ctls.length → ∃ c, (({ s with agenda := rest } : State).turnOf i).ctl? = some c ∧
      c.consistent s.params = true := fun {i} hi =>
    ⟨s.ctls[i], List.getElem?_eq_getElem hi, hs.consistent _ (List.getElem_mem hi)⟩
  rw [step, ha]
  cases x <;> simp only [Turn.admitted, decide_eq_true_eq, beq_iff_eq] at hx <;> simp only [takeTurn]
  case command i w =>
    obtain ⟨c, hc, -⟩ := found hx
    rcases runWord_cases w (({ s with agenda := rest } : State).turnOf i) with ⟨_, -, e⟩ | ⟨_, -, e⟩ <;> rw [e] <;>
      exact runCommand_next hc _ _ _
  case present i w =>
    obtain ⟨c, hc, -⟩ := found hx
    simp only [presentCommand, hc]
    split_ifs
    · exact ⟨_, rfl⟩
    · exact ⟨_, rfl⟩
  case phase i =>
    obtain ⟨c, hc, hcons⟩ := found hx
    obtain ⟨t, -, e, -⟩ := sequencerStep_moves hc hcons
    exact ⟨t, e⟩
  case take i =>
    obtain ⟨c, hc, -⟩ := found hx
    simp only [takeResult, hc]
    split_ifs
    · exact ⟨_, rfl⟩
    · exact ⟨_, rfl⟩
  case frame x =>
    split at hx
    case h_1 i hi => exact runTransaction_next hi _
    case h_2 => cases hx
  case eventSet a bits => exact ⟨_, if_pos hx⟩
  case statusUpd a v => exact ⟨_, if_pos hx⟩

/-! A `SET` in each of its phases -/

/-- The turns of its controller that a `SET` still needs to reach `DONE` (R27). -/
def Phase.setTurnsLeft : Phase → Nat
  | .idle => 8
  | .check => 7
  | .rdPtr => 6
  | .rdData => 5
  | .merge => 4
  | .wrFrame => 3
  | .vfPtr => 2
  | .vfData => 1
  | .done => 0

/-- The frames among them (R181). -/
def Phase.setFramesLeft : Phase → Nat
  | .idle => 5
  | .check => 5
  | .rdPtr => 5
  | .rdData => 4
  | .merge => 3
  | .wrFrame => 3
  | .vfPtr => 2
  | .vfData => 1
  | .done => 0

/-- A run of a `SET`: its controller and operands, the byte its register holds at first, the parameters, and the outcomes
fixed for the frames after its five. -/
structure SetRun where
  index : Nat
  addr : Byte
  offset : Nat
  width : Nat
  value : Byte
  old : Byte
  params : Params
  rest : List BusDraw

def SetRun.word (r : SetRun) : CmdWord := encodeSet r.addr r.offset r.width r.value

/-- The byte a `SET` writes (R173). -/
def SetRun.new (r : SetRun) : Byte := insertField r.old r.offset r.width r.value

/-- What the run is about: an in-range value for a fully writable field of an `RW` register, by a handle that names the
register file. -/
structure SetRun.Legal (r : SetRun) : Prop where
  target : r.params.targetDev.getD r.index primaryDevAddr = r.params.devAddr
  rw : classOf r.addr = some .rw
  field : legalField r.offset r.width = true
  writable : fieldMask r.offset r.width &&& ~~~(writeMask r.params r.addr) = 0
  inRange : r.value ≤ maskGen r.width

/-- The controller of the run in each phase: what it has latched so far (R28 to R31). -/
def SetRun.ctl (r : SetRun) (p : Phase) : Ctl where
  phase := p
  cmd := some r.word
  cur := if p.setTurnsLeft < 5 then some r.old else none
  new := if p.setTurnsLeft < 4 then some r.new else none
  rb := if p = .done then some r.new else none
  res := if p = .done then some ⟨.ok, .none, r.value⟩ else none
  waiting := false

/-- The run has come to phase `p`: its frames so far succeeded, its register holds the byte of before or after the write,
and between the two frames of a read the pointer is where the first left it. -/
structure SetRun.At (r : SetRun) (p : Phase) (u : State) : Prop where
  started : p ≠ .idle
  params : u.params = r.params
  ctl : u.ctls[r.index]? = some (r.ctl p)
  bus : u.bus = List.replicate p.setFramesLeft .ok ++ r.rest
  ptr : p = .rdData ∨ p = .vfData → u.ptr = r.addr
  reg : u.reg r.addr = if p.setTurnsLeft < 3 then r.new else r.old

/-- Until `DONE` the command is under way (R85). -/
theorem SetRun.At.busy {r : SetRun} {p : Phase} {u : State} (h : r.At p u) (hp : p.setTurnsLeft ≠ 0) :
    (r.ctl p).busy = true := by
  have hi := h.started
  cases p <;> simp [SetRun.ctl, Ctl.busy, Phase.setTurnsLeft] at hi hp ⊢

theorem getElem?_set_of_getElem? {l : List Ctl} {i : Nat} {c : Ctl} (h : l[i]? = some c) (d : Ctl) :
    (l.set i d)[i]? = some d :=
  List.getElem?_set_self (List.getElem?_eq_some_iff.mp h).1

/-- `REG[a]` where the list of cells has been written at `a`. -/
theorem reg_of_regs_write {s t : State} {a v : Byte} (h : t.regs = Memory.write s.regs a.toNat v) : t.reg a = v := by
  rw [State.reg, h, Memory.read_write, if_pos rfl]

section
variable {r : SetRun} {u : State} {turns : List Turn}

/-- The turn of a phase of the run, as the laws of the phases have it. -/
theorem SetRun.At.phaseTurn {p : Phase} (h : r.At p u) (hl : r.Legal) (ha : u.agenda = .phase r.index :: turns) :
    PhaseTurn u r.index turns (r.ctl p) r.word :=
  ⟨ha, h.ctl, rfl, rfl, by rw [h.params]; exact hl.target⟩

/-- A run begins when the word is accepted, with the outcomes of its five frames fixed as successes (R27). -/
theorem SetRun.At.start {c : Ctl} (ha : u.agenda = .present r.index r.word :: turns) (hc : u.ctls[r.index]? = some c)
    (hn : c.waiting = false) (hp : c.phase = .idle) (hparams : u.params = r.params)
    (hbus : u.bus = List.replicate 5 .ok ++ r.rest) (hreg : u.reg r.addr = r.old) :
    ∃ t, step u = .next t ∧ r.At .check t :=
  ⟨_, step_present ha hc hn hp, by decide, hparams, getElem?_set_of_getElem? hc _, hbus, by simp, hreg⟩

/-- A phase of the run whose frame, if it has one, succeeds: the run comes to the next phase. -/
theorem SetRun.At.phase {p : Phase} (h : r.At p u) (hl : r.Legal) (ha : u.agenda = .phase r.index :: turns) {n : Nat}
    (hp : p.setTurnsLeft = n + 1) : ∃ q t, step u = .next t ∧ r.At q t ∧ q.setTurnsLeft = n := by
  have turn := h.phaseTurn hl ha
  obtain ⟨hop, haddr, ho, hw, hv⟩ : opcodeOf (cmdOp r.word) = .set ∧ cmdAddr r.word = r.addr ∧
      (cmdO r.word).toNat = r.offset ∧ cmdWidth r.word = r.width ∧ cmdValue r.word = r.value :=
    encodeSet_fields hl.field r.addr r.value
  have hd : descriptorLegal r.offset r.width = true :=
    (descriptorLegal_iff _ _).mpr ((legalField_iff _ _).mp hl.field)
  have hlf : legalField (cmdO r.word).toNat (cmdWidth r.word) = true := by rw [ho, hw]; exact hl.field
  have hop' : opcodeOf (cmdOp r.word) ≠ .wrReg := by rw [hop]; decide
  have set := getElem?_set_of_getElem? h.ctl
  have hm := mapped_of_classOf hl.rw
  have hrc : classOf r.addr ≠ some .rc := by rw [hl.rw]; decide
  have hverify : verifyResult (extract r.new r.offset r.width) r.value = ⟨.ok, .none, r.value⟩ := by
    rw [SetRun.new, extract_insertField hl.field hl.inRange, verifyResult, if_pos rfl]
  obtain ⟨hi, hparams, -, hbus, hptr, hreg⟩ := h
  cases p with
  | idle => exact absurd rfl hi
  | done => cases hp
  | check =>
    have e := turn.check rfl (decodeCore_encodeSet r.addr hd r.value)
      (checkSet_eq_none hl.field hl.rw (.inr hl.inRange)) hop'
    exact ⟨.rdPtr, _, e, ⟨by decide, hparams, set _, hbus, by simp, hreg⟩, by cases hp; rfl⟩
  | rdPtr =>
    have e := turn.rdPtr hbus rfl hop'
    exact ⟨.rdData, _, e, ⟨by decide, hparams, set _, rfl, fun _ => haddr, hreg⟩, by cases hp; rfl⟩
  | rdData =>
    have hp' := hptr (.inl rfl)
    have e := turn.rdData_set hbus rfl hop (hp' ▸ hm)
    rw [hp', read_keeps hrc, hreg] at e
    exact ⟨.merge, _, e, ⟨by decide, hparams, set _, rfl, by simp, reg_of_regs_write rfl⟩, by cases hp; rfl⟩
  | merge =>
    have e := turn.merge rfl hop (b := r.old) rfl hlf
    rw [ho, hw, hv] at e
    exact ⟨.wrFrame, _, e, ⟨by decide, hparams, set _, hbus, by simp, hreg⟩, by cases hp; rfl⟩
  | wrFrame =>
    have e := turn.wrFrame_set hbus rfl hop (v := r.new) rfl (haddr ▸ hm)
    rw [haddr, hreg, hparams, if_neg (by decide), SetRun.new, write_insertField hl.field hl.writable] at e
    exact ⟨.vfPtr, _, e, ⟨by decide, rfl, set _, rfl, by simp, reg_of_regs_write rfl⟩, by cases hp; rfl⟩
  | vfPtr =>
    have e := turn.vfPtr hbus rfl hop
    exact ⟨.vfData, _, e, ⟨by decide, hparams, set _, rfl, fun _ => haddr, hreg⟩, by cases hp; rfl⟩
  | vfData =>
    have hp' := hptr (.inr rfl)
    have e := turn.vfData hbus rfl hop (hp' ▸ hm) hlf
    rw [hp', read_keeps hrc, hreg, ho, hw, hv, if_pos (by decide), hverify] at e
    exact ⟨.done, _, e, ⟨by decide, hparams, set _, rfl, by simp, reg_of_regs_write rfl⟩, by cases hp; rfl⟩

/-- Any other turn of a serialized run, no bare frame, leaves the run where it is: the run's own controller accepts nothing,
another issues no frame, and the event source reaches no `RW` register. -/
theorem SetRun.At.otherTurn {p : Phase} {t : State} {x : Turn} {n : Nat} (h : r.At p u) (hl : r.Legal)
    (ha : u.agenda = x :: turns) (hp : p.setTurnsLeft ≠ 0) (hser : Serialized (n + 1) u) (hx : x ≠ .phase r.index)
    (hframe : ∀ y, x ≠ .frame y) (ht : step u = .next t) : r.At p t := by
  have hbusy := h.busy hp
  cases hc : x.controller? with
  | none =>
    have hf : x.issuesFrame u = false := by
      cases x with
      | frame y => exact absurd rfl (hframe y)
      | eventSet _ _ | statusUpd _ _ => rfl
      | command _ _ | present _ _ | phase _ | take _ => cases hc
    obtain ⟨a, v, hrw, rfl⟩ := step_event ha hc hf ht
    have hne : r.addr ≠ a := fun e => hrw (e ▸ hl.rw)
    exact ⟨h.started, h.params, h.ctl, h.bus, h.ptr, by rw [State.setReg_reg, if_neg hne]; exact h.reg⟩
  | some j =>
    by_cases hj : j = r.index
    · subst hj
      rw [step_busy ha hc hx h.ctl hbusy] at ht
      cases ht
      exact ⟨h.started, h.params, h.ctl, h.bus, h.ptr, h.reg⟩
    · obtain ⟨f, rfl⟩ := step_withoutFrame ha hc (hser.quiet ha h.ctl hbusy hc hj) ht
      exact ⟨h.started, h.params, (List.getElem?_modify_ne _ _ hj).trans h.ctl, h.bus, h.ptr, h.reg⟩

theorem stepN_succ {s t : State} (h : step s = .next t) (n : Nat) : stepN (n + 1) s = stepN n t := by
  rw [stepN, h]

/-- A serialized run with the turns that a `SET` needs among its turns, the last of them at its end, brings it to `DONE`. -/
theorem SetRun.At.run {p : Phase} {rest : List Turn} (h : r.At p u) (hl : r.Legal) (hu : u.Inv)
    (ha : u.agenda = turns ++ .phase r.index :: rest) (hadm : ∀ x ∈ turns, x.admitted u.ctls.length = true)
    (hframe : ∀ y, Turn.frame y ∉ turns) (hp : p.setTurnsLeft = turns.count (.phase r.index) + 1)
    (hser : Serialized (turns.length + 1) u) : ∃ t, stepN (turns.length + 1) u = .next t ∧ r.At .done t := by
  induction turns generalizing u p with
  | nil =>
    obtain ⟨q, t, e, ht, hq⟩ := h.phase hl ha hp
    have hdone : q = .done := by
      cases q with
      | done => rfl
      | idle | check | rdPtr | rdData | merge | wrFrame | vfPtr | vfData => cases hq
    exact ⟨t, stepN_succ e 0, hdone ▸ ht⟩
  | cons x turns ih =>
    have hstep : ∃ q t, step u = .next t ∧ r.At q t ∧ q.setTurnsLeft = turns.count (.phase r.index) + 1 := by
      by_cases hx : x = .phase r.index
      · subst hx
        exact h.phase hl ha (by rw [hp, List.count_cons_self])
      · obtain ⟨t, e⟩ := step_admitted hu ha (hadm x (by simp))
        rw [List.count_cons_of_ne hx] at hp
        exact ⟨p, t, e, h.otherTurn hl ha (by omega) hser hx (fun y e => hframe y (by simp [e])) e, hp⟩
    obtain ⟨q, t, e, ht, hq⟩ := hstep
    obtain ⟨-, -, hlen⟩ := step_keeps_form e hu.regsWf
    rw [List.length_cons, stepN_succ e]
    exact ih ht (everyStepKeepsTheInvariant u t hu e) (step_agenda ha e) (fun y hy => hlen ▸ hadm y (by simp [hy]))
      (fun y hy => hframe y (by simp [hy])) hq (hser.2 t e)

end

/-! One controller -/

theorem issuesFrame_noController {s : State} {x : Turn} {i : Nat} (hx : x.controller? = some i)
    (hc : s.ctls[i]? = none) : x.issuesFrame s = false := by
  cases x <;> simp only [Turn.controller?, Option.some.injEq, reduceCtorEq] at hx <;> subst hx <;>
    simp [Turn.issuesFrame, hc]

/-- The only controller finds no other's command under way (R85). -/
theorem keepsLock_of_one {s : State} (h : s.ctls.length = 1) : s.keepsLock = true := by
  unfold State.keepsLock
  cases s.agenda with
  | nil => rfl
  | cons x rest =>
    cases hx : x.controller? with
    | none => simp [hx]
    | some i =>
      simp only [hx]
      cases i with
      | zero => simp [h]
      | succ i => rw [issuesFrame_noController hx (List.getElem?_eq_none (by omega))]; rfl

/-- No step makes or removes a controller (R243). -/
theorem step_keeps_controllerCount {s t : State} (h : step s = .next t) : t.ctls.length = s.ctls.length :=
  step_keeps (P := fun u => u.ctls.length = s.ctls.length)
    ⟨fun u f hu => by rw [State.updCtl_ctls, List.length_modify, hu], fun _ _ _ hu => hu⟩ h rfl (fun _ _ hu => hu)
    (fun _ _ hu => hu) (fun _ _ hu => hu) (fun _ _ hu => hu) (fun _ _ _ hu => hu) (fun _ _ _ _ hu => hu)
    (fun _ _ _ _ _ hu => hu) fun _ _ _ _ hu => hu

theorem serialized_of_one {s : State} (h : s.ctls.length = 1) (n : Nat) : Serialized n s := by
  induction n generalizing s with
  | zero => trivial
  | succ n ih => exact ⟨keepsLock_of_one h, fun t e => ih ((step_keeps_controllerCount e).trans h)⟩

end Sys2Proof.Machine
end

section
/-! The statements of the memory's family: the bus frames, the step, a frame that never completes, the premise `SERIALIZED`
(20_memory.md, R60 to R85). -/

namespace Sys2Proof.Machine

/-- Settles O6, by the shape of the transaction. -/
theorem onlyTheThreeFramesDecode : Obligations.OnlyTheThreeFramesDecode := by
  intro x i
  rcases x with ⟨d, _ | ⟨p, _ | ⟨v, _ | ⟨z, l⟩⟩⟩⟩ | ⟨d, n⟩
  · simp [decodeTransaction]
  · simp [decodeTransaction, eq_comm]
  · simp [decodeTransaction, eq_comm]
  · simp [decodeTransaction]
  · by_cases hn : n = 1
    · simp [decodeTransaction, hn, eq_comm]
    · simp [decodeTransaction, hn]

/-- Settles O47: the fetch of the next turn and its decoding are the definition of a step. -/
theorem stepRunsTheDecodedInstruction : Obligations.StepRunsTheDecodedInstruction := by
  refine ⟨fun s k w rest i ha hd => ?_, fun s x rest i ha hd => ?_⟩
  · rw [step, ha]
    simp only [takeTurn, runWord, hd]
    rfl
  · rw [step, ha]
    simp only [takeTurn, runTransaction, hd]

/-- Settles O15. -/
theorem frameToAnotherDeviceFails : Obligations.FrameToAnotherDeviceFails := fun _ _ _ _ h =>
  ⟨congrArg _ (keepReply_otherDevice h), congrArg _ (keepReply_otherDevice h), congrArg _ (keepReply_otherDevice h)⟩

/-- Settles O16: `W1`'s effect is the pointer's. -/
theorem pointerFrameSetsPointer : Obligations.PointerFrameSetsPointer := by
  intro s d p rest hd hb
  rw [exec_w1, issue_ok hd hb]
  rfl

/-- Settles O17, by whether the address is mapped. -/
theorem writeFrameWritesUnderTheMask : Obligations.WriteFrameWritesUnderTheMask := by
  intro s d p v rest hd hb
  rw [exec_w2, issue_ok hd hb, effectW2]
  cases hm : mapped p
  · rw [regWrite_unmapped hm]
    rfl
  · rw [regWrite_mapped hm]
    rfl

/-- Settles O18, by whether the pointer is mapped. -/
theorem readFrameDeliversAndClears : Obligations.ReadFrameDeliversAndClears := by
  intro s d rest hd hb
  rw [exec_r1, issue_ok hd hb]
  refine ⟨fun hm => ?_, fun hm => ?_⟩
  · rw [effectR1_mapped (s := { s with bus := rest }) hm]
    rfl
  · rw [effectR1_unmapped (s := { s with bus := rest }) hm]
    rfl

/-- Settles O19: the three frames are one `issue` each. -/
theorem unsuccessfulFrameIsAllOrNothing : Obligations.UnsuccessfulFrameIsAllOrNothing := by
  intro s t d p v rest i hd hi h
  rcases hi with rfl | rfl | rfl
  · rw [exec_w1] at h
    cases h
    simpa only [exec_w1, Host.Outcome.next.injEq] using keepReply_allOrNothing hd
  · rw [exec_w2] at h
    cases h
    simpa only [exec_w2, Host.Outcome.next.injEq] using keepReply_allOrNothing hd
  · rw [exec_r1] at h
    cases h
    simpa only [exec_r1, Host.Outcome.next.injEq] using keepReply_allOrNothing hd

/-- Settles O20: each frame by what it keeps for every outcome. -/
theorem framesChangeOnlyTheAddressedRegister : Obligations.FramesChangeOnlyTheAddressedRegister := by
  intro s t d p v i hi h
  rcases hi with rfl | rfl | rfl <;> cases h
  · obtain ⟨⟨hctls, hparams, hcur, hagenda⟩, hregs⟩ := frameW1_post d p s
    exact ⟨hctls, hparams, hcur, hagenda, fun _ => hregs, nofun, nofun⟩
  · obtain ⟨⟨hctls, hparams, hcur, hagenda⟩, hreg⟩ := frameW2_post d p v s
    exact ⟨hctls, hparams, hcur, hagenda, nofun, fun _ => hreg, nofun⟩
  · obtain ⟨⟨hctls, hparams, hcur, hagenda⟩, hreg⟩ := frameR1_post d s
    exact ⟨hctls, hparams, hcur, hagenda, nofun, nofun, fun _ => hreg⟩

/-- Settles O31: each command as its register accesses, which hang by `afterFrame_never`; then `step_waiting`. -/
theorem frameThatNeverCompletesHoldsTheController : Obligations.FrameThatNeverCompletesHoldsTheController := by
  refine ⟨fun s a o w v k applied rest hs hw how => ⟨fun ha hk i hi => ?_, fun ha hk => ?_, fun ha hv hk => ?_⟩,
    fun s i c t rest hc hw hx ha => step_waiting ha hx hc hw⟩
  all_goals obtain ⟨c, hc, hacc⟩ := hs.1
  · obtain ⟨word, go, e⟩ := exec_readsOnly hc hacc ha hi
    obtain ⟨p, hp, hb, hctl⟩ := firstRead_never (a := a) (hs.accept word) hk go
    exact ⟨_, _, e, hb, hctl, rfl, hp, rfl, rfl, rfl, rfl⟩
  · subst hk
    obtain ⟨hb, hctl⟩ : (bodyWrReg a v (s.accept (encodeWrReg a v))).HangsAs rest _ :=
      memWrite_never ((hs.accept (encodeWrReg a v)).latchNew v)
    exact ⟨_, _, exec_wrReg_runs hc hacc ha v, hb, hctl, rfl, rfl, rfl, rfl, rfl⟩
  · have hl := (legalField_iff o w).mpr ⟨hw, how⟩
    obtain ⟨c', hp, ⟨hb, hctl⟩, hrb, hres, hlatches⟩ :=
      bodySet_never (o := o) (w := w) (v := v) (hs.accept (encodeSet a o w v)) (mapped_of_classOf ha) hk
    exact ⟨_, _, exec_set_runs hc hacc hl ha hv, hb, hctl, rfl, hp, hrb, hlatches, hres⟩

/-- Settles O56: the word presented is accepted, the run that begins so comes to `DONE` (`SetRun.At.run`), and the byte its
register then holds is the old one with the field inserted. -/
theorem serializedSetSucceedsAmongEvents : Obligations.SerializedSetSucceedsAmongEvents := by
  refine ⟨fun s i c a o w v turns rest draws hs hc hidle htarget hbus hrw hfield hwritable hv ha hadm hframe hcount hser => ?_,
    fun s n h => serialized_of_one h n⟩
  let r : SetRun := ⟨i, a, o, w, v, s.reg a, s.params, draws⟩
  have hl : r.Legal := ⟨htarget, hrw, hfield, hwritable, hv⟩
  have hn : c.waiting = false := c.consistent_notWaiting (hs.consistent c (List.mem_of_getElem? hc)) (.inl hidle)
  obtain ⟨u, e, hu⟩ := SetRun.At.start (r := r) ha hc hn hidle rfl hbus rfl
  have hlen := (step_keeps_form e hs.regsWf).2.2
  obtain ⟨t, hrun, ht⟩ := hu.run hl (everyStepKeepsTheInvariant s u hs e) (step_agenda ha e)
    (fun x hx => hlen ▸ hadm x hx) hframe (by rw [hcount]; rfl) (hser.2 u e)
  have hreg : t.reg a = insertField (s.reg a) o w v := ht.reg
  refine ⟨t, r.ctl .done, (stepN_succ e _).trans hrun, ht.ctl, rfl, rfl, ?_, ?_⟩
  · rw [hreg, extract_insertField hfield hv]
  · rw [hreg, insertField_outside hfield]

end Sys2Proof.Machine
end

section
/-! SUPPORT. The stored forms: what the opcode table's name for an instruction keeps, when R101's decoder rejects a word, and
the words as numbers and as an operand joined to a constant (R90 to R97, R100, R105). -/

namespace Sys2Proof

/-! The name of the opcode table -/

/-- A property that `GET` and `SET` of the two fixed fields share with their pseudo-instructions is one of the instruction
and of the table's name for it (R105, log 13). -/
theorem Instr.named_eq {α : Type} (g : Instr → α)
    (hget : g .getEnSbb0 = g (.get 0x2A 0 3)) (hset : ∀ v, g (.setEnSbb0 v) = g (.set 0x2A 0 3 v))
    (hget' : g .getTvLdo = g (.get 0x38 0 7)) (hset' : ∀ v, g (.setTvLdo v) = g (.set 0x38 0 7 v)) (i : Instr) :
    g i.named = g i := by
  cases i with
  | get a o w =>
    rw [Instr.named]
    split_ifs with hen htv
    · obtain ⟨rfl, rfl, rfl⟩ := hen
      exact hget
    · obtain ⟨rfl, rfl, rfl⟩ := htv
      exact hget'
    · rfl
  | set a o w v =>
    rw [Instr.named]
    split_ifs with hen htv
    · obtain ⟨rfl, rfl, rfl⟩ := hen
      exact hset v
    · obtain ⟨rfl, rfl, rfl⟩ := htv
      exact hset' v
    · rfl
  | _ => rfl

/-- The name does not change the stored form (R105). -/
theorem encode_named (i : Instr) : encode i.named = encode i :=
  Instr.named_eq encode rfl (fun _ => rfl) rfl (fun _ => rfl) i

/-- The name does not change the core command (R105). -/
theorem expand_named (i : Instr) : i.named.expand = i.expand :=
  Instr.named_eq Instr.expand rfl (fun _ => rfl) rfl (fun _ => rfl) i

/-- Decoding the stored form of a well-formed instruction (R90 to R96, R101, R102). -/
theorem decode_encode {i : Instr} (h : i.wellFormed = true) : decode (encode i) = .ok i.named := by
  cases i with
  | rdReg a => exact Laws.DecodeEncode.rdReg a h
  | wrReg a v => exact Laws.DecodeEncode.wrReg a v h
  | get a o w => exact Laws.DecodeEncode.get a o w h
  | set a o w v => exact Laws.DecodeEncode.set a o w v h
  | w1 d p => exact Laws.DecodeEncode.w1 d p h
  | w2 d p v => exact Laws.DecodeEncode.w2 d p v h
  | r1 d => exact Laws.DecodeEncode.r1 d h
  | getEnSbb0 => exact Laws.DecodeEncode.getEnSbb0 h
  | setEnSbb0 v => exact Laws.DecodeEncode.setEnSbb0 v h
  | getTvLdo => exact Laws.DecodeEncode.getTvLdo h
  | setTvLdo v => exact Laws.DecodeEncode.setTvLdo v h

/-! The fields of a word as numbers -/

theorem cmdOp_toNat (w : CmdWord) : (cmdOp w).toNat = w.toNat / 2 ^ 22 := by
  have := w.isLt
  simp only [cmdOp, BitVec.extractLsb'_toNat, Nat.shiftRight_eq_div_pow]
  omega

theorem cmdO_toNat (w : CmdWord) : (cmdO w).toNat = w.toNat / 2 ^ 19 % 8 := by
  simp only [cmdO, BitVec.extractLsb'_toNat, Nat.shiftRight_eq_div_pow]

theorem cmdWm1_toNat (w : CmdWord) : (cmdWm1 w).toNat = w.toNat / 2 ^ 16 % 8 := by
  simp only [cmdWm1, BitVec.extractLsb'_toNat, Nat.shiftRight_eq_div_pow]

theorem cmdValue_toNat (w : CmdWord) : (cmdValue w).toNat = w.toNat % 256 := by
  simp only [cmdValue, BitVec.extractLsb'_toNat, Nat.shiftRight_zero]

/-- The operation code of a word, as the number its two highest bits are (R92). -/
theorem opcodeOf_cmdOp_iff (w : CmdWord) (c : Opcode) : opcodeOf (cmdOp w) = c ↔ w.toNat / 2 ^ 22 = c.bits.toNat := by
  rw [opcodeOf_eq_iff, ← cmdOp_toNat, BitVec.toNat_inj]

/-! The illegal words -/

/-- A check with the answer "illegal" is made before what is left of the decoder. -/
theorem rejects_ite {p : Prop} [Decidable p] {r₀ : Reject} {x : Except Reject Instr} :
    (∃ r, (if p then .error r₀ else x) = .error r) ↔ p ∨ ∃ r, x = .error r := by
  by_cases h : p
  · simp [h]
  · simp [h]

/-- R101's decoder rejects a word exactly under R100 (a), (b) or (c), on the fields of the word. (Where two checks follow
each other `rejects_ite` comes first: `simp` alone would turn the second one round.) -/
theorem decodeCore_error_iff (w : CmdWord) :
    (∃ r, decodeCore w = .error r) ↔
      ((opcodeOf (cmdOp w) = .get ∨ opcodeOf (cmdOp w) = .set) ∧ 7 < (cmdO w).toNat + (cmdWm1 w).toNat) ∨
      ((opcodeOf (cmdOp w) = .rdReg ∨ opcodeOf (cmdOp w) = .wrReg) ∧ (cmdO w ≠ 0 ∨ cmdWm1 w ≠ 7)) ∨
      ((opcodeOf (cmdOp w) = .rdReg ∨ opcodeOf (cmdOp w) = .get) ∧ cmdValue w ≠ 0) := by
  unfold decodeCore
  cases opcodeOf (cmdOp w) with
  | rdReg => simp only [rejects_ite]; simp
  | wrReg => simp [rejects_ite]
  | get => simp only [rejects_ite]; simp
  | set => simp [rejects_ite]

/-! Words with an operand in their lowest bits -/

/-- Two bit vectors joined are the first one joined to zero bits, with the second put in by or. -/
theorem append_eq_or {m n : Nat} (x : BitVec m) (y : BitVec n) : x ++ y = (x ++ 0#n) ||| y.setWidth (m + n) := by
  refine BitVec.eq_of_getLsbD_eq fun j hj => ?_
  rw [BitVec.getLsbD_or, BitVec.getLsbD_append, BitVec.getLsbD_append, BitVec.getLsbD_setWidth]
  by_cases hlow : j < n
  · simp [hlow, hj]
  · simp [hlow, BitVec.getLsbD_of_ge y j (Nat.le_of_not_lt hlow)]

/-- The value of a command word is its lowest byte (R90). -/
theorem cmdWord_value (op : BitVec 2) (o wm1 : BitVec 3) (addr value : Byte) :
    cmdWord op o wm1 addr value = cmdWord op o wm1 addr 0 ||| value.setWidth 24 := append_eq_or _ _

theorem encodeSet_enSbb0 (v : Byte) : encodeSet 0x2A 0 3 v = 0xC22A00 ||| v.setWidth 24 := cmdWord_value _ _ _ _ _

theorem encodeSet_tvLdo (v : Byte) : encodeSet 0x38 0 7 v = 0xC63800 ||| v.setWidth 24 := cmdWord_value _ _ _ _ _

end Sys2Proof

namespace Sys2Proof.Machine

/-- The two spellings of a legal descriptor (R91), of a term and of the datapath, are one. -/
theorem descriptorLegal_eq_legalField (o w : Nat) : descriptorLegal o w = legalField o w := by
  rw [Bool.eq_iff_iff, descriptorLegal_iff, legalField_iff]

/-- The data byte of a result word is its lowest byte (R97). -/
theorem Result.word_data (kind : ResultKind) (step : ResultStep) (data : Byte) :
    Result.word ⟨kind, step, data⟩ = Result.word ⟨kind, step, 0x00⟩ ||| data.setWidth 13 := append_eq_or _ _

end Sys2Proof.Machine
end

section
/-! SUPPORT. A command whose frames all succeed, run to its end: the accesses it makes as the states `afterRead` and
`afterWrite`, its controller carried along as one record that each move replaces. -/

namespace Sys2Proof.Machine

/-! The controller of the turn as one record -/

/-- A controller that runs the command of word `w`: in phase `p`, with its latches, no result yet, no frame that never
completes (R27). `Ctl.finished` is what it ends as. -/
def Ctl.underWay (w : CmdWord) (p : Phase) (cur new rb : Option Byte) : Ctl :=
  { phase := p, cmd := some w, cur := cur, new := new, rb := rb, res := none, waiting := false }

theorem State.withCtl_updCtl (s : State) (c : Ctl) (f : Ctl → Ctl) : (s.withCtl c).updCtl f = s.withCtl (f c) := by
  simp only [State.withCtl, State.updCtl, ctls_set_modify]

theorem State.accept_eq (s : State) (w : CmdWord) : s.accept w = s.withCtl (Ctl.underWay w .check none none none) := by
  rw [State.accept, State.updCtl, State.withCtl, List.set_eq_modify]
  rfl

section
variable (s : State) (w : CmdWord) (p : Phase) (cur new rb : Option Byte)

theorem State.underWay_enter (q : Phase) :
    (s.withCtl (Ctl.underWay w p cur new rb)).enter q = s.withCtl (Ctl.underWay w q cur new rb) :=
  s.withCtl_updCtl _ _

theorem State.underWay_latchCur (b : Byte) :
    (s.withCtl (Ctl.underWay w p cur new rb)).latchCur b = s.withCtl (Ctl.underWay w p (some b) new rb) :=
  s.withCtl_updCtl _ _

theorem State.underWay_latchNew (b : Byte) :
    (s.withCtl (Ctl.underWay w p cur new rb)).latchNew b = s.withCtl (Ctl.underWay w p cur (some b) rb) :=
  s.withCtl_updCtl _ _

theorem State.underWay_latchRb (b : Byte) :
    (s.withCtl (Ctl.underWay w p cur new rb)).latchRb b = s.withCtl (Ctl.underWay w p cur new (some b)) :=
  s.withCtl_updCtl _ _

theorem State.underWay_complete (r : Result) :
    (s.withCtl (Ctl.underWay w p cur new rb)).complete r = s.withCtl (Ctl.finished w cur new rb r) :=
  s.withCtl_updCtl _ _

end

/-- A command that fails a static check ends in `DONE` with its kind, and nothing else has changed (R227). -/
theorem State.accept_raise (s : State) (w : CmdWord) (kind : ResultKind) :
    (s.accept w).raise kind .none = s.withCtl (Ctl.finished w none none none ⟨kind, .none, 0x00⟩) := by
  rw [State.accept_eq]
  exact s.underWay_complete _ _ _ _ _ _

/-! Register accesses that succeed -/

section
variable {s : State} {a : Byte} {rest : List BusDraw} {w : CmdWord} {p : Phase} {cur new rb : Option Byte}
  (ht : s.target = s.params.devAddr) (ha : mapped a = true)
include ht ha

/-- A register read whose two frames succeed, at a mapped address (R123). -/
theorem memRead_afterRead {pointer data : Phase} {step : ResultStep} {go : Byte → State → State}
    (hb : s.bus = .ok :: .ok :: rest) :
    memRead pointer data step a go (s.withCtl (Ctl.underWay w p cur new rb)) =
      go (s.reg a) ((s.afterRead rest a).withCtl (Ctl.underWay w data cur new rb)) := by
  rw [memRead_ok (s := s.withCtl _) ht ha hb]
  refine congrArg (go (s.reg a)) ?_
  show freePtr ((((({ s with bus := rest }.withCtl _).enter pointer).enter data).setPtr a).setReg a _) = _
  rw [State.underWay_enter, State.underWay_enter]
  rfl

/-- A register write whose frame succeeds, at a mapped address (R124). -/
theorem memWrite_afterWrite {v : Byte} {go : State → State} (hb : s.bus = .ok :: rest) :
    memWrite a v go (s.withCtl (Ctl.underWay w p cur new rb)) =
      go ((s.afterWrite rest a v).withCtl (Ctl.underWay w .wrFrame cur new rb)) := by
  rw [memWrite_ok (s := s.withCtl _) ht hb, regWrite_mapped ha]
  refine congrArg go ?_
  show freePtr (((({ s with bus := rest }.withCtl _).enter .wrFrame).setPtr a).setReg a _) = _
  rw [State.underWay_enter]
  rfl

end

/-! The pseudo-instructions -/

/-- A pseudo-instruction does what its expansion does (R105). -/
theorem exec_expand (i : Instr) (s : State) : exec i s = exec i.expand s := by cases i <;> rfl

theorem getterOf_iff (f : FieldRow) (i : Instr) :
    getterOf f = some i ↔ ∃ o w, f.offset = some o ∧ f.width = some w ∧ i = .get f.addr o w := by
  unfold getterOf
  cases f.offset with
  | none => cases f.width <;> simp
  | some o => cases f.width <;> simp [eq_comm]

theorem writableKind_iff (k : Option AccessClass) : writableKind k = true ↔ k = some .rw := by
  cases k with
  | none => simp [writableKind]
  | some c => cases c <;> simp [writableKind]

theorem setterOf_iff (f : FieldRow) (v : Byte) (i : Instr) :
    setterOf f v = some i ↔ f.kind = some .rw ∧ classOf f.addr = some .rw ∧
      ∃ o w, f.offset = some o ∧ f.width = some w ∧ i = .set f.addr o w v := by
  unfold setterOf
  split_ifs with h <;> rw [Bool.and_eq_true, writableKind_iff, beq_iff_eq] at h
  · cases f.offset with
    | none => cases f.width <;> simp
    | some o => cases f.width <;> simp [h, eq_comm]
  · exact ⟨nofun, fun ⟨hkind, hclass, _⟩ => absurd ⟨hkind, hclass⟩ h⟩

/-! `GET` and `SET` -/

/-- `GET` of a legal field of a mapped register, its two frames `ok` (R160). -/
theorem exec_get_ok {s : State} {a : Byte} {o w : Nat} {rest : List BusDraw} (hs : s.Serves 2 rest)
    (ha : mapped a = true) (hl : legalField o w = true) :
    exec (.get a o w) s = .next ((s.afterRead rest a).withCtl
      (Ctl.finished (encodeGet a o w) (some (s.reg a)) none none ⟨.ok, .none, extract (s.reg a) o w⟩)) := by
  obtain ⟨⟨c, hc, hacc⟩, ht, hb⟩ := hs
  have hcheck : checkGet a o w = none := by rw [checkGet, if_pos hl, checkAddress, if_pos ha]
  have e : exec (.get a o w) s = .next (bodyGet a o w (s.accept (encodeGet a o w))) :=
    (runCommand_accepts hc hacc).trans (by rw [hcheck])
  rw [e, State.accept_eq, bodyGet, memRead_afterRead ht ha hb, State.underWay_latchCur, State.underWay_complete]
  rfl

theorem State.afterRead_reg {a : Byte} (ha : classOf a ≠ some .rc) (s : State) (rest : List BusDraw) :
    (s.afterRead rest a).reg a = s.reg a := by
  simp only [State.afterRead, State.reg, Memory.read_write, if_true]
  exact read_keeps ha _

theorem State.afterWrite_reg (s : State) (rest : List BusDraw) (a v : Byte) :
    (s.afterWrite rest a v).reg a = s.written a v := by
  simp only [State.afterWrite, State.reg, Memory.read_write, if_true]

theorem State.afterRead_written {a : Byte} (ha : classOf a ≠ some .rc) (s : State) (rest : List BusDraw) (v : Byte) :
    (s.afterRead rest a).written a v = s.written a v := by
  rw [State.written, State.afterRead_reg ha]
  rfl

/-- A read, a write and a read of a register that reads do not clear: its cell holds what the write left of the byte held
before (R66, R68), and three pointer values were drawn. -/
theorem State.afterRead_afterWrite_afterRead {a : Byte} (ha : classOf a ≠ some .rc) (s : State)
    (rest₁ rest₂ rest : List BusDraw) (v : Byte) :
    ((s.afterRead rest₁ a).afterWrite rest₂ a v).afterRead rest a =
      { s with
        regs := Memory.write s.regs a.toNat (s.written a v)
        ptr := Config.freeByte (s.draws + 2)
        bus := rest
        draws := s.draws + 3 } := by
  rw [State.afterRead, State.afterWrite_reg, read_keeps ha, State.afterWrite, State.afterRead_written ha,
    State.afterRead]
  simp only [Memory.write_write]

section
variable {s : State} {a v : Byte} {o w : Nat} {rest : List BusDraw} {word : CmdWord} {p : Phase}
  {cur new rb : Option Byte} (ht : s.target = s.params.devAddr) (ha : mapped a = true)
include ht ha

/-- Step 5 of `SET` (R175, R178). -/
theorem bodySetVerify_ok (hb : s.bus = .ok :: .ok :: rest) :
    bodySetVerify a o w v (s.withCtl (Ctl.underWay word p cur new rb)) =
      (s.afterRead rest a).withCtl
        (Ctl.finished word cur new (some (s.reg a)) (verifyResult (extract (s.reg a) o w) v)) := by
  rw [bodySetVerify, memRead_afterRead ht ha hb, State.underWay_latchRb, State.underWay_complete]

/-- Steps 2 to 5 of `SET` on a byte read (R173, R174, R183). -/
theorem bodySetWrite_ok {b : Byte} (hb : s.bus = .ok :: .ok :: .ok :: rest) :
    bodySetWrite a o w v b (s.withCtl (Ctl.underWay word p cur new rb)) =
      ((s.afterWrite (.ok :: .ok :: rest) a (insertField b o w v)).afterRead rest a).withCtl
        (Ctl.finished word cur (some (insertField b o w v)) (some (s.written a (insertField b o w v)))
          (verifyResult (extract (s.written a (insertField b o w v)) o w) v)) := by
  rw [bodySetWrite, State.underWay_enter, State.underWay_latchNew, memWrite_afterWrite ht ha hb,
    bodySetVerify_ok (s := s.afterWrite _ a _) ht ha rfl, State.afterWrite_reg]

end

/-- `SET` of a legal field of an `RW` register, its five frames `ok`, the value in range or the policy `TRUNCATE` (R170). -/
theorem exec_set_ok {s : State} {a : Byte} {o w : Nat} {v : Byte} {rest : List BusDraw} (hs : s.Serves 5 rest)
    (ha : classOf a = some .rw) (hl : legalField o w = true) (hv : s.params.rangePolicy = .truncate ∨ v ≤ maskGen w) :
    exec (.set a o w v) s = .next (s.afterSet rest (encodeSet a o w v) a o w v) := by
  obtain ⟨⟨c, hc, hacc⟩, ht, hb⟩ := hs
  have hm := mapped_of_classOf ha
  have hrc : classOf a ≠ some .rc := by simp [ha]
  rw [exec_set_runs hc hacc hl ha hv, State.accept_eq, bodySet,
    memRead_afterRead (rest := .ok :: .ok :: .ok :: rest) ht hm hb, State.underWay_latchCur,
    bodySetWrite_ok (s := s.afterRead _ a) ht hm rfl, State.afterRead_written hrc,
    State.afterRead_afterWrite_afterRead hrc]
  rfl

end Sys2Proof.Machine
end

section
/-! The statements of the encoding's family: decoder and encoder, the illegal words, the words of commands and results, the
named getters and setters (30_encoding.md, R90 to R105). -/

namespace Sys2Proof.Machine

/-- Settles O1: the round trip per instruction, and what the table's name keeps. -/
theorem decodeOfEncodeIsTheInstruction : Obligations.DecodeOfEncodeIsTheInstruction := fun i h =>
  ⟨decode_encode h, encode_named i, expand_named i⟩

/-- Settles O2, by the four commands that the decoder can answer. -/
theorem everyWordSpellsAtMostOneCommand : Obligations.EveryWordSpellsAtMostOneCommand := by
  intro w i h
  rcases decodeCore_ok h with ⟨-, rfl, hw⟩ | ⟨-, rfl, hw⟩ | ⟨-, hl, rfl, hw⟩ | ⟨-, hl, rfl, hw⟩
  · exact ⟨rfl, congrArg Encoding.word hw.symm, rfl⟩
  · exact ⟨rfl, congrArg Encoding.word hw.symm, rfl⟩
  · exact ⟨(descriptorLegal_eq_legalField _ _).trans hl, congrArg Encoding.word hw.symm, rfl⟩
  · exact ⟨(descriptorLegal_eq_legalField _ _).trans hl, congrArg Encoding.word hw.symm, rfl⟩

/-- Settles O3: the clauses on the word's fields (`decodeCore_error_iff`), each field read as a number. -/
theorem illegalWordsAreThoseOfTheThreeClauses : Obligations.IllegalWordsAreThoseOfTheThreeClauses := by
  intro w
  simp only [decodeCore_error_iff, opcodeOf_cmdOp_iff, ne_eq, ← BitVec.toNat_inj, cmdO_toNat,
    cmdWm1_toNat, cmdValue_toNat]
  exact Iff.rfl

/-- Settles O25: a row's getter by which of its positions are known; the two fixed getters are `GET` of their fields. -/
theorem namedGettersReturnTheirFields : Obligations.NamedGettersReturnTheirFields :=
  ⟨getterOf_iff, fun _ _ hs => ⟨exec_get_ok hs (by decide) (by decide), exec_get_ok hs (by decide) (by decide)⟩⟩

/-- Settles O26: a row's setter by its kind, its class and its position; the two fixed setters are `SET` of their fields,
under the words of R105. -/
theorem namedSettersSetTheirFields : Obligations.NamedSettersSetTheirFields := by
  refine ⟨setterOf_iff, exec_expand, fun s v rest hs => ⟨fun hv => ?_, fun hv => ?_⟩⟩
  · rw [← encodeSet_enSbb0]
    exact exec_set_ok hs (by decide) (by decide) hv
  · rw [← encodeSet_tvLdo]
    exact exec_set_ok hs (by decide) (by decide) hv

/-- Settles O4: each word's value from its fields (`cmdWord_toNat`), a legal descriptor's two fields as numbers. -/
theorem commandWordsAsNumbers : Obligations.CommandWordsAsNumbers := by
  refine ⟨fun a => ?_, fun a v => ?_, fun a o w h => ?_, fun a o w v h => ?_, rfl,
    fun v => congrArg _ (encodeSet_enSbb0 v), rfl, fun v => congrArg _ (encodeSet_tvLdo v)⟩
  · simp [encodeRdReg, cmdWord_toNat, Opcode.bits]
  · simp [encodeWrReg, cmdWord_toNat, Opcode.bits]
  · rw [encodeGet, cmdWord_toNat, descriptorLegal_offset h, Nat.eq_sub_of_add_eq (descriptorLegal_width h)]
    rfl
  · rw [encodeSet, cmdWord_toNat, descriptorLegal_offset h, Nat.eq_sub_of_add_eq (descriptorLegal_width h)]
    rfl

/-- Settles O5, by running the decoder on the nine words. -/
theorem specWordsDecode : Obligations.SpecWordsDecode := by
  unfold Obligations.SpecWordsDecode
  decide

/-- Settles O28: an illegal word is a command that fails its first check (`runWord_error`). -/
theorem illegalWordCompletesWithInvalidDescriptor : Obligations.IllegalWordCompletesWithInvalidDescriptor := by
  intro s i c w r rest hc hacc hd ha
  rw [step, ha]
  have found : (({ s with agenda := rest } : State).turnOf i).ctl? = some c := hc
  simp only [takeTurn, runWord_error hd, runCommand_accepts found hacc, State.accept_raise]
  rfl

/-- Settles O57: `OK` and `VERIFY_MISMATCH` by the data byte of a result word, the rest as constants. -/
theorem resultWords : Obligations.ResultWords := by
  refine ⟨fun b => ?_, fun f v h => ?_, rfl, rfl, rfl, rfl, rfl, rfl, rfl⟩
  · rw [okResult, Result.word_data]
    exact BitVec.zero_or
  · rw [verifyResult, if_neg h, Result.word_data]
    rfl

end Sys2Proof.Machine
end

section
/-! SUPPORT. The commands by the register accesses they are made of: a command by a handle that names another device, and
what accesses of one register leave unchanged for every outcome, so for every command that names it. -/

namespace Sys2Proof.Machine

/-! The reading commands that pass their checks -/

section
variable {s : State} {c : Ctl} {a : Byte} (hc : s.ctl? = some c) (hacc : c.accepts = true)
include hc hacc

theorem exec_rdReg_runs (ha : mapped a = true) :
    exec (.rdReg a) s = .next (bodyRdReg a (s.accept (encodeRdReg a))) :=
  (runCommand_accepts hc hacc).trans (by rw [checkAddress, if_pos ha])

theorem exec_get_runs {o w : Nat} (hl : legalField o w = true) (ha : mapped a = true) :
    exec (.get a o w) s = .next (bodyGet a o w (s.accept (encodeGet a o w))) :=
  (runCommand_accepts hc hacc).trans (by rw [checkGet, if_pos hl, checkAddress, if_pos ha])

end

/-! A handle that names another device -/

/-- The frame of a controller whose handle names another device fails and ends its command (R63, R128, R222). -/
theorem afterFrame_otherDevice {α : Type} {s : State} (ht : s.target ≠ s.params.devAddr) (effect : State → α × State)
    (st : ResultStep) (go : α → State → State) :
    afterFrame st go (issue s.target effect s) = s.raise .transportFailure st := by
  rw [issue_otherDevice ht]
  rfl

section
variable {s : State} (ht : s.target ≠ s.params.devAddr) {a : Byte} {w : CmdWord} {p : Phase} {cur new rb : Option Byte}
include ht

theorem memRead_otherDevice (pointer data : Phase) (st : ResultStep) (go : Byte → State → State) :
    memRead pointer data st a go (s.withCtl (Ctl.underWay w p cur new rb)) =
      s.withCtl (Ctl.finished w cur new rb ⟨.transportFailure, st, 0x00⟩) := by
  rw [memRead, State.underWay_enter]
  exact (afterFrame_otherDevice (s := s.withCtl _) ht _ _ _).trans (s.underWay_complete _ _ _ _ _ _)

theorem memWrite_otherDevice (v : Byte) (go : State → State) :
    memWrite a v go (s.withCtl (Ctl.underWay w p cur new rb)) =
      s.withCtl (Ctl.finished w cur new rb ⟨.transportFailure, .write, 0x00⟩) := by
  rw [memWrite, State.underWay_enter]
  exact (afterFrame_otherDevice (s := s.withCtl _) ht _ _ _).trans (s.underWay_complete _ _ _ _ _ _)

end

/-! What the accesses of one register keep -/

/-- A property that the accesses of register `a` keep, reads and writes, whatever the outcome of their frames. -/
structure AccessKept (a : Byte) (P : State → Prop) : Prop extends Private P where
  setPtr : ∀ s p, P s → P (State.setPtr s p)
  setReg : ∀ s v, P s → P (State.setReg s a v)

section
variable {P : State → Prop} {a : Byte} (hP : AccessKept a P)
include hP

theorem AccessKept.transient : Transient P := ⟨fun _ _ _ => hP.updCtl _ _, hP.oracle, hP.setPtr⟩

theorem AccessKept.freePtr {s : State} (hs : P s) : P (Machine.freePtr s) := hP.transient.freePtr hs

section
variable (ha : mapped a = true) {s : State} (hs : P s)
include ha hs

theorem AccessKept.memRead {pointer data : Phase} {st : ResultStep} {go : Byte → State → State} (hp : pointer ≠ .done)
    (hd : data ≠ .done) (hgo : ∀ b u, P u → P (go b u)) : P (memRead pointer data st a go s) :=
  memRead_outcomes hs hP.transient ha hp hd (fun _ => hP.setReg _ _) (fun _ => hP.updCtl _ _) (fun _ => hP.updCtl _ _)
    fun _ hu => hgo _ _ (hP.freePtr (hP.setReg _ _ hu))

theorem AccessKept.memWrite {v : Byte} {go : State → State} (hgo : ∀ u, P u → P (go u)) : P (memWrite a v go s) := by
  have written : ∀ u b, P u → P (Machine.freePtr (u.setReg a b)) := fun _ _ hu => hP.freePtr (hP.setReg _ _ hu)
  exact memWrite_outcomes hs hP.transient ha (fun _ => hP.updCtl _ _) (fun _ => hP.updCtl _ _)
    (fun _ hu => hP.updCtl _ _ (written _ _ hu)) (fun _ hu => hP.updCtl _ _ (written _ _ hu))
    fun _ hu => hgo _ (written _ _ hu)

theorem AccessKept.bodyRdReg : P (bodyRdReg a s) :=
  hP.memRead ha hs (by decide) (by decide) fun _ _ hu => hP.updCtl _ _ (hP.updCtl _ _ hu)

theorem AccessKept.bodyWrReg (v : Byte) : P (bodyWrReg a v s) :=
  hP.memWrite ha (hP.updCtl _ _ hs) fun _ hu => hP.updCtl _ _ hu

theorem AccessKept.bodyGet (o w : Nat) : P (bodyGet a o w s) :=
  hP.memRead ha hs (by decide) (by decide) fun _ _ hu => hP.updCtl _ _ (hP.updCtl _ _ hu)

theorem AccessKept.bodySetVerify (o w : Nat) (v : Byte) : P (bodySetVerify a o w v s) :=
  hP.memRead ha hs (by decide) (by decide) fun _ _ hu => hP.updCtl _ _ (hP.updCtl _ _ hu)

theorem AccessKept.bodySetWrite (o w : Nat) (v b : Byte) : P (bodySetWrite a o w v b s) :=
  hP.memWrite ha (hP.updCtl _ _ (hP.updCtl _ _ hs)) fun _ hu => hP.bodySetVerify ha hu o w v

theorem AccessKept.bodySet (o w : Nat) (v : Byte) : P (bodySet a o w v s) :=
  hP.memRead ha hs (by decide) (by decide) fun b _ hu => hP.bodySetWrite ha (hP.updCtl _ _ hu) o w v b

end

/-- A whole command keeps what its body keeps, which runs only if the static checks pass (R225). -/
theorem AccessKept.runCommand {w : CmdWord} {failed : Option ResultKind} {body : State → State} {s t : State}
    (h : runCommand w failed body s = .next t) (hs : P s) (hb : failed = none → ∀ u, P u → P (body u)) : P t := by
  cases failed with
  | none => exact runCommand_keeps hP.toPrivate h hs (hb rfl)
  | some kind => exact runCommand_keeps (failed := some kind) (body := id) hP.toPrivate h hs fun _ hu => hu

variable {s t : State} {o w : Nat} (hs : P s)
include hs

theorem AccessKept.execGet (h : execGet a o w s = .next t) : P t :=
  hP.runCommand h hs fun hn _ hu => by
    obtain ⟨-, ha⟩ := checkGet_none hn
    exact hP.bodyGet ha hu o w

theorem AccessKept.execSet {v : Byte} (h : execSet a o w v s = .next t) : P t :=
  hP.runCommand h hs fun hn _ hu => by
    obtain ⟨-, hrw, -⟩ := checkSet_none hn
    exact hP.bodySet (mapped_of_classOf hrw) hu o w v

/-- A command or pseudo-instruction keeps what the accesses of the register it names keep. -/
theorem AccessKept.exec {i : Instr} (hi : registerOf i = some a) (h : exec i s = .next t) : P t := by
  cases i <;> simp only [registerOf, Option.some.injEq, reduceCtorEq] at hi <;> subst hi
  case rdReg => exact hP.runCommand h hs fun hn _ hu => hP.bodyRdReg (checkAddress_none hn) hu
  case wrReg v => exact hP.runCommand h hs fun hn _ hu => hP.bodyWrReg (checkAddress_none hn) hu v
  case get | getEnSbb0 | getTvLdo => exact hP.execGet hs h
  case set | setEnSbb0 | setTvLdo => exact hP.execSet hs h

end

/-- From `s` to `t` no register but `a` has changed, no controller but that of `s`'s turn, no parameter, not whose turn it
is, not the turns to come and not the reply to a bare frame. -/
structure ChangesOnly (a : Byte) (s t : State) : Prop where
  otherRegs : ∀ b, b ≠ a → t.reg b = s.reg b
  otherCtls : ∀ j, j ≠ s.cur → t.ctls[j]? = s.ctls[j]?
  params : t.params = s.params
  cur : t.cur = s.cur
  agenda : t.agenda = s.agenda
  reply : t.reply = s.reply

theorem ChangesOnly.refl (a : Byte) (s : State) : ChangesOnly a s s := ⟨fun _ _ => rfl, fun _ _ => rfl, rfl, rfl, rfl, rfl⟩

/-- An update of the controller of the turn leaves every other one. -/
theorem ChangesOnly.updCtl {a : Byte} {s t : State} (h : ChangesOnly a s t) (f : Ctl → Ctl) :
    ChangesOnly a s (t.updCtl f) := by
  obtain ⟨hregs, hctls, hparams, hcur, hagenda, hreply⟩ := h
  refine ⟨hregs, fun j hj => ?_, hparams, hcur, hagenda, hreply⟩
  rw [State.updCtl_ctls, List.getElem?_modify_ne _ _ (hcur ▸ hj.symm), hctls j hj]

/-- A write to a register leaves every other one. -/
theorem ChangesOnly.setReg {a : Byte} {s t : State} (h : ChangesOnly a s t) (v : Byte) :
    ChangesOnly a s (t.setReg a v) := by
  obtain ⟨hregs, hctls, hparams, hcur, hagenda, hreply⟩ := h
  refine ⟨fun b hb => ?_, hctls, hparams, hcur, hagenda, hreply⟩
  rw [State.setReg_reg, if_neg hb, hregs b hb]

theorem ChangesOnly.accessKept (a : Byte) (s : State) : AccessKept a (ChangesOnly a s) where
  updCtl _ f h := h.updCtl f
  oracle _ _ _ h := ⟨h.otherRegs, h.otherCtls, h.params, h.cur, h.agenda, h.reply⟩
  setPtr _ _ h := ⟨h.otherRegs, h.otherCtls, h.params, h.cur, h.agenda, h.reply⟩
  setReg _ v h := h.setReg v

end Sys2Proof.Machine
end

section
/-! The statements of the register accesses' family: `RD_REG` and `WR_REG` with their frames `ok`, a handle that names
another device, and what no command changes (40_register_access.md, R120 to R128). -/

namespace Sys2Proof.Machine

/-- Settles O21: the read access of the body (`memRead_afterRead`), then the latch and the result. -/
theorem rdRegReturnsTheRegister : Obligations.RdRegReturnsTheRegister := by
  intro s a rest hs ha
  obtain ⟨⟨c, hc, hacc⟩, ht, hb⟩ := hs
  rw [exec_rdReg_runs hc hacc ha, State.accept_eq, bodyRdReg, memRead_afterRead ht ha hb, State.underWay_latchCur,
    State.underWay_complete]
  rfl

/-- Settles O22: `NEW` latched, then the write access of the body (`memWrite_afterWrite`). -/
theorem wrRegWritesTheRegister : Obligations.WrRegWritesTheRegister := by
  intro s a v rest hs ha
  obtain ⟨⟨c, hc, hacc⟩, ht, hb⟩ := hs
  rw [exec_wrReg_runs hc hacc ha, State.accept_eq, bodyWrReg, State.underWay_latchNew, memWrite_afterWrite ht ha hb,
    State.underWay_complete]
  rfl

/-- Settles O30: each command that passes its checks ends at the first frame of its first access. -/
theorem wrongDeviceHandleFailsEveryCommand : Obligations.WrongDeviceHandleFailsEveryCommand := by
  intro s c a o w v hc hacc ht ha hw how
  have hl : legalField o w = true := (legalField_iff o w).mpr ⟨hw, how⟩
  refine ⟨?_, ?_, ?_, fun hrw hv => ?_⟩
  · rw [exec_rdReg_runs hc hacc ha, State.accept_eq, bodyRdReg, memRead_otherDevice ht]
  · rw [exec_get_runs hc hacc hl ha, State.accept_eq, bodyGet, memRead_otherDevice ht]
  · rw [exec_wrReg_runs hc hacc ha, State.accept_eq, bodyWrReg, State.underWay_latchNew, memWrite_otherDevice ht]
  · rw [exec_set_runs hc hacc hl hrw hv, State.accept_eq, bodySet, memRead_otherDevice ht]

/-- Settles O34: the accesses of the named register keep the frame (`ChangesOnly.accessKept`), so the command does. -/
theorem commandsChangeOnlyTheNamedRegister : Obligations.CommandsChangeOnlyTheNamedRegister := by
  intro s t i r hi h
  obtain ⟨hregs, hctls, hparams, hcur, hagenda, hreply⟩ :=
    (ChangesOnly.accessKept r s).exec (ChangesOnly.refl r s) hi h
  exact ⟨hregs, hctls, hparams, hcur, hagenda, hreply⟩

end Sys2Proof.Machine
end

section
/-! SUPPORT. Two fields side by side, and the field moved between its place in the byte and a value: the laws of the
datapath that need no machine state (41_field_datapath.md, R144 to R154). -/

namespace Sys2Proof.Machine

/-- Two masks are disjoint exactly when no bit lies in both fields (R145). -/
theorem fieldMask_and_eq_zero_iff {o1 w1 o2 w2 : Nat} (h1 : legalField o1 w1 = true) (h2 : legalField o2 w2 = true) :
    fieldMask o1 w1 &&& fieldMask o2 w2 = 0 ↔ ∀ j, ¬ ((o1 ≤ j ∧ j < o1 + w1) ∧ (o2 ≤ j ∧ j < o2 + w2)) := by
  have hbit : ∀ j, (fieldMask o1 w1 &&& fieldMask o2 w2).getLsbD j =
      decide ((o1 ≤ j ∧ j < o1 + w1) ∧ (o2 ≤ j ∧ j < o2 + w2)) := fun j => by
    rw [BitVec.getLsbD_and, fieldMask_bit h1, fieldMask_bit h2, ← Bool.decide_and]
  constructor
  · intro h j
    have hj := hbit j
    rw [h] at hj
    exact of_decide_eq_false (hj.symm.trans BitVec.getLsbD_zero)
  · intro h
    refine byte_ext fun j _ => ?_
    rw [hbit j, decide_eq_false (h j)]
    exact BitVec.getLsbD_zero.symm

/-- The mask leaves exactly the values that are not wider than the field (R154). -/
theorem and_maskGen_eq_self_iff {w : Nat} (hw : w ≤ 8) (v : Byte) : v &&& maskGen w = v ↔ v ≤ maskGen w := by
  constructor
  · intro h
    have hle : (v &&& maskGen w).toNat ≤ (maskGen w).toNat := by
      rw [BitVec.toNat_and]
      exact Nat.and_le_right
    rwa [h] at hle
  · intro hv
    refine byte_ext fun j _ => ?_
    rw [BitVec.getLsbD_and, maskGen_bit hw]
    by_cases hj : j < w
    · simp [hj]
    · simp [hj, bit_of_le_maskGen hv hw (Nat.le_of_not_lt hj)]

/-- The value put in place is truncated to the field's width once and for all (R99). -/
theorem placed_and_maskGen (o w : Nat) (v : Byte) : placed o w (v &&& maskGen w) = placed o w v := by
  rw [placed, placed, BitVec.and_assoc, BitVec.and_self]

/-- An extracted field is as wide as its field, so that nothing of it is lost when it is put back in place (R147). -/
theorem placed_extract (b : Byte) (o w : Nat) : placed o w (extract b o w) = extract b o w <<< o := by
  rw [placed, extract, BitVec.and_assoc, BitVec.and_self]

/-- R148 for every value, in range or not (`extract_insertField` is the case in range). -/
theorem extract_insertField_eq_and {o w : Nat} (hl : legalField o w = true) (b v : Byte) :
    extract (insertField b o w v) o w = v &&& maskGen w := by
  obtain ⟨_, hw⟩ := (legalField_iff o w).mp hl
  refine byte_ext fun j _ => ?_
  rw [extract_bit hl, insertField_bit hl, BitVec.getLsbD_and, maskGen_bit (by omega)]
  by_cases hj : j < w
  · simp [hj]
  · simp [hj]

/-- An insert leaves a disjoint field as it is (R149). -/
theorem extract_insertField_disjoint {o w o2 w2 : Nat} (hl : legalField o w = true) (hl2 : legalField o2 w2 = true)
    (hd : fieldMask o2 w2 &&& fieldMask o w = 0) (b v : Byte) :
    extract (insertField b o w v) o2 w2 = extract b o2 w2 := by
  refine byte_ext fun j _ => ?_
  rw [extract_bit hl2, extract_bit hl2, insertField_bit hl]
  by_cases hj : j < w2
  · have hout : ¬ (o ≤ o2 + j ∧ o2 + j < o + w) := fun hin =>
      (fieldMask_and_eq_zero_iff hl2 hl).mp hd (o2 + j) ⟨by omega, hin⟩
    rw [if_neg hout]
  · simp [hj]

/-- An insert of ones into the zero byte shows in every field that shares a bit with the field written (R149). -/
theorem extract_insertField_overlapping {o w o2 w2 : Nat} (hl : legalField o w = true) (hl2 : legalField o2 w2 = true)
    (ho : fieldMask o2 w2 &&& fieldMask o w ≠ 0) :
    extract (insertField 0#8 o w (BitVec.allOnes 8)) o2 w2 ≠ extract 0#8 o2 w2 := by
  obtain ⟨_, hw⟩ := (legalField_iff o w).mp hl
  rw [ne_eq, fieldMask_and_eq_zero_iff hl2 hl] at ho
  push Not at ho
  obtain ⟨j, ⟨hj1, hj2⟩, hj⟩ := ho
  intro heq
  have hshared := congrArg (BitVec.getLsbD · (j - o2)) heq
  have hin : j - o2 < w2 := by omega
  have hvalue : j - o < 8 := by omega
  simp only [extract_bit hl2, insertField_bit hl, Nat.add_sub_cancel' hj1, if_pos hj, BitVec.getLsbD_allOnes,
    decide_eq_true hvalue, decide_eq_true hin, BitVec.getLsbD_zero, Bool.and_true, Bool.and_false,
    Bool.true_eq_false] at hshared

/-- The last insert into a field wins (R151). -/
theorem insertField_insertField {o w : Nat} (hl : legalField o w = true) (b v u : Byte) :
    insertField (insertField b o w v) o w u = insertField b o w u := by
  refine byte_ext fun j _ => ?_
  rw [insertField_bit hl, insertField_bit hl, insertField_bit hl]
  by_cases hj : o ≤ j ∧ j < o + w
  · rw [if_pos hj, if_pos hj]
  · rw [if_neg hj, if_neg hj, if_neg hj]

/-- A byte's own field inserted again changes nothing (R151). -/
theorem insertField_extract {o w : Nat} (hl : legalField o w = true) (b : Byte) :
    insertField b o w (extract b o w) = b := by
  refine byte_ext fun j _ => ?_
  rw [insertField_bit hl, extract_bit hl]
  split
  case isTrue hj =>
    have hin : j - o < w := by omega
    rw [decide_eq_true hin, Bool.true_and, Nat.add_sub_cancel' hj.1]
  case isFalse => rfl

/-- Inserts into disjoint fields commute: no bit is written by both (R152). -/
theorem insertField_comm {o1 w1 o2 w2 : Nat} (h1 : legalField o1 w1 = true) (h2 : legalField o2 w2 = true)
    (hd : fieldMask o1 w1 &&& fieldMask o2 w2 = 0) (b v u : Byte) :
    insertField (insertField b o1 w1 v) o2 w2 u = insertField (insertField b o2 w2 u) o1 w1 v := by
  refine byte_ext fun j _ => ?_
  rw [insertField_bit h2, insertField_bit h1, insertField_bit h1, insertField_bit h2]
  by_cases hj : o1 ≤ j ∧ j < o1 + w1
  · have hout : ¬ (o2 ≤ j ∧ j < o2 + w2) := fun hj2 => (fieldMask_and_eq_zero_iff h1 h2).mp hd j ⟨hj, hj2⟩
    rw [if_neg hout, if_pos hj, if_pos hj]
  · rw [if_neg hj, if_neg hj]

end Sys2Proof.Machine
end

section
/-! The statements of the field datapath's family: the laws of extract and insert, the table of the masks and the
in-range predicate (41_field_datapath.md, R144 to R154). -/

namespace Sys2Proof.Machine

/-- Settles O8: the field's bits come from the value; a value in range is not truncated. -/
theorem extractAfterInsert : Obligations.ExtractAfterInsert := fun b v _ _ hl =>
  ⟨extract_insertField_eq_and hl b v, fun hv => extract_insertField hl hv b⟩

/-- Settles O9: outside the field the byte's bits stay; for an overlapping descriptor the zero byte and a value of ones
refute it (`extract_insertField_overlapping`). -/
theorem insertPreservesOutsideTheField : Obligations.InsertPreservesOutsideTheField := fun _ _ hl =>
  ⟨insertField_outside hl, fun _ _ hl2 =>
    ⟨extract_insertField_disjoint hl hl2, fun ho =>
      ⟨0#8, BitVec.allOnes 8, extract_insertField_overlapping hl hl2 ho⟩⟩⟩

/-- Settles O11: idempotence is the last insert winning, for the value already there. -/
theorem insertIdempotentAndLastWins : Obligations.InsertIdempotentAndLastWins := fun b v u _ _ hl =>
  ⟨insertField_insertField hl b v v, insertField_insertField hl b v u, insertField_extract hl b⟩

/-- Settles O12, by the law of two disjoint fields. -/
theorem disjointInsertsCommute : Obligations.DisjointInsertsCommute := fun b v u _ _ _ _ h1 h2 hd =>
  insertField_comm h1 h2 hd b v u

/-- Settles O13: R151's re-insert, read as the preserved part and the field in place. -/
theorem byteIsPreservedPartAndField : Obligations.ByteIsPreservedPartAndField := by
  intro b o w hl
  calc b = insertField b o w (extract b o w) := (insertField_extract hl b).symm
    _ = preserved b o w ||| placed o w (extract b o w) := rfl
    _ = (b &&& ~~~(fieldMask o w)) ||| (extract b o w <<< o) := by rw [placed_extract, preserved]

/-- Settles O7: the rows are closed equations between bytes, and the count runs over the offsets and widths up to 8, which
hold every legal descriptor. -/
theorem fieldMaskTable : Obligations.FieldMaskTable := by
  constructor
  case left => decide
  case right => decide

/-- Settles O10: only the placed value enters the insert. -/
theorem insertDependsOnTruncatedValue : Obligations.InsertDependsOnTruncatedValue := by
  intro b v o w _
  rw [insertField, insertField, placed_and_maskGen]

/-- Settles O14: the predicate is the comparison, the comparison is the mask's law, and the mask of the whole byte
keeps every bit. -/
theorem inRangeMeansUnchangedByTheMask : Obligations.InRangeMeansUnchangedByTheMask := by
  intro v w _ hw
  have hle : inRange v w = true ↔ v ≤ maskGen w := decide_eq_true_iff
  refine ⟨hle, hle.trans (and_maskGen_eq_self_iff hw v).symm, ?_⟩
  rintro rfl
  have hmask : maskGen 8 = BitVec.allOnes 8 := by decide
  rw [hle, ← and_maskGen_eq_self_iff hw, hmask, BitVec.and_allOnes]

end Sys2Proof.Machine
end

section
/-! SUPPORT. The command word plays no part in a command's run (R28), and what a whole-byte field is: the two halves of
R164. Then the registers across commands that only read. -/

namespace Sys2Proof.Machine

/-! The register file does not look at the controllers -/

theorem drawOutcome_updCtl (s : State) (f : Ctl → Ctl) :
    drawOutcome (s.updCtl f) = ((drawOutcome s).1, (drawOutcome s).2.updCtl f) := by
  cases s with | mk regs ptr ctls params bus draws cur agenda reply => cases bus <;> rfl

theorem effectR1_updCtl (s : State) (f : Ctl → Ctl) :
    effectR1 (s.updCtl f) = ((effectR1 s).1, (effectR1 s).2.updCtl f) := by
  cases hm : mapped s.ptr with
  | false => rw [effectR1_unmapped hm, effectR1_unmapped (s := s.updCtl f) hm]; rfl
  | true => rw [effectR1_mapped hm, effectR1_mapped (s := s.updCtl f) hm]; rfl

theorem issue_updCtl {α : Type} {effect : State → α × State} {f : Ctl → Ctl}
    (he : ∀ u, effect (u.updCtl f) = ((effect u).1, (effect u).2.updCtl f)) (d : DevAddr) (s : State) :
    issue d effect (s.updCtl f) = ((issue d effect s).1, (issue d effect s).2.updCtl f) := by
  by_cases hd : d = s.params.devAddr
  · simp only [issue, State.updCtl_params, if_pos hd, drawOutcome_updCtl]
    rcases drawOutcome s with ⟨_ | applied | applied, u⟩
    · simp only [he]
    · cases applied <;> simp [he]
    · cases applied <;> simp [he]
  · rw [issue_otherDevice hd, issue_otherDevice (s := s.updCtl f) hd]

/-! `CMD` left out -/

/-- The state with no command word in `CMD` of the controller whose turn it is: what `withoutCmd` compares. -/
def State.dropCmd (s : State) : State := s.updCtl fun c => { c with cmd := none }

theorem withoutCmd_next (s : State) : withoutCmd (.next s) = .next s.dropCmd := rfl

theorem State.accept_dropCmd (s : State) (w w' : CmdWord) : (s.accept w).dropCmd = (s.accept w').dropCmd := by
  rw [dropCmd, dropCmd, accept, accept, updCtl_updCtl, updCtl_updCtl]
  rfl

/-- A part of a command that neither looks at `CMD` nor writes it. -/
def CmdBlind (g : State → State) : Prop := ∀ s : State, g s.dropCmd = (g s).dropCmd

theorem CmdBlind.comp {g h : State → State} (hg : CmdBlind g) (hh : CmdBlind h) : CmdBlind fun s => g (h s) :=
  fun s => (congrArg g (hh s)).trans (hg (h s))

/-- An update of the controller that treats `CMD` as one more latch (R29, R31). -/
theorem CmdBlind.updCtl {f : Ctl → Ctl} (hf : ∀ c : Ctl, f { c with cmd := none } = { f c with cmd := none }) :
    CmdBlind fun s => s.updCtl f := fun s => by
  show s.dropCmd.updCtl f = (s.updCtl f).dropCmd
  rw [State.dropCmd, State.dropCmd, State.updCtl_updCtl, State.updCtl_updCtl]
  exact congrArg s.updCtl (funext hf)

theorem CmdBlind.enter (p : Phase) : CmdBlind fun s => s.enter p := .updCtl fun _ => rfl

theorem CmdBlind.latchCur (b : Byte) : CmdBlind fun s => s.latchCur b := .updCtl fun _ => rfl

theorem CmdBlind.complete (r : Result) : CmdBlind fun s => s.complete r := .updCtl fun _ => rfl

theorem CmdBlind.raise (k : ResultKind) (st : ResultStep) : CmdBlind fun s => s.raise k st := .complete _

theorem CmdBlind.hang : CmdBlind State.hang := .updCtl fun _ => rfl

/-- A frame and what its issuer makes of each of the three replies (R74, R222, R233). -/
theorem CmdBlind.frame {α : Type} {effect : State → α × State}
    (he : ∀ (u : State) (f : Ctl → Ctl), effect (u.updCtl f) = ((effect u).1, (effect u).2.updCtl f))
    {st : ResultStep} {go : α → State → State} (hgo : ∀ x, CmdBlind (go x)) :
    CmdBlind fun s => afterFrame st go (issue s.target effect s) := fun s => by
  have hissue : issue s.target effect s.dropCmd = ((issue s.target effect s).1, (issue s.target effect s).2.dropCmd) :=
    issue_updCtl (fun u => he u _) s.target s
  show afterFrame st go (issue s.target effect s.dropCmd) = (afterFrame st go (issue s.target effect s)).dropCmd
  rw [hissue]
  rcases issue s.target effect s with ⟨x | _ | _, u⟩
  · exact hgo x u
  · exact CmdBlind.raise _ _ u
  · exact CmdBlind.hang u

/-- A register read (R123): two frames, each issued on entry to its phase. -/
theorem CmdBlind.memRead {pointer data : Phase} {st : ResultStep} {a : Byte} {go : Byte → State → State}
    (hgo : ∀ b, CmdBlind (go b)) : CmdBlind (memRead pointer data st a go) :=
  have second : CmdBlind fun s => afterFrame st go (frameR1 (s.enter data).target (s.enter data)) :=
    (CmdBlind.frame effectR1_updCtl hgo).comp (.enter data)
  (CmdBlind.frame (fun _ _ => rfl) fun _ => second).comp (.enter pointer)

theorem CmdBlind.bodyRdReg (a : Byte) : CmdBlind (bodyRdReg a) :=
  .memRead fun b => (CmdBlind.complete (okResult b)).comp (.latchCur b)

/-- Two commands with the same checks and the same body differ in `CMD` alone. -/
theorem withoutCmd_runCommand {body : State → State} (hbody : CmdBlind body) (w w' : CmdWord)
    (failed : Option ResultKind) (s : State) :
    withoutCmd (runCommand w failed body s) = withoutCmd (runCommand w' failed body s) := by
  have accepted : ∀ {g : State → State}, CmdBlind g →
      withoutCmd (.next (g (s.accept w))) = withoutCmd (.next (g (s.accept w'))) := fun hg => by
    rw [withoutCmd_next, withoutCmd_next, ← hg, ← hg, s.accept_dropCmd w w']
  cases hc : s.ctl? with
  | none => simp only [runCommand, hc]
  | some c =>
    cases hacc : c.accepts with
    | false => rw [runCommand_busy hc hacc, runCommand_busy hc hacc]
    | true =>
      rw [runCommand_accepts hc hacc, runCommand_accepts hc hacc]
      cases failed with
      | none => exact accepted hbody
      | some kind => exact accepted (CmdBlind.raise kind .none)

/-! The whole byte as a field -/

/-- The field of offset 0 and width 8 is the byte (R147). -/
theorem extract_wholeByte (b : Byte) : extract b 0 8 = b := by
  have hmask : maskGen 8 = BitVec.allOnes 8 := by decide
  rw [extract, hmask, BitVec.and_allOnes, BitVec.ushiftRight_zero]

/-- `GET addr, 0, 8` makes the checks of `RD_REG addr` and runs its body, under its own word (R164). -/
theorem exec_get_wholeByte (a : Byte) (s : State) :
    exec (.get a 0 8) s = runCommand (encodeGet a 0 8) (checkAddress a) (bodyRdReg a) s := by
  have hbody : bodyGet a 0 8 = bodyRdReg a := by
    funext u
    simp only [bodyGet, bodyRdReg, extract_wholeByte]
  show runCommand (encodeGet a 0 8) (checkGet a 0 8) (bodyGet a 0 8) s = _
  rw [hbody]
  rfl

/-! Reads and the registers -/

/-- From `s` to `t` register `b` has kept its byte, or it is read-clear and has been cleared (R68, R200). -/
def KeptOrCleared (b : Byte) (s t : State) : Prop := t.reg b = s.reg b ∨ classOf b = some .rc ∧ t.reg b = 0x00

theorem KeptOrCleared.refl (b : Byte) (s : State) : KeptOrCleared b s s := .inl rfl

theorem KeptOrCleared.trans {b : Byte} {s t u : State} (hst : KeptOrCleared b s t) (htu : KeptOrCleared b t u) :
    KeptOrCleared b s u := by
  rcases htu with hkept | hcleared
  · rwa [KeptOrCleared, hkept]
  · exact .inr hcleared

theorem Private.keptOrCleared (b : Byte) (s : State) : Private (KeptOrCleared b s) :=
  ⟨fun _ _ h => h, fun _ _ _ h => h⟩

/-- A bus read, wherever the pointer stands, changes no register but by the read-clear effect (R68, R200). -/
theorem effectR1_keptOrCleared (b : Byte) (s : State) : KeptOrCleared b s (effectR1 s).2 := by
  by_cases hb : b = s.ptr ∧ classOf b = some .rc
  · obtain ⟨rfl, hrc⟩ := hb
    refine .inr ⟨hrc, ?_⟩
    rw [effectR1_mapped (mapped_of_classOf hrc), freePtr_reg, State.setReg_reg, if_pos rfl, read_clears hrc]
  · exact .inl (effectR1_reg_kept (Decidable.not_and_iff_or_not.mp hb))

/-- A command that only reads keeps what its updates and the effects of `W1` and `R1` keep. -/
theorem readsOnly_keeps {P : State → Prop} (hP : Private P) {a : Byte} {i : Instr} (hi : readsOnly a i) {s t : State}
    (h : exec i s = .next t) (hs : P s) (h1 : ∀ u, P u → P (effectW1 a u).2) (hr : ∀ u, P u → P (effectR1 u).2) :
    P t := by
  have read : ∀ (result : Byte → Result) (u : State), P u →
      P (memRead .rdPtr .rdData .firstRead a (fun b s => (s.latchCur b).complete (result b)) u) := fun _ _ hu =>
    memRead_keeps hP hu h1 hr fun _ _ hv => hP.updCtl _ _ (hP.updCtl _ _ hv)
  rcases hi with rfl | ⟨o, w, -, rfl⟩
  · exact runCommand_keeps hP h hs (read okResult)
  · exact runCommand_keeps hP h hs (read fun b => okResult (extract b o w))

theorem readsOnly_keptOrCleared {a : Byte} {i : Instr} (hi : readsOnly a i) {s t : State} (h : exec i s = .next t)
    (b : Byte) : KeptOrCleared b s t :=
  readsOnly_keeps (.keptOrCleared b s) hi h (.refl b s) (fun _ hu => hu) fun u hu =>
    hu.trans (effectR1_keptOrCleared b u)

theorem registerOf_readsOnly {a : Byte} {i : Instr} (hi : readsOnly a i) : registerOf i = some a := by
  rcases hi with rfl | ⟨_, _, -, rfl⟩ <;> rfl

end Sys2Proof.Machine
end

section
/-! The statements of the field getter's family: `GET` with its frames `ok`, `GET` of the whole byte, and what the
commands that only read leave in the registers (42_field_get.md, R160 to R164). -/

namespace Sys2Proof.Machine

/-- Settles O23: `exec_get_ok`, `EXTRACT` being the shift and the mask. -/
theorem getReturnsTheField : Obligations.GetReturnsTheField := fun _ _ _ _ _ hs ha hw how =>
  exec_get_ok hs ha ((legalField_iff _ _).mpr ⟨hw, how⟩)

/-- Settles O33: the same checks and the same body (`exec_get_wholeByte`), which does not see the command word. -/
theorem wholeByteGetIsRdReg : Obligations.WholeByteGetIsRdReg := fun s a => by
  rw [exec_get_wholeByte]
  exact withoutCmd_runCommand (.bodyRdReg a) _ _ _ s

/-- Settles O35: every register is kept or, if `RC`, cleared; that only the named one can be cleared is O34. -/
theorem readsChangeOnlyReadClearRegisters : Obligations.ReadsChangeOnlyReadClearRegisters := by
  intro s t a i hi h
  obtain ⟨hothers, -⟩ := commandsChangeOnlyTheNamedRegister s t i a (registerOf_readsOnly hi) h
  have hkept := readsOnly_keptOrCleared hi h
  exact ⟨fun b hb => (hkept b).resolve_right fun ⟨hrc, _⟩ => hb hrc, hothers, (hkept a).imp_right And.right⟩

end Sys2Proof.Machine
end

section
/-! SUPPORT. A command one of whose frames fails (R176, R222): the frames before it succeed, and the controller completes
with the number of the register access that the frame belongs to. -/

namespace Sys2Proof.Machine

/-- The controller has become `c` but for its completion with `TRANSPORT_FAILURE` in step `st`; `rest` of the fixed outcomes
are left. -/
def State.FailsAs (s : State) (rest : List BusDraw) (c : Ctl) (st : ResultStep) : Prop :=
  s.bus = rest ∧ s.ctl? = some { c with phase := .done, res := some ⟨.transportFailure, st, 0x00⟩ }

/-- The register access of a `SET` that its frame number `k` belongs to, from 0 (R176, R181). -/
def setFrameStep (k : Nat) : ResultStep := if k < 2 then .firstRead else if k = 2 then .write else .verifyRead

section
variable {s : State} {c : Ctl} {applied : Bool} {rest : List BusDraw} {a : Byte}

theorem State.raise_failsAs {st : ResultStep} (hb : s.bus = rest) (hc : s.ctl? = some c) :
    (s.raise .transportFailure st).FailsAs rest c st :=
  ⟨hb, by rw [State.raise_ctl?, hc]; rfl⟩

/-- In which phase the frame was does not show: a failed command is in `DONE` (R27). -/
theorem State.FailsAs.of_phase {st : ResultStep} {p : Phase} (h : s.FailsAs rest { c with phase := p } st) :
    s.FailsAs rest c st := h

/-- Whether the effect of a failed frame was applied or not, its issuer completes (R75, R222). -/
theorem afterFrame_fail {α : Type} {effect : State → α × State} {st : ResultStep} {go : α → State → State}
    (he : ∀ u, RegisterChange u (effect u).2) (h : s.Faces (.fail applied :: rest) c) :
    (afterFrame st go (issue s.target effect s)).FailsAs rest c st := by
  rw [issue_fail h.target h.bus]
  cases applied with
  | false => exact State.raise_failsAs rfl h.ctl
  | true =>
    obtain ⟨hctls, hcur, hbus⟩ := he { s with bus := rest }
    refine State.raise_failsAs hbus ?_
    rw [if_pos rfl, State.ctl?, hctls, hcur]
    exact h.ctl

/-- A register read fails as its step at its first frame and at its second, with nothing latched (R127). -/
theorem memRead_fail {pointer data : Phase} {st : ResultStep} {go : Byte → State → State} {k : Nat}
    (h : s.Faces (List.replicate k .ok ++ .fail applied :: rest) c) (hk : k < 2) :
    (memRead pointer data st a go s).FailsAs rest c st := by
  match k, hk with
  | 0, _ => exact (afterFrame_fail (effectW1_change a) (h.enter pointer)).of_phase
  | 1, _ =>
    obtain ⟨ht, hb, hc⟩ := h.enter pointer
    have pointed : ({ s.enter pointer with bus := .fail applied :: rest }.setPtr a).Faces (.fail applied :: rest)
        { c with phase := pointer } := ⟨ht, rfl, hc⟩
    simp only [memRead, frameW1, issue_ok ht hb, afterFrame]
    exact (afterFrame_fail effectR1_change (pointed.enter data)).of_phase.of_phase

theorem memWrite_fail {v : Byte} {go : State → State} (h : s.Faces (.fail applied :: rest) c) :
    (memWrite a v go s).FailsAs rest c .write :=
  (afterFrame_fail (effectW2_change a v) (h.enter .wrFrame)).of_phase

/-- Steps 2 to 5 of a `SET` fail in the write or in the verify read (R174, R175). -/
theorem bodySetWrite_fail {o w k : Nat} {v b : Byte} (h : s.Faces (List.replicate k .ok ++ .fail applied :: rest) c)
    (ha : mapped a = true) (hk : k < 3) :
    (bodySetWrite a o w v b s).FailsAs rest { c with new := some (insertField b o w v) } (setFrameStep (k + 2)) := by
  have hmerged := (h.enter .merge).latchNew (insertField b o w v)
  match k, hk with
  | 0, _ => exact (memWrite_fail hmerged).of_phase (p := .merge)
  | k + 1, hk =>
    obtain ⟨u, e, hu⟩ := memWrite_ok_faces hmerged ha
    have hstep : setFrameStep (k + 1 + 2) = .verifyRead := by simp [setFrameStep]
    rw [bodySetWrite, e, hstep]
    exact (memRead_fail hu (show k < 2 by omega)).of_phase (p := .wrFrame)

/-- A `SET` fails in the register access of any of its five frames (R170, R176), with nothing latched before the first data
byte. -/
theorem bodySet_fail {o w k : Nat} {v : Byte} (h : s.Faces (List.replicate k .ok ++ .fail applied :: rest) c)
    (ha : mapped a = true) (hk : k < 5) : ∃ c', (bodySet a o w v s).FailsAs rest c' (setFrameStep k) ∧ c'.rb = c.rb ∧
      (k < 2 → c'.cur = c.cur ∧ c'.new = c.new) := by
  by_cases hk2 : k < 2
  · have hstep : setFrameStep k = .firstRead := if_pos hk2
    exact ⟨c, hstep ▸ memRead_fail h hk2, rfl, fun _ => ⟨rfl, rfl⟩⟩
  · obtain ⟨k, rfl⟩ := Nat.exists_eq_add_of_le' (Nat.le_of_not_lt hk2)
    obtain ⟨u, e, hu⟩ := memRead_ok_faces h ha
    rw [bodySet, e]
    exact ⟨_, bodySetWrite_fail (hu.latchCur (s.reg a)) ha (show k < 3 by omega), rfl, fun hlt => absurd hlt hk2⟩

end

end Sys2Proof.Machine
end

section
/-! SUPPORT. A `SET` for every outcome of its frames (R187): the byte its register holds in the end, and with which result;
and that this byte agrees with the old one outside the field (R185). -/

namespace Sys2Proof.Machine

/-! Bytes that agree outside a field -/

/-- The bits left by the complement of a field's mask are those outside the field (R145). -/
theorem outside_eq_iff {o w : Nat} (hl : legalField o w = true) (x y : Byte) :
    x &&& ~~~(fieldMask o w) = y &&& ~~~(fieldMask o w) ↔
      ∀ j, ¬ (o ≤ j ∧ j < o + w) → x.getLsbD j = y.getLsbD j := by
  have hbit : ∀ (b : Byte) (j : Nat), (b &&& ~~~(fieldMask o w)).getLsbD j =
      (b.getLsbD j && !decide (o ≤ j ∧ j < o + w)) := fun b j => by
    rw [BitVec.getLsbD_and, BitVec.getLsbD_not, fieldMask_bit hl]
    by_cases hj : j < 8
    · simp [hj]
    · simp [BitVec.getLsbD_of_ge b j (Nat.le_of_not_lt hj)]
  constructor
  · intro h j hj
    simpa [hbit, hj] using congrArg (BitVec.getLsbD · j) h
  · intro h
    refine byte_ext fun j _ => ?_
    rw [hbit, hbit]
    by_cases hj : o ≤ j ∧ j < o + w
    · simp [hj]
    · rw [h j hj]

/-- A field disjoint from another reads the same from two bytes that agree outside the other (R149). -/
theorem extract_eq_of_outside_eq {o w o2 w2 : Nat} (hl : legalField o w = true) (hl2 : legalField o2 w2 = true)
    (hd : fieldMask o2 w2 &&& fieldMask o w = 0) {x y : Byte}
    (h : x &&& ~~~(fieldMask o w) = y &&& ~~~(fieldMask o w)) : extract x o2 w2 = extract y o2 w2 := by
  refine byte_ext fun j _ => ?_
  rw [extract_bit hl2, extract_bit hl2]
  by_cases hj : j < w2
  · have hout : ¬ (o ≤ o2 + j ∧ o2 + j < o + w) := fun hin =>
      (fieldMask_and_eq_zero_iff hl2 hl).mp hd (o2 + j) ⟨by omega, hin⟩
    rw [(outside_eq_iff hl x y).mp h _ hout]
  · simp [hj]

/-- Of a byte that agrees outside a field with the one held, a bus write leaves one that does (R66, R185). -/
theorem write_outside {o w : Nat} (hl : legalField o w = true) (m : Byte) {b n : Byte}
    (h : n &&& ~~~(fieldMask o w) = b &&& ~~~(fieldMask o w)) :
    ((b &&& ~~~m) ||| (n &&& m)) &&& ~~~(fieldMask o w) = b &&& ~~~(fieldMask o w) := by
  rw [outside_eq_iff hl] at h ⊢
  intro j hj
  rw [BitVec.getLsbD_or, BitVec.getLsbD_and, BitVec.getLsbD_and, BitVec.getLsbD_not, h j hj]
  by_cases h8 : j < 8
  · cases m.getLsbD j <;> simp [h8]
  · simp [BitVec.getLsbD_of_ge b j (Nat.le_of_not_lt h8)]

/-! The result latch read back -/

theorem State.complete_result? {s : State} {c : Ctl} (hc : s.ctl? = some c) (r : Result) :
    (s.complete r).result? = some r := by
  rw [State.result?, State.complete_ctl?, hc]
  rfl

/-- A controller that is not in `DONE` shows no result (R31). -/
theorem State.result?_eq_none {s : State} {c : Ctl} (hc : s.ctl? = some c) (hp : c.phase ≠ .done) : s.result? = none := by
  simp only [State.result?, hc, if_neg hp]

/-! A `SET` on its way -/

/-- Amid a command that began in `s`: register `a` now holds `b`, the parameters are as they were, and the controller of the
turn is not in `DONE`. -/
structure Amid (s : State) (a b : Byte) (u : State) : Prop where
  reg : u.reg a = b
  params : u.params = s.params
  ctl : ∃ c, u.ctl? = some c ∧ c.phase ≠ .done

section
variable {s u : State} {a b : Byte}

theorem Amid.updCtl (h : Amid s a b u) {f : Ctl → Ctl} (hf : ∀ c : Ctl, c.phase ≠ .done → (f c).phase ≠ .done) :
    Amid s a b (u.updCtl f) := by
  obtain ⟨hreg, hparams, c, hc, hp⟩ := h
  exact ⟨hreg, hparams, f c, by rw [State.updCtl_ctl?, hc]; rfl, hf c hp⟩

theorem Amid.transient (s : State) (a b : Byte) : Transient (Amid s a b) where
  enter _ _ hp h := h.updCtl fun _ _ => hp
  oracle _ _ _ h := ⟨h.reg, h.params, h.ctl⟩
  setPtr _ _ h := ⟨h.reg, h.params, h.ctl⟩

theorem Amid.setReg (h : Amid s a b u) (n : Byte) : Amid s a n (u.setReg a n) :=
  ⟨by rw [State.setReg_reg, if_pos rfl], h.params, h.ctl⟩

/-- A data byte transferred leaves the register's new byte, and the pointer free. -/
theorem Amid.freePtr_setReg (h : Amid s a b u) (n : Byte) : Amid s a n (freePtr (u.setReg a n)) :=
  (Amid.transient s a n).freePtr (h.setReg n)

/-- A read, of a register that reads do not clear, leaves the byte (R68). -/
theorem Amid.readKept (h : Amid s a b u) (ha : classOf a ≠ some .rc) :
    Amid s a b (u.setReg a (u.reg a &&& ~~~(readClearMask a))) := by
  rw [read_keeps ha, h.reg]
  exact h.setReg b

/-- What a bus write leaves in a register that holds its first byte yet is what it would have left at first (R66). -/
theorem Amid.written (h : Amid s a (s.reg a) u) (n : Byte) : u.written a n = s.written a n := by
  rw [State.written, h.reg, h.params, State.written]

theorem Amid.complete_result? (h : Amid s a b u) (r : Result) : (u.complete r).result? = some r := by
  obtain ⟨c, hc, -⟩ := h.ctl
  exact State.complete_result? hc r

theorem Amid.hang_result? (h : Amid s a b u) : u.hang.result? = none := by
  obtain ⟨c, hc, hp⟩ := (h.updCtl (f := fun c => { c with waiting := true }) fun _ hp => hp).ctl
  exact State.result?_eq_none hc hp

end

/-- How a `SET` that passed its checks can end (R187), its register holding `old` before and `new` after the write, by its
result. -/
inductive SetEnds (a old new : Byte) (o w : Nat) (v : Byte) (t : State) : Prop where
  | hung (hreg : t.reg a = old ∨ t.reg a = new) (hres : t.result? = none)
  | firstRead (hreg : t.reg a = old) (hres : t.result? = some (errorResult .transportFailure .firstRead))
  | write (hreg : t.reg a = old ∨ t.reg a = new) (hres : t.result? = some (errorResult .transportFailure .write))
  | verifyRead (hreg : t.reg a = new) (hres : t.result? = some (errorResult .transportFailure .verifyRead))
  | verified (hreg : t.reg a = new) (hres : t.result? = some (verifyResult (extract new o w) v))

theorem SetEnds.oldOrNew {a old new : Byte} {o w : Nat} {v : Byte} {t : State} (h : SetEnds a old new o w v t) :
    t.reg a = old ∨ t.reg a = new := by
  cases h with
  | hung hreg | write hreg => exact hreg
  | firstRead hreg => exact .inl hreg
  | verifyRead hreg | verified hreg => exact .inr hreg

section
variable {s u : State} {a v : Byte} {o w : Nat} (ha : classOf a = some .rw)
include ha

/-- The verify read (R175) leaves the byte written, whatever its outcome. -/
theorem bodySetVerify_ends {old new : Byte} (h : Amid s a new u) : SetEnds a old new o w v (bodySetVerify a o w v u) := by
  have hrc : classOf a ≠ some .rc := by simp [ha]
  refine memRead_outcomes h (Amid.transient s a new) (mapped_of_classOf ha) (by decide) (by decide)
    (fun x hx => hx.readKept hrc) (fun x hx => .verifyRead hx.reg (hx.complete_result? _))
    (fun x hx => .hung (.inr hx.reg) hx.hang_result?) fun x hx => ?_
  have read := (Amid.transient s a new).freePtr (hx.readKept hrc)
  have latched := read.updCtl (f := fun c => { c with rb := some (x.reg a) }) fun _ hp => hp
  refine .verified latched.reg ?_
  rw [← hx.reg]
  exact latched.complete_result? _

/-- The write (R174) leaves the old byte or the new, and on success the new; then the verify read. -/
theorem bodySetWrite_ends (h : Amid s a (s.reg a) u) :
    SetEnds a (s.reg a) (s.written a (insertField (s.reg a) o w v)) o w v (bodySetWrite a o w v (s.reg a) u) := by
  have merged : Amid s a (s.reg a) ((u.enter .merge).latchNew (insertField (s.reg a) o w v)) :=
    ((Amid.transient s a _).enter u .merge (by decide) h).updCtl fun _ hp => hp
  have written : ∀ x, Amid s a (s.reg a) x → Amid s a (s.written a (insertField (s.reg a) o w v))
      (freePtr (x.setReg a (x.written a (insertField (s.reg a) o w v)))) := fun x hx =>
    hx.written _ ▸ hx.freePtr_setReg _
  exact memWrite_outcomes merged (Amid.transient s a _) (mapped_of_classOf ha)
    (fun x hx => .write (.inl hx.reg) (hx.complete_result? _)) (fun x hx => .hung (.inl hx.reg) hx.hang_result?)
    (fun x hx => .write (.inr (written x hx).reg) ((written x hx).complete_result? _))
    (fun x hx => .hung (.inr (written x hx).reg) (written x hx).hang_result?)
    fun x hx => bodySetVerify_ends ha (written x hx)

/-- The first read (R172) leaves the old byte and delivers it to the rest of the `SET`. -/
theorem bodySet_ends (h : Amid s a (s.reg a) u) :
    SetEnds a (s.reg a) (s.written a (insertField (s.reg a) o w v)) o w v (bodySet a o w v u) := by
  have hrc : classOf a ≠ some .rc := by simp [ha]
  refine memRead_outcomes h (Amid.transient s a _) (mapped_of_classOf ha) (by decide) (by decide)
    (fun x hx => hx.readKept hrc) (fun x hx => .firstRead hx.reg (hx.complete_result? _))
    (fun x hx => .hung (.inl hx.reg) hx.hang_result?) fun x hx => ?_
  have read := (Amid.transient s a _).freePtr (hx.readKept hrc)
  rw [hx.reg] at read ⊢
  exact bodySetWrite_ends ha (read.updCtl fun _ hp => hp)

end

/-! A whole `SET` -/

/-- No static check answers with a result of the datapath's (R221, R225). -/
theorem checkSet_kind {P : Params} {a : Byte} {o w : Nat} {v : Byte} {kind : ResultKind}
    (h : checkSet P a o w v = some kind) : kind ≠ .ok ∧ kind ≠ .verifyMismatch := by
  unfold checkSet at h
  split_ifs at h <;> cases h <;> decide

section
variable {s t : State} {c : Ctl} {a v : Byte} {o w : Nat}

/-- A `SET` that is accepted is refused by a static check, which touches neither register nor pointer, or ends as one that
passed them can (R187). -/
theorem exec_set_ends (hc : s.ctl? = some c) (hacc : c.accepts = true) (h : exec (.set a o w v) s = .next t) :
    (∃ kind, kind ≠ .ok ∧ kind ≠ .verifyMismatch ∧ t.regs = s.regs ∧ t.ptr = s.ptr ∧
      t.result? = some (errorResult kind .none)) ∨
    SetEnds a (s.reg a) (s.written a (insertField (s.reg a) o w v)) o w v t := by
  have accepted : (s.accept (encodeSet a o w v)).ctl? =
      some { Ctl.idle with phase := .check, cmd := some (encodeSet a o w v) } := by
    rw [State.accept_ctl?, hc]
    rfl
  rw [show exec (.set a o w v) s = _ from runCommand_accepts hc hacc] at h
  cases hcheck : checkSet s.params a o w v with
  | some kind =>
    rw [hcheck] at h
    cases h
    obtain ⟨hok, hmismatch⟩ := checkSet_kind hcheck
    exact .inl ⟨kind, hok, hmismatch, rfl, rfl, State.complete_result? accepted _⟩
  | none =>
    rw [hcheck] at h
    cases h
    obtain ⟨-, hrw, -⟩ := checkSet_none hcheck
    exact .inr (bodySet_ends hrw ⟨rfl, rfl, _, accepted, nofun⟩)

/-- A `SET`, accepted or not, leaves its register the old byte or the new. -/
theorem exec_set_oldOrNew (h : exec (.set a o w v) s = .next t) :
    t.reg a = s.reg a ∨ t.reg a = s.written a (insertField (s.reg a) o w v) := by
  rcases runCommand_cases _ _ _ s with ⟨-, e⟩ | ⟨c, -, -, e⟩ | ⟨c, hc, hacc, -⟩
  · cases e.symm.trans h
  · cases e.symm.trans h
    exact .inl rfl
  · rcases exec_set_ends hc hacc h with ⟨_, -, -, hregs, -, -⟩ | hends
    · exact .inl (congrArg (Memory.read · a.toNat) hregs)
    · exact hends.oldOrNew

/-! A `SET` whose frames succeed, as the state the next command starts from -/

theorem State.withCtl_ctl? (hc : s.ctl? = some c) (d : Ctl) : (s.withCtl d).ctl? = some d :=
  getElem?_set_of_getElem? hc d

theorem State.afterSet_ctl? (hc : s.ctl? = some c) (rest : List BusDraw) (word : CmdWord) :
    (s.afterSet rest word a o w v).ctl? = some (Ctl.finished word (some (s.reg a)) (some (insertField (s.reg a) o w v))
      (some (s.written a (insertField (s.reg a) o w v)))
      (verifyResult (extract (s.written a (insertField (s.reg a) o w v)) o w) v)) :=
  getElem?_set_of_getElem? hc _

theorem State.afterSet_reg (s : State) (rest : List BusDraw) (word : CmdWord) :
    (s.afterSet rest word a o w v).reg a = s.written a (insertField (s.reg a) o w v) :=
  reg_of_regs_write (s := s) rfl

/-- What a finished command shows is the result it ended with (R31). -/
theorem State.result?_finished {word : CmdWord} {cur new rb : Option Byte} {r : Result}
    (hc : s.ctl? = some (Ctl.finished word cur new rb r)) : s.result? = some r := by
  rw [State.result?, hc]
  rfl

/-- The field reads back as an in-range value written where the whole field is writable (R186). -/
theorem extract_written (hl : legalField o w = true)
    (hm : fieldMask o w &&& ~~~(writeMask s.params a) = 0) (hv : v ≤ maskGen w) :
    extract (s.written a (insertField (s.reg a) o w v)) o w = v := by
  rw [State.written, write_insertField hl hm, extract_insertField hl hv]

end

end Sys2Proof.Machine
end

section
/-! The statements of the field setter's family: `SET` with its frames `ok`, its failing frames, what it leaves in its
register and in the others, and the round trip with `GET` (43_field_set.md, R170 to R188). -/

namespace Sys2Proof.Machine

/-- Settles O24: `exec_set_ok`. -/
theorem setInsertsWritesAndVerifies : Obligations.SetInsertsWritesAndVerifies := fun _ _ _ _ _ _ hs ha hw how hv =>
  exec_set_ok hs ha ((legalField_iff _ _).mpr ⟨hw, how⟩) hv

/-- Settles O29: each command as its register accesses, which fail by `afterFrame_fail`. -/
theorem firstFailedFrameEndsTheCommand : Obligations.FirstFailedFrameEndsTheCommand := by
  intro s a o w v k applied rest hs hw how
  obtain ⟨c, hc, hacc⟩ := hs.1
  refine ⟨fun ha hk i hi => ?_, fun ha hk => ?_, fun ha hv hk => ?_⟩
  · obtain ⟨word, go, e⟩ := exec_readsOnly hc hacc ha hi
    obtain ⟨hb, hctl⟩ := memRead_fail (pointer := .rdPtr) (data := .rdData) (st := .firstRead) (a := a) (go := go)
      (hs.accept word) hk
    exact ⟨_, _, e, hb, hctl, rfl, rfl, rfl, rfl, rfl⟩
  · subst hk
    obtain ⟨hb, hctl⟩ : (bodyWrReg a v (s.accept (encodeWrReg a v))).FailsAs rest _ .write :=
      memWrite_fail ((hs.accept (encodeWrReg a v)).latchNew v)
    exact ⟨_, _, exec_wrReg_runs hc hacc ha v, hb, hctl, rfl, rfl, rfl, rfl⟩
  · have hl := (legalField_iff o w).mpr ⟨hw, how⟩
    obtain ⟨c', ⟨hb, hctl⟩, hrb, hlatches⟩ :=
      bodySet_fail (o := o) (w := w) (v := v) (hs.accept (encodeSet a o w v)) (mapped_of_classOf ha) hk
    exact ⟨_, _, exec_set_runs hc hacc hl ha hv, hb, hctl, rfl, hrb, hlatches, rfl⟩

/-- Settles O37: the register holds its old byte, or what the write left of that byte with the field inserted, and the two
agree outside the field. -/
theorem setPreservesOtherFields : Obligations.SetPreservesOtherFields := by
  intro s t a o w v hl h
  have outside : t.reg a &&& ~~~(fieldMask o w) = s.reg a &&& ~~~(fieldMask o w) := by
    rcases exec_set_oldOrNew h with e | e
    · rw [e]
    · rw [e]
      exact write_outside hl _ (insertField_outside hl _ _)
  exact ⟨outside, fun _ _ hl2 hd => extract_eq_of_outside_eq hl hl2 hd outside⟩

/-- Settles O38, by the ways in which an accepted `SET` can end (`exec_set_ends`); the result of a completed one by whether
the field read back is the value. -/
theorem setLeavesOldOrNewByteByResult : Obligations.SetLeavesOldOrNewByteByResult := by
  intro s t c a o w v r hc hacc h hr
  have shown : ∀ {x}, t.result? = some x → r = x := fun hx => Option.some.inj (hr.symm.trans hx)
  rcases exec_set_ends hc hacc h with ⟨kind, hok, hmismatch, hregs, hptr, hres⟩ | hends
  · obtain rfl := shown hres
    exact ⟨fun _ _ _ => ⟨congrArg (Memory.read · a.toNat) hregs, hptr⟩, nofun, nofun, nofun,
      fun hk => absurd hk hmismatch, fun hk => absurd hk hok⟩
  · cases hends with
    | hung _ hres => cases hr.symm.trans hres
    | firstRead hreg hres =>
      obtain rfl := shown hres
      exact ⟨fun _ _ hk => absurd rfl hk, fun _ => hreg, nofun, nofun, nofun, nofun⟩
    | write hreg hres =>
      obtain rfl := shown hres
      exact ⟨fun _ _ hk => absurd rfl hk, nofun, fun _ => hreg, nofun, nofun, nofun⟩
    | verifyRead hreg hres =>
      obtain rfl := shown hres
      exact ⟨fun _ _ hk => absurd rfl hk, nofun, nofun, fun _ => hreg, nofun, nofun⟩
    | verified hreg hres =>
      obtain rfl := shown hres
      unfold verifyResult
      split_ifs with hf
      · exact ⟨fun hk => absurd rfl hk, nofun, nofun, nofun, nofun, fun _ => ⟨hreg, hf, hf⟩⟩
      · exact ⟨fun _ hk => absurd rfl hk, nofun, nofun, nofun, fun _ => ⟨hreg, hf⟩, nofun⟩

/-- Settles O39: a register that a `SET` does not name it leaves (O34); a read-clear one that it names takes no write. -/
theorem setNeverConsumesEvents : Obligations.SetNeverConsumesEvents := by
  intro s t a b o w v hb h
  by_cases hab : b = a
  · subst hab
    rcases exec_set_oldOrNew h with e | e
    · exact e
    · exact e.trans (write_protected (by simp [hb]) _ _)
  · obtain ⟨hothers, -⟩ := commandsChangeOnlyTheNamedRegister s t (.set a o w v) a rfl h
    exact hothers b hab

/-- Settles O40: `exec_set_ok` leaves a state that serves `exec_get_ok`, and the field of its register is the value. -/
theorem setThenGetReturnsTheValue : Obligations.SetThenGetReturnsTheValue := by
  intro s a o w v rest hs ha hl hm hv
  obtain ⟨⟨c, hc, hacc⟩, ht, hb⟩ := hs
  have hfield := extract_written (s := s) (a := a) hl hm hv
  have hset := exec_set_ok (rest := .ok :: .ok :: rest) ⟨⟨c, hc, hacc⟩, ht, hb⟩ ha hl (.inr hv)
  have hctl := State.afterSet_ctl? (a := a) (o := o) (w := w) (v := v) hc (.ok :: .ok :: rest) (encodeSet a o w v)
  have hget := exec_get_ok (rest := rest) ⟨⟨_, hctl, rfl⟩, ht, rfl⟩ (mapped_of_classOf ha) hl
  rw [State.afterSet_reg, hfield] at hget
  have hctl' := State.withCtl_ctl? (s := (s.afterSet (.ok :: .ok :: rest) (encodeSet a o w v) a o w v).afterRead rest a)
    hctl (Ctl.finished (encodeGet a o w) (some (s.written a (insertField (s.reg a) o w v))) none none ⟨.ok, .none, v⟩)
  refine ⟨_, _, hset, ?_, rfl, hget, State.result?_finished hctl', rfl, ?_⟩
  · rw [State.result?_finished hctl, hfield, verifyResult, if_pos rfl]
  · rw [hctl']
    rfl

end Sys2Proof.Machine
end

section
/-! SUPPORT. The registers that a bus write leaves alone, of class `RC` and `RO`: which they are (R35, R37), what the event
source does to them (R204, R205), and everything a step can do to one. Then the two commands that meet them, `WR_REG` and a
read, with their frames `ok` (44_read_clear.md, R200 to R212). -/

namespace Sys2Proof.Machine

/-! Which they are -/

/-- A class is that of a row of the register map (R33). -/
theorem exists_row_of_classOf {a : Byte} {c : AccessClass} (h : classOf a = some c) :
    ∃ r ∈ registerMap, r.cls = c ∧ r.addr = a := by
  obtain ⟨r, hr, hc⟩ := Option.map_eq_some_iff.mp h
  exact ⟨r, List.mem_of_find?_eq_some hr, hc, by simpa using List.find?_some hr⟩

theorem classOf_rc_iff (a : Byte) : classOf a = some .rc ↔ a = 0x00 ∨ a = 0x01 ∨ a = 0x04 := by
  have rows : ∀ r ∈ registerMap, r.cls = .rc → r.addr = 0x00 ∨ r.addr = 0x01 ∨ r.addr = 0x04 := by decide
  constructor
  · intro h
    obtain ⟨r, hr, hc, rfl⟩ := exists_row_of_classOf h
    exact rows r hr hc
  · rintro (rfl | rfl | rfl) <;> rfl

theorem classOf_ro_iff (a : Byte) : classOf a = some .ro ↔ a = 0x02 ∨ a = 0x03 ∨ a = 0x05 ∨ a = 0x11 := by
  have rows : ∀ r ∈ registerMap, r.cls = .ro → r.addr = 0x02 ∨ r.addr = 0x03 ∨ r.addr = 0x05 ∨ r.addr = 0x11 := by
    decide
  constructor
  · intro h
    obtain ⟨r, hr, hc, rfl⟩ := exists_row_of_classOf h
    exact rows r hr hc
  · rintro (rfl | rfl | rfl | rfl) <;> rfl

theorem statusRegister_iff (a : Byte) : statusRegister a = true ↔ a = 0x02 ∨ a = 0x03 ∨ a = 0x05 := by
  simp only [statusRegister, Bool.or_eq_true, beq_iff_eq, or_assoc]

/-- The status registers are read-only ones (R35, R205). -/
theorem classOf_of_statusRegister {a : Byte} (h : statusRegister a = true) : classOf a = some .ro := by
  rw [classOf_ro_iff]
  rcases (statusRegister_iff a).mp h with h | h | h <;> simp [h]

/-! The event source's two turns -/

/-- `EVENT_SET` (R204): admitted for a read-clear register, refused for any other. -/
theorem step_eventSet {s : State} {a bits : Byte} {rest : List Turn} (ha : s.agenda = .eventSet a bits :: rest) :
    step s = if classOf a = some .rc then
      .next (({ s with agenda := rest } : State).setReg a (s.reg a ||| (bits &&& eventMask s.params a)))
    else .refused .eventNotAdmitted := by
  rw [step, ha]
  rfl

/-- `STATUS_UPD` (R205): admitted for a status register, refused for any other. -/
theorem step_statusUpd {s : State} {a v : Byte} {rest : List Turn} (ha : s.agenda = .statusUpd a v :: rest) :
    step s = if statusRegister a then .next (({ s with agenda := rest } : State).setReg a v)
    else .refused .statusNotAdmitted := by
  rw [step, ha]
  rfl

/-! What a step can do to a register that takes no bus write -/

/-- From `s` to `t`, one step, the register `a` has kept its byte, or is read-clear and was cleared by a read (R200), or took
the event source's bits (R204) or its byte (R205). -/
inductive ProtectedStep (a : Byte) (s t : State) : Prop where
  | kept (hreg : t.reg a = s.reg a)
  | cleared (hrc : classOf a = some .rc) (hreg : t.reg a = 0x00)
  | event (bits : Byte) (hturn : s.agenda.head? = some (.eventSet a bits)) (hrc : classOf a = some .rc)
      (hreg : t.reg a = s.reg a ||| (bits &&& eventMask s.params a))
  | status (hturn : s.agenda.head? = some (.statusUpd a (t.reg a))) (hstatus : statusRegister a = true)

theorem KeptOrCleared.protectedStep {a : Byte} {s t : State} (h : KeptOrCleared a s t) : ProtectedStep a s t := by
  rcases h with hkept | ⟨hrc, hzero⟩
  · exact .kept hkept
  · exact .cleared hrc hzero

section
variable {a : Byte} (ha : classOf a ≠ some .rw) {s t : State}
include ha

/-- A bus write leaves it (R35, R37). -/
theorem KeptOrCleared.effectW2 {u : State} (hu : KeptOrCleared a s u) (p v : Byte) :
    KeptOrCleared a s (effectW2 p v u).2 :=
  hu.trans (.inl (effectW2_reg_protected ha p v u))

variable {u : State}

theorem runWord_keptOrCleared {w : CmdWord} (h : runWord w u = .next t) (hu : KeptOrCleared a s u) :
    KeptOrCleared a s t :=
  runWord_keeps (.keptOrCleared a s) h hu (fun _ _ hv => hv) (fun v hv => hv.trans (effectR1_keptOrCleared a v))
    fun p v _ hv => hv.effectW2 ha p v

theorem sequencerStep_keptOrCleared (h : sequencerStep u = .next t) (hu : KeptOrCleared a s u) : KeptOrCleared a s t :=
  sequencerStep_keeps (Private.keptOrCleared a s).sequenced h hu (fun _ _ hv => hv)
    (fun v hv => hv.trans (effectR1_keptOrCleared a v)) fun v _ _ w _ _ _ hv => hv.effectW2 ha (cmdAddr w) v

theorem runTransaction_keptOrCleared {x : Transaction} (h : runTransaction x u = .next t) (hu : KeptOrCleared a s u) :
    KeptOrCleared a s t :=
  runTransaction_keeps (.keptOrCleared a s) h hu (fun _ _ hv => hv) (fun _ _ _ _ hv => hv)
    (fun _ _ v hv => hv.trans (effectR1_keptOrCleared a v)) fun _ p v _ _ hv => hv.effectW2 ha p v

/-- Everything a step can do to it: a turn of a controller, a requester or the bus can only clear it by a read, the event
source's turns do what R204 and R205 say to the register they name. -/
theorem step_protectedStep (h : step s = .next t) : ProtectedStep a s t := by
  cases hag : s.agenda with
  | nil =>
    rw [step, hag] at h
    cases h
    exact .kept rfl
  | cons x rest =>
    have hturn : takeTurn x { s with agenda := rest } = .next t := by rwa [step, hag] at h
    cases x with
    | command i w => exact (runWord_keptOrCleared ha hturn (.refl a s)).protectedStep
    | phase i => exact (sequencerStep_keptOrCleared ha hturn (.refl a s)).protectedStep
    | frame x => exact (runTransaction_keptOrCleared ha hturn (.refl a s)).protectedStep
    | present i w | take i =>
      obtain ⟨f, rfl⟩ := step_withoutFrame hag rfl rfl h
      exact .kept rfl
    | eventSet b bits =>
      rw [step_eventSet hag] at h
      split_ifs at h with hrc
      cases h
      by_cases hab : a = b
      · subst hab
        exact .event bits (by rw [hag]; rfl) hrc (by rw [State.setReg_reg, if_pos rfl])
      · exact .kept (by rw [State.setReg_reg, if_neg hab]; rfl)
    | statusUpd b v =>
      rw [step_statusUpd hag] at h
      split_ifs at h with hst
      cases h
      by_cases hab : a = b
      · subst hab
        exact .status (by rw [hag, State.setReg_reg, if_pos rfl]; rfl) hst
      · exact .kept (by rw [State.setReg_reg, if_neg hab]; rfl)

end

/-- A read-only register changes only on a `STATUS_UPD` of it, which is admitted for the status registers (R35, R205). -/
theorem step_readOnly {a : Byte} {s t : State} (ha : classOf a = some .ro) (h : step s = .next t)
    (hne : t.reg a ≠ s.reg a) :
    s.agenda.head? = some (.statusUpd a (t.reg a)) ∧ statusRegister a = true := by
  have hnotrw : classOf a ≠ some .rw := by simp [ha]
  have hnotrc : classOf a ≠ some .rc := by simp [ha]
  cases step_protectedStep hnotrw h with
  | kept hreg => exact absurd hreg hne
  | cleared hrc _ => exact absurd hrc hnotrc
  | event _ _ hrc _ => exact absurd hrc hnotrc
  | status hturn hstatus => exact ⟨hturn, hstatus⟩

/-! The commands that meet them, with their frames `ok` -/

/-- A successful write to a register that takes none leaves every register (R66). -/
theorem State.afterWrite_reg_protected {a : Byte} (ha : classOf a ≠ some .rw) (s : State) (rest : List BusDraw)
    (v b : Byte) : (s.afterWrite rest a v).reg b = s.reg b := by
  show (s.setReg a (s.written a v)).reg b = s.reg b
  rw [State.setReg_reg]
  split_ifs with hb
  · rw [hb, State.written, write_protected ha]
  · rfl

/-- A successful read of a read-clear register leaves it 0x00 (R200). -/
theorem State.afterRead_reg_rc {a : Byte} (ha : classOf a = some .rc) (s : State) (rest : List BusDraw) :
    (s.afterRead rest a).reg a = 0x00 :=
  (reg_of_regs_write (s := s) rfl).trans (read_clears ha _)

theorem extract_zero (o w : Nat) : extract 0x00 o w = 0x00 := by
  simp [extract]

/-- A command that only reads, its two frames `ok`, answers `OK`; of a register that holds 0x00 it delivers 0x00, whole byte
or field (R125, R160). -/
theorem exec_readsOnly_ok {s : State} {a : Byte} {i : Instr} {rest : List BusDraw} (hs : s.Serves 2 rest)
    (ha : mapped a = true) (hi : readsOnly a i) :
    ∃ w data, (s.reg a = 0x00 → data = 0x00) ∧ exec i s = .next ((s.afterRead rest a).withCtl
      (Ctl.finished w (some (s.reg a)) none none ⟨.ok, .none, data⟩)) := by
  rcases hi with rfl | ⟨o, w, hl, rfl⟩
  · exact ⟨_, s.reg a, id, rdRegReturnsTheRegister s a rest hs ha⟩
  · exact ⟨_, _, fun hz => by rw [hz, extract_zero], exec_get_ok hs ha hl⟩

end Sys2Proof.Machine
end

section
/-! The statements of the read-clear family: the writes that protected registers ignore, the reads that clear, and the event
source (44_read_clear.md, R200 to R212). -/

namespace Sys2Proof.Machine

/-- Settles O36: `WR_REG` runs to its end (O22), and its write leaves every register, the one it names taking none. -/
theorem writeToProtectedRegisterIsIgnored : Obligations.WriteToProtectedRegisterIsIgnored := by
  refine ⟨classOf_ro_iff, fun s a v rest hs ha => ?_⟩
  have hclass : classOf a = some .rc ∨ classOf a = some .ro := ha.imp (classOf_rc_iff a).mpr (classOf_ro_iff a).mpr
  have hprotected : classOf a ≠ some .rw := by rcases hclass with h | h <;> simp [h]
  have hmapped : mapped a = true := hclass.elim mapped_of_classOf mapped_of_classOf
  obtain ⟨c, hc, -⟩ := hs.1
  refine ⟨_, wrRegWritesTheRegister s a v rest hs hmapped, ?_, fun b => ?_⟩
  · exact State.result?_finished (State.withCtl_ctl? (s := s.afterWrite rest a v) hc _)
  · exact State.afterWrite_reg_protected hprotected s rest v b

/-- Settles O41: the first read leaves 0x00 and a controller in `DONE`, from which the second finds 0x00. -/
theorem secondReadOfReadClearIsZero : Obligations.SecondReadOfReadClearIsZero := by
  intro s a i j rest hs ha hi hj
  have hrc : classOf a = some .rc := (classOf_rc_iff a).mpr ha
  have hmapped := mapped_of_classOf hrc
  obtain ⟨⟨c, hc, hacc⟩, htarget, hbus⟩ := hs
  obtain ⟨w, data, -, hfirst⟩ := exec_readsOnly_ok (rest := .ok :: .ok :: rest) ⟨⟨c, hc, hacc⟩, htarget, hbus⟩ hmapped hi
  have hdone := State.withCtl_ctl? (s := s.afterRead (.ok :: .ok :: rest) a) hc
    (Ctl.finished w (some (s.reg a)) none none ⟨.ok, .none, data⟩)
  have hzero := State.afterRead_reg_rc hrc s (.ok :: .ok :: rest)
  obtain ⟨w', data', hdata, hsecond⟩ := exec_readsOnly_ok (rest := rest) ⟨⟨_, hdone, rfl⟩, htarget, rfl⟩ hmapped hj
  obtain rfl := hdata hzero
  have hresult := State.withCtl_ctl? (s := (State.withCtl _ _).afterRead rest a) hdone
  exact ⟨_, _, hfirst, hzero, hsecond, State.result?_finished (hresult _)⟩

/-- Settles O44: of what a step can do to a read-clear register (`step_protectedStep`) only the OR of an event's bits makes a
bit 1, and then the bit is one of them. -/
theorem onlyEventSetRaisesEventBits : Obligations.OnlyEventSetRaisesEventBits := by
  intro s t a j h hrc hbefore hafter
  have hprotected : classOf a ≠ some .rw := by simp [hrc]
  cases step_protectedStep hprotected h with
  | kept hreg => simp [hreg, hbefore] at hafter
  | cleared _ hreg => simp [hreg] at hafter
  | event bits hturn _ hreg =>
    rw [hreg, BitVec.getLsbD_or, hbefore, Bool.false_or, BitVec.getLsbD_and, Bool.and_eq_true] at hafter
    exact ⟨bits, hturn, hafter.1⟩
  | status _ hstatus => simp [classOf_of_statusRegister hstatus] at hrc

/-- Settles O45: `step_readOnly`; the Chip ID is no status register. -/
theorem chipIdNeverChanges : Obligations.ChipIdNeverChanges := by
  intro s t h
  refine ⟨fun a ha hne => (step_readOnly ha h hne).1, ?_⟩
  by_contra hne
  have hstatus := (step_readOnly (a := 0x11) rfl h hne).2
  exact absurd hstatus (by decide)

/-- Settles O42: `EVENT_SET` is admitted for the three, which are those of class `RC`. -/
theorem eventSetOrsBits : Obligations.EventSetOrsBits := by
  refine ⟨classOf_rc_iff, fun s a bits rest hag ha => ?_⟩
  rw [step_eventSet hag, if_pos ((classOf_rc_iff a).mpr ha)]
  rfl

/-- Settles O43: `STATUS_UPD` is admitted for the three. -/
theorem statusUpdReplacesTheByte : Obligations.StatusUpdReplacesTheByte := by
  intro s a v rest hag ha
  rw [step_statusUpd hag, if_pos ((statusRegister_iff a).mpr ha)]
  rfl

end Sys2Proof.Machine
end

section
/-! SUPPORT. What is turned away: a command that fails a static check, by the check that fails (R225), and a turn that the spec
does not admit (R61, R204, R205, R243). -/

namespace Sys2Proof.Machine

/-! The static checks, one that fails after those that pass -/

/-- The mapped addresses are those of class `RC`, `RO` and `RW` (R33, R35 to R37). -/
theorem mapped_iff (a : Byte) : mapped a = true ↔
    a ∈ [0x00, 0x01, 0x04] ∨ a ∈ [0x02, 0x03, 0x05, 0x11] ∨ a ∈ readWriteRegisters := by
  have hrc : classOf a = some .rc ↔ a ∈ [0x00, 0x01, 0x04] := by simpa using classOf_rc_iff a
  have hro : classOf a = some .ro ↔ a ∈ [0x02, 0x03, 0x05, 0x11] := by simpa using classOf_ro_iff a
  rw [mapped, Option.isSome_iff_exists, ← hrc, ← hro, ← classOf_rw_iff]
  constructor
  · rintro ⟨_ | _ | _, h⟩
    · exact .inr (.inl h)
    · exact .inr (.inr h)
    · exact .inl h
  · rintro (h | h | h) <;> exact ⟨_, h⟩

theorem checkAddress_unmapped {a : Byte} (ha : mapped a = false) : checkAddress a = some .unmappedAddress := by
  simp [checkAddress, ha]

section
variable {a : Byte} {o w : Nat}

theorem checkGet_illegal (hl : legalField o w = false) : checkGet a o w = some .invalidDescriptor := by
  simp [checkGet, hl]

theorem checkGet_unmapped (hl : legalField o w = true) (ha : mapped a = false) :
    checkGet a o w = some .unmappedAddress := by
  rw [checkGet, if_pos hl, checkAddress_unmapped ha]

variable {P : Params} {v : Byte}

theorem checkSet_illegal (hl : legalField o w = false) : checkSet P a o w v = some .invalidDescriptor := if_pos hl

theorem checkSet_unmapped (hl : legalField o w = true) (ha : mapped a = false) :
    checkSet P a o w v = some .unmappedAddress := by
  simp [checkSet, hl, ha]

theorem checkSet_protected (hl : legalField o w = true) (ha : mapped a = true) (hclass : classOf a ≠ some .rw) :
    checkSet P a o w v = some .invalidAccess := by
  simp [checkSet, hl, ha, hclass]

theorem checkSet_outOfRange (hl : legalField o w = true) (ha : classOf a = some .rw) (hp : P.rangePolicy = .reject)
    (hv : maskGen w < v) : checkSet P a o w v = some .invalidFieldValue := by
  have hrange : inRange v w = false := decide_eq_false (BitVec.not_le.mpr hv)
  simp [checkSet, hl, mapped_of_classOf ha, ha, hp, hrange]

end

/-- A command that fails a static check ends in `DONE` with its kind, and no frame was issued (R226, R227). -/
theorem runCommand_failed {s : State} {c : Ctl} (hc : s.ctl? = some c) (hacc : c.accepts = true) {w : CmdWord}
    {failed : Option ResultKind} {kind : ResultKind} (hf : failed = some kind) (body : State → State) :
    runCommand w failed body s = .next (s.withCtl (Ctl.finished w none none none ⟨kind, .none, 0x00⟩)) := by
  rw [hf, runCommand_accepts hc hacc]
  exact congrArg _ (s.accept_raise w kind)

/-! Turns that are not admitted -/

/-- A turn that the spec does not admit is refused, in every state (log 18). -/
theorem step_notAdmitted {s : State} {x : Turn} {rest : List Turn} (ha : s.agenda = x :: rest)
    (hx : x.admitted s.ctls.length = false) : ∃ r, step s = .refused r := by
  have noCtl : ∀ {i}, ¬ i < s.ctls.length → (({ s with agenda := rest } : State).turnOf i).ctl? = none := fun hi =>
    List.getElem?_eq_none (Nat.le_of_not_lt hi)
  rw [step, ha]
  cases x <;> simp only [Turn.admitted, decide_eq_false_iff_not, beq_eq_false_iff_ne] at hx <;> simp only [takeTurn]
  case command i w => exact ⟨_, runWord_noController (noCtl hx) w⟩
  case present i w => exact ⟨.noController, by simp only [presentCommand, noCtl hx]⟩
  case phase i => exact ⟨.noController, by simp only [sequencerStep, noCtl hx]⟩
  case take i => exact ⟨.noController, by simp only [takeResult, noCtl hx]⟩
  case frame x =>
    cases hd : decodeTransaction x with
    | ok i => simp [hd] at hx
    | error r => exact ⟨.frameLength, by simp only [runTransaction, hd]⟩
  case eventSet a bits => exact ⟨_, if_neg hx⟩
  case statusUpd a v => exact ⟨_, if_neg (Bool.eq_false_iff.mp hx)⟩

/-- No turn ends in a fault under the invariant: an admitted one answers a next state, any other is refused (R234). -/
theorem step_ne_fault {s : State} (hs : s.Inv) (r : Fault) : step s ≠ .fault r := by
  cases ha : s.agenda with
  | nil => simp [step, ha]
  | cons x rest =>
    cases hx : x.admitted s.ctls.length with
    | true =>
      obtain ⟨t, e⟩ := step_admitted hs ha hx
      simp [e]
    | false =>
      obtain ⟨q, e⟩ := step_notAdmitted ha hx
      simp [e]

end Sys2Proof.Machine
end

section
/-! The statements of the exceptions' family: the static checks in their order, and no state without a meaning
(60_exceptions.md, R220 to R234). -/

namespace Sys2Proof.Machine

/-- Settles O27: the addresses by their classes (`mapped_iff`); each refused command by the check it fails. -/
theorem staticChecksRefuseInOrder : Obligations.StaticChecksRefuseInOrder := by
  refine ⟨mapped_iff, fun s c a o w v hc hacc => ?_⟩
  have legal : 1 ≤ w ∧ o + w ≤ 8 → legalField o w = true := (legalField_iff o w).mpr
  refine ⟨fun ha => ?_, fun hfield => ?_, fun hfield ha => ?_, fun hfield hclass => ?_, fun hfield ha hp hv => ?_⟩
  · exact ⟨runCommand_failed hc hacc (checkAddress_unmapped ha) _, runCommand_failed hc hacc (checkAddress_unmapped ha) _⟩
  · have hl : legalField o w = false := Bool.eq_false_iff.mpr (mt (legalField_iff o w).mp hfield)
    exact ⟨runCommand_failed hc hacc (checkGet_illegal hl) _, runCommand_failed hc hacc (checkSet_illegal hl) _⟩
  · have hl := legal hfield
    exact ⟨runCommand_failed hc hacc (checkGet_unmapped hl ha) _, runCommand_failed hc hacc (checkSet_unmapped hl ha) _⟩
  · have hmapped : mapped a = true := hclass.elim mapped_of_classOf mapped_of_classOf
    have hprotected : classOf a ≠ some .rw := by rcases hclass with h | h <;> simp [h]
    exact runCommand_failed hc hacc (checkSet_protected (legal hfield) hmapped hprotected) _
  · exact runCommand_failed hc hacc (checkSet_outOfRange (legal hfield) ha hp hv) _

/-- Settles O55: `step_ne_fault`, and `step_admitted` on the head of the agenda. -/
theorem noFaultUnderTheInvariant : Obligations.NoFaultUnderTheInvariant := by
  refine fun s hs => ⟨step_ne_fault hs, fun x hx hadm => ?_⟩
  obtain ⟨rest, ha⟩ := List.head?_eq_some_iff.mp hx
  exact step_admitted hs ha hadm

end Sys2Proof.Machine
end

section
/-! SUPPORT. Reset: a canonical `RESET` becomes the register list as it stands (R46, R250), and the invariant holds of every
reset state. -/

namespace Sys2Proof.Machine

/-- A cell with the highest address goes to the end of the list. -/
theorem Memory.place_highest {m : List Host.Cell} {n : Nat} {v : Byte} (h : ∀ c ∈ m, c.1 < n) :
    Memory.place n v m = m ++ [(n, v)] := by
  induction m with
  | nil => rfl
  | cons d m ih =>
    obtain ⟨hd, hm⟩ := List.forall_mem_cons.mp h
    rw [Memory.place, if_neg (Nat.not_lt_of_gt hd), ih hm, List.cons_append]

/-- Writing a listable byte at the highest address adds its cell at the end. -/
theorem Memory.write_highest {m : List Host.Cell} {n : Nat} {v : Byte} (h : ∀ c ∈ m, c.1 < n) (hv : v ≠ unlistedByte) :
    Memory.write m n v = m ++ [(n, v)] := by
  have he : Memory.erase m n = m := List.filter_eq_self.mpr fun c hc => by simpa using Nat.ne_of_lt (h c hc)
  rw [Memory.write, if_neg hv, he, Memory.place_highest h]

/-- A canonical list written cell by cell over empty cells is itself (R21, R46). -/
theorem Memory.ofCells_of_wf {m : List Host.Cell} (h : Memory.wf m) : Memory.ofCells m = m := by
  induction m using List.reverseRecOn with
  | nil => rfl
  | append_singleton m c ih =>
    obtain ⟨hsorted, hcells⟩ := h
    obtain ⟨hs, -, hlast⟩ := List.pairwise_append.mp hsorted
    obtain ⟨hlt, hmapped, hv⟩ := hcells c (by simp)
    have hm : Memory.ofCells m = m := ih ⟨hs, fun d hd => hcells d (by simp [hd])⟩
    calc Memory.ofCells (m ++ [c]) = Memory.write (Memory.ofCells m) c.1 c.2 := by
          simp [Memory.ofCells, List.foldl_append, hmapped, hlt]
      _ = m ++ [c] := by rw [hm, Memory.write_highest (fun d hd => hlast d hd c (by simp)) hv]

/-- The invariant after reset: `N_CTL` idle controllers, at least one of them, and a canonical register list. -/
theorem State.resetWith_inv {P : Params} (h : legalParams P = true) (p : Byte) : (State.resetWith P p).Inv where
  regsWf := Memory.wf_ofCells P.reset
  paramsLegal := h
  controllers := List.length_replicate
  curExists := by
    simp only [legalParams, Bool.and_eq_true, Bool.not_eq_true', List.isEmpty_eq_false_iff] at h
    obtain ⟨⟨-, hne⟩, -⟩ := h
    simpa [State.resetWith] using List.length_pos_iff.mpr hne
  consistent c hc := by
    rw [List.eq_of_mem_replicate hc]
    rfl

end Sys2Proof.Machine
end

section
/-! The statements of the reset's family: no parameter ever changes, what reset leaves, the invariant after reset
(70_reset_and_hazards.md, R250 to R254). -/

namespace Sys2Proof.Machine

/-- Settles O51: whatever a step changes, the parameters are none of it (`step_keeps`). -/
theorem parametersNeverChange : Obligations.ParametersNeverChange := fun s _ h =>
  step_keeps (P := fun u => u.params = s.params) ⟨fun _ _ hu => hu, fun _ _ _ hu => hu⟩ h rfl (fun _ _ hu => hu)
    (fun _ _ hu => hu) (fun _ _ hu => hu) (fun _ _ hu => hu) (fun _ _ _ hu => hu) (fun _ _ _ _ hu => hu)
    (fun _ _ _ _ _ hu => hu) fun _ _ _ _ hu => hu

/-- Settles O52: the register list is the canonical `RESET` itself; the rest is what reset is. -/
theorem resetLeavesTheResetValues : Obligations.ResetLeavesTheResetValues := fun _ _ hwf =>
  ⟨fun a => congrArg (Memory.read · a.toNat) (Memory.ofCells_of_wf hwf), rfl, rfl, rfl⟩

/-- Settles O53: `State.reset` is reset with the default parameters, which are legal. -/
theorem resetMeetsTheInvariant : Obligations.ResetMeetsTheInvariant :=
  ⟨fun _ p h => State.resetWith_inv h p, State.resetWith_inv (P := defaultParams) (by decide) 0x00⟩

end Sys2Proof.Machine
end

section
/-! SUPPORT. Commands of two controllers whose register accesses fall between each other (R84, R260 to R266): the turns of
one access taken together, by what they depend on and what they change. -/

namespace Sys2Proof.Machine

/-- A run is its first step and the rest. -/
theorem stepN_of_step {n : Nat} {s t : State} {x : Answer} (h : step s = .next t) (hx : stepN n t = x) :
    stepN (n + 1) s = x :=
  (stepN_succ h n).trans hx

theorem stepN_one {s t : State} (h : step s = .next t) : stepN 1 s = .next t :=
  stepN_of_step h rfl

/-- A run in two parts. -/
theorem stepN_add {m n : Nat} {s t : State} {x : Answer} (h : stepN m s = .next t) (hx : stepN n t = x) :
    stepN (m + n) s = x := by
  induction m generalizing s with
  | zero =>
    cases h
    rw [Nat.zero_add, hx]
  | succ m ih =>
    rw [stepN] at h
    rw [Nat.add_right_comm]
    cases e : step s with
    | next u =>
      rw [e] at h
      exact stepN_of_step e (ih h)
    | fault r => rw [e] at h; cases h
    | refused r => rw [e] at h; cases h

theorem encodeRdReg_opcode (a : Byte) : opcodeOf (cmdOp (encodeRdReg a)) = .rdReg := by
  rw [encodeRdReg, cmdOp_cmdWord, opcodeOf_bits]

/-- The turns of a command that reads, to the end of its pointer frame: accepted, checked, the pointer set (R27, R64). -/
theorem stepN_pointerFrame {s : State} {i : Nat} {w : CmdWord} {j : Instr} {turns : List Turn} {bus : List BusDraw}
    (ha : s.agenda = .present i w :: .phase i :: .phase i :: turns) (hc : s.ctls[i]? = some Ctl.idle)
    (ht : s.params.targetDev.getD i primaryDevAddr = s.params.devAddr) (hb : s.bus = .ok :: bus)
    (hd : decodeCore w = .ok j) (hs : staticCheck s.params j = none) (ho : opcodeOf (cmdOp w) ≠ .wrReg) :
    stepN 3 s = .next { s with
      agenda := turns, cur := i, bus := bus, ptr := cmdAddr w,
      ctls := s.ctls.set i (Ctl.underWay w .rdData none none none) } := by
  have set := fun d => getElem?_set_of_getElem? hc d
  refine stepN_of_step (step_present ha hc rfl rfl) ?_
  refine stepN_of_step (PhaseTurn.check ⟨rfl, set _, rfl, rfl, ht⟩ rfl hd hs ho) ?_
  rw [List.set_set]
  refine stepN_of_step (PhaseTurn.rdPtr ⟨rfl, set _, rfl, rfl, ht⟩ hb rfl ho) ?_
  rw [List.set_set]
  rfl

/-- A controller whose `RD_REG` of register `a` has set the pointer and comes to its data frame (R27). -/
def Ctl.pointed (a : Byte) : Ctl := Ctl.underWay (encodeRdReg a) .rdData none none none

/-- The turns of `RD_REG` of a mapped register to the end of its pointer frame (R125). -/
theorem stepN_rdRegPointer {s : State} {i : Nat} {a : Byte} {turns : List Turn} {bus : List BusDraw}
    (hagenda : s.agenda = .present i (encodeRdReg a) :: .phase i :: .phase i :: turns)
    (hc : s.ctls[i]? = some Ctl.idle) (ht : s.params.targetDev.getD i primaryDevAddr = s.params.devAddr)
    (hb : s.bus = .ok :: bus) (ha : mapped a = true) :
    stepN 3 s = .next { s with
      agenda := turns, cur := i, bus := bus, ptr := a, ctls := s.ctls.set i (Ctl.pointed a) } := by
  rw [stepN_pointerFrame hagenda hc ht hb (decodeCore_encodeRdReg a) (if_pos ha)
    (by rw [encodeRdReg_opcode]; decide), Ctl.pointed, encodeRdReg, cmdAddr_cmdWord]

/-- The pointer frames of two reads, one after the other: the pointer is where the second one set it (R266). -/
theorem stepN_twoPointers {s : State} {a b : Byte} {turns : List Turn} {bus : List BusDraw}
    (hctls : s.ctls = [Ctl.idle, Ctl.idle]) (ht0 : s.params.targetDev.getD 0 primaryDevAddr = s.params.devAddr)
    (ht1 : s.params.targetDev.getD 1 primaryDevAddr = s.params.devAddr) (hb : s.bus = .ok :: .ok :: bus)
    (hma : mapped a = true) (hmb : mapped b = true)
    (hagenda : s.agenda = .present 0 (encodeRdReg a) :: .phase 0 :: .phase 0 ::
      .present 1 (encodeRdReg b) :: .phase 1 :: .phase 1 :: turns) :
    stepN 6 s = .next { s with
      agenda := turns, cur := 1, bus := bus, ptr := b, ctls := [Ctl.pointed a, Ctl.pointed b] } := by
  refine stepN_add (n := 3) (stepN_rdRegPointer hagenda (by rw [hctls]; rfl) ht0 hb hma) ?_
  rw [hctls]
  exact Eq.trans (stepN_rdRegPointer rfl rfl ht1 rfl hmb) rfl

/-- `RD_DATA` of `RD_REG` wherever the pointer is, its frame `ok`: the controller ends with `OK` and the byte delivered. -/
theorem PhaseTurn.rdData_rdReg_anywhere {u : State} {i : Nat} {rest : List Turn} {c : Ctl} {w : CmdWord}
    {bus : List BusDraw} (h : PhaseTurn u i rest c w) (hb : u.bus = .ok :: bus) (hp : c.phase = .rdData)
    (ho : opcodeOf (cmdOp w) = .rdReg) : ∃ t d, Machine.step u = .next t ∧
      t.ctls = u.ctls.set i { c with phase := .done, cur := some d, res := some ⟨.ok, .none, d⟩ } := by
  let v : State := { u with agenda := rest, cur := i, bus := bus }
  let d := (effectR1 v).1
  obtain ⟨hctls, hcur, -⟩ := effectR1_change v
  have run : Machine.step u = .next (((effectR1 v).2.latchCur d).complete (okResult d)) := by
    rw [h.step (by rw [hp]; decide) (by rw [hp]; decide), hp]
    simp only [phaseWithCommand, phaseRdData, ho, frameR1, h.frame hb]
    rfl
  refine ⟨_, d, run, ?_⟩
  simp only [State.latchCur, State.complete, State.updCtl, hctls, hcur]
  simp only [v, ctls_modify h.ctl, ctls_set_modify]
  rfl

/-! `SET`s of one register -/

/-- The whole byte of a register that every bus write reaches is the byte written (R66). -/
theorem write_wholeByte {P : Params} {a : Byte} (hm : writeMask P a = 0xFF) (b v : Byte) :
    (b &&& ~~~(writeMask P a)) ||| (v &&& writeMask P a) = v := by
  rw [hm, show (0xFF : Byte) = BitVec.allOnes 8 from rfl, BitVec.not_allOnes, BitVec.and_zero, BitVec.zero_or,
    BitVec.and_allOnes]

/-- The controllers after a `SET` whose five frames succeeded: the one whose turn it was has finished. -/
theorem State.afterSet_ctls (s : State) (rest : List BusDraw) (word : CmdWord) (a : Byte) (o w : Nat) (v : Byte) :
    (s.afterSet rest word a o w v).ctls = s.ctls.set s.cur (Ctl.finished word (some (s.reg a))
      (some (insertField (s.reg a) o w v)) (some (s.written a (insertField (s.reg a) o w v)))
      (verifyResult (extract (s.written a (insertField (s.reg a) o w v)) o w) v)) := rfl

/-- Controller `i` is given a `SET` of an in-range value, to a field of a fully writable `RW` register, and its handle names
the register file. -/
structure Setter (P : Params) (a : Byte) (i o w : Nat) (v : Byte) : Prop where
  target : P.targetDev.getD i primaryDevAddr = P.devAddr
  rw : classOf a = some .rw
  mask : writeMask P a = 0xFF
  field : legalField o w = true
  inRange : v ≤ maskGen w

/-- What the turns of setters of register `a` depend on and change: the turns to come, the outcomes fixed for the frames,
the register's byte and the controllers. -/
structure Snapshot (P : Params) (a : Byte) (turns : List Turn) (bus : List BusDraw) (b : Byte) (cs : List Ctl)
    (u : State) : Prop where
  params : u.params = P
  agenda : u.agenda = turns
  bus : u.bus = bus
  reg : u.reg a = b
  ctls : u.ctls = cs

section
variable {P : Params} {a : Byte} {i o w : Nat} {v : Byte} (hset : Setter P a i o w v) {turns : List Turn}
  {bus : List BusDraw} {b : Byte} {cs : List Ctl} {u : State}
include hset

/-- The verify of a field that holds the value requested ends with `OK` (R178). -/
theorem Setter.verifyResult_insertField (b : Byte) :
    verifyResult (extract (insertField b o w v) o w) v = ⟨.ok, .none, v⟩ := by
  rw [extract_insertField hset.field hset.inRange, verifyResult, if_pos rfl]

theorem Setter.isMapped : mapped a = true := mapped_of_classOf hset.rw

theorem Setter.decodes : decodeCore (encodeSet a o w v) = .ok (.set a o w v) :=
  decodeCore_encodeSet a ((descriptorLegal_eq_legalField o w).trans hset.field) v

/-- A read of the register clears nothing (R68). -/
theorem Setter.readKeeps (b : Byte) : b &&& ~~~(readClearMask a) = b :=
  read_keeps (by rw [hset.rw]; decide) b

/-- The first access of a `SET`, its frames `ok`: the byte of the register is in `CUR` (R172). -/
theorem Setter.firstRead (hc : cs[i]? = some Ctl.idle)
    (h : Snapshot P a (.present i (encodeSet a o w v) :: .phase i :: .phase i :: .phase i :: turns) (.ok :: .ok :: bus)
      b cs u) : ∃ t, stepN 4 u = .next t ∧
      Snapshot P a turns bus b (cs.set i (Ctl.underWay (encodeSet a o w v) .merge (some b) none none)) t := by
  obtain ⟨rfl, ha, hb, rfl, rfl⟩ := h
  obtain ⟨hop, haddr, -⟩ := encodeSet_fields hset.field a v
  have pointer := stepN_pointerFrame ha hc hset.target hb hset.decodes
    (checkSet_eq_none hset.field hset.rw (.inr hset.inRange)) (by rw [hop]; decide)
  rw [haddr] at pointer
  refine ⟨_, stepN_add pointer (stepN_one (PhaseTurn.rdData_set ⟨rfl, getElem?_set_of_getElem? hc _, rfl, rfl,
    hset.target⟩ rfl rfl hop hset.isMapped)), rfl, rfl, rfl, ?_, ?_⟩
  · exact (reg_of_regs_write rfl).trans (hset.readKeeps _)
  · exact List.set_set _

/-- The write access of a `SET`, its frame `ok`: the register holds the byte made of the one in `CUR`, whatever it held
before (R173, R174, R183). -/
theorem Setter.write {x : Byte} (hc : cs[i]? = some (Ctl.underWay (encodeSet a o w v) .merge (some x) none none))
    (h : Snapshot P a (.phase i :: .phase i :: turns) (.ok :: bus) b cs u) : ∃ t, stepN 2 u = .next t ∧
      Snapshot P a turns bus (insertField x o w v)
        (cs.set i (Ctl.underWay (encodeSet a o w v) .vfPtr (some x) (some (insertField x o w v)) none)) t := by
  obtain ⟨rfl, ha, hb, rfl, rfl⟩ := h
  obtain ⟨hop, haddr, ho, hw, hv⟩ := encodeSet_fields hset.field a v
  have merge := PhaseTurn.merge ⟨ha, hc, rfl, rfl, hset.target⟩ rfl hop rfl (by rw [ho, hw]; exact hset.field)
  rw [ho, hw, hv] at merge
  refine ⟨_, stepN_of_step merge (stepN_one (PhaseTurn.wrFrame_set ⟨rfl, getElem?_set_of_getElem? hc _, rfl, rfl,
    by exact hset.target⟩ (by exact hb) rfl hop rfl (by rw [haddr]; exact hset.isMapped))), rfl, rfl, rfl, ?_, ?_⟩
  · refine reg_of_regs_write (s := u) ?_
    simp only [haddr, write_wholeByte hset.mask]
  · exact List.set_set _

/-- The verify access of a `SET`, its frames `ok`: the result is that of the field the register holds by then (R175). -/
theorem Setter.verify {x y : Byte}
    (hc : cs[i]? = some (Ctl.underWay (encodeSet a o w v) .vfPtr (some x) (some y) none))
    (h : Snapshot P a (.phase i :: .phase i :: turns) (.ok :: .ok :: bus) b cs u) : ∃ t, stepN 2 u = .next t ∧
      Snapshot P a turns bus b (cs.set i
        (Ctl.finished (encodeSet a o w v) (some x) (some y) (some b) (verifyResult (extract b o w) v))) t := by
  obtain ⟨rfl, ha, hb, rfl, rfl⟩ := h
  obtain ⟨hop, haddr, ho, hw, hv⟩ := encodeSet_fields hset.field a v
  have pointer := PhaseTurn.vfPtr ⟨ha, hc, rfl, rfl, hset.target⟩ hb rfl hop
  rw [haddr] at pointer
  refine ⟨_, stepN_of_step pointer (stepN_one (PhaseTurn.vfData ⟨rfl, getElem?_set_of_getElem? hc _, rfl, rfl,
    hset.target⟩ rfl rfl hop hset.isMapped (by rw [ho, hw]; exact hset.field))), rfl, rfl, rfl, ?_, ?_⟩
  · exact (reg_of_regs_write rfl).trans (hset.readKeeps _)
  · rw [ho, hw, hv]
    exact List.set_set _

/-- The whole `SET` in one turn, its frames `ok` (R170). -/
theorem Setter.whole (hc : cs[i]? = some Ctl.idle)
    (h : Snapshot P a (.command i (encodeSet a o w v) :: turns) (.ok :: .ok :: .ok :: .ok :: .ok :: bus) b cs u) :
    ∃ t, stepN 1 u = .next t ∧ Snapshot P a turns bus (insertField b o w v)
      (cs.set i (Ctl.finished (encodeSet a o w v) (some b) (some (insertField b o w v)) (some (insertField b o w v))
        ⟨.ok, .none, v⟩)) t := by
  obtain ⟨rfl, ha, hb, rfl, rfl⟩ := h
  let s : State := ({ u with agenda := turns } : State).turnOf i
  have hwritten : s.written a (insertField (s.reg a) o w v) = insertField (s.reg a) o w v := write_wholeByte hset.mask _ _
  have run : step u = exec (.set a o w v) s := by
    rw [step, ha]
    exact runWord_ok hset.decodes s
  have serves : s.Serves 5 bus := ⟨⟨_, hc, rfl⟩, hset.target, hb⟩
  rw [exec_set_ok serves hset.rw hset.field (.inr hset.inRange)] at run
  refine ⟨_, stepN_one run, rfl, rfl, rfl, (State.afterSet_reg s _ _).trans hwritten, ?_⟩
  rw [State.afterSet_ctls, hwritten, hset.verifyResult_insertField]
  rfl

end

end Sys2Proof.Machine
end

section
/-! The statements of the hazards' family: what two controllers do to each other whose accesses interleave
(70_reset_and_hazards.md, R260 to R271). -/

namespace Sys2Proof.Machine

/-- Settles O58: controller 1's read access, controller 0's whole `SET`, controller 1's write access with the byte it read
before, and its verify, which sees its own write. -/
theorem lostUpdateBetweenTwoSetters : Obligations.LostUpdateBetweenTwoSetters := by
  intro s a o0 w0 o1 w1 v0 v1 rest hctls htarget hbus hrw hmask hl0 hl1 hdisjoint hv0 hv1 hagenda
  have set0 : Setter s.params a 0 o0 w0 v0 := ⟨by rw [htarget]; rfl, hrw, hmask, hl0, hv0⟩
  have set1 : Setter s.params a 1 o1 w1 v1 := ⟨by rw [htarget]; rfl, hrw, hmask, hl1, hv1⟩
  have start : Snapshot s.params a _ _ (s.reg a) _ s := ⟨rfl, hagenda, hbus, rfl, hctls⟩
  obtain ⟨u1, run1, h1⟩ := set1.firstRead rfl start
  obtain ⟨u2, run2, h2⟩ := set0.whole rfl h1
  obtain ⟨u3, run3, h3⟩ := set1.write rfl h2
  obtain ⟨t, run4, h4⟩ := set1.verify rfl h3
  refine ⟨t, _, _, stepN_add run1 (stepN_add run2 (stepN_add run3 run4)), h4.ctls, rfl, ?_, h4.reg, ?_⟩
  · exact congrArg some (set1.verifyResult_insertField _)
  · rw [h4.reg, extract_insertField_disjoint hl1 hl0 hdisjoint]

/-- Settles O59: both read accesses, then both write accesses, controller 0's first, then both verifies: controller 0's
sees the byte that controller 1 made of the one it had read. -/
theorem falseMismatchFromConcurrentWriter : Obligations.FalseMismatchFromConcurrentWriter := by
  intro s a o0 w0 o1 w1 v0 v1 rest hctls htarget hbus hrw hmask hl0 hl1 hdisjoint hv0 hv1 hother hagenda
  have set0 : Setter s.params a 0 o0 w0 v0 := ⟨by rw [htarget]; rfl, hrw, hmask, hl0, hv0⟩
  have set1 : Setter s.params a 1 o1 w1 v1 := ⟨by rw [htarget]; rfl, hrw, hmask, hl1, hv1⟩
  have start : Snapshot s.params a _ _ (s.reg a) _ s := ⟨rfl, hagenda, hbus, rfl, hctls⟩
  obtain ⟨u1, run1, h1⟩ := set1.firstRead rfl start
  obtain ⟨u2, run2, h2⟩ := set0.firstRead rfl h1
  obtain ⟨u3, run3, h3⟩ := set0.write rfl h2
  obtain ⟨u4, run4, h4⟩ := set1.write rfl h3
  obtain ⟨u5, run5, h5⟩ := set0.verify rfl h4
  obtain ⟨t, run6, h6⟩ := set1.verify rfl h5
  have run := stepN_add run1 (stepN_add run2 (stepN_add run3 (stepN_add run4 (stepN_add run5 run6))))
  refine ⟨t, _, _, run, h6.ctls, ?_, ?_, h6.reg⟩
  · refine congrArg some ?_
    rw [extract_insertField_disjoint hl1 hl0 hdisjoint, verifyResult, if_neg hother]
  · exact congrArg some (set1.verifyResult_insertField _)

/-- Settles O60: both pointer frames, the second to `b` (`stepN_twoPointers`); then controller 0's data frame at `b`, and
controller 1's wherever the first one left the pointer. -/
theorem pointerInterleavingReadsTheWrongRegister : Obligations.PointerInterleavingReadsTheWrongRegister := by
  intro s a b rest hctls htarget hbus ha hb hagenda
  have target0 : s.params.targetDev.getD 0 primaryDevAddr = s.params.devAddr := by rw [htarget]; rfl
  have target1 : s.params.targetDev.getD 1 primaryDevAddr = s.params.devAddr := by rw [htarget]; rfl
  have pointers := stepN_twoPointers hctls target0 target1 hbus ha hb hagenda
  obtain ⟨t, ht, run⟩ : ∃ t, t = _ ∧ stepN 7 s = .next t :=
    ⟨_, rfl, stepN_add pointers (stepN_one (PhaseTurn.rdData_rdReg (c := Ctl.pointed a)
      ⟨rfl, rfl, rfl, rfl, by exact target0⟩ rfl rfl (encodeRdReg_opcode a) hb))⟩
  have turn : PhaseTurn t 1 [] (Ctl.pointed b) (encodeRdReg b) := by
    rw [ht]
    exact ⟨rfl, rfl, rfl, rfl, target1⟩
  obtain ⟨u, d, last, hu⟩ := turn.rdData_rdReg_anywhere (bus := rest) (by rw [ht]; rfl) rfl (encodeRdReg_opcode b)
  rw [ht] at hu
  have regs : ∀ x, t.reg x = if x = b then s.reg b &&& ~~~(readClearMask b) else s.reg x := fun x => by
    rw [ht]
    exact State.setReg_reg s b x _
  refine ⟨t, u, _, _, d, run, ?_, fun x hx => (regs x).trans (if_neg hx), last, hu, rfl, rfl⟩
  rw [regs b, if_pos rfl]
  split_ifs with hrc
  · exact read_clears hrc _
  · exact read_keeps hrc _

end Sys2Proof.Machine
end
